-- ==== Sys2Proof/Word.lean ====
section
/-! DEFINITION. The word types of the unit: a byte of memory, a 64-bit register word. -/

namespace Sys2Proof

/-- One byte of system memory (R43: the space is byte addressed). -/
abbrev Byte := BitVec 8

/-- A register, a command word, an address held in a register (R21, R90, R5: ADDR_W = 64). -/
abbrev Word := BitVec 64

end Sys2Proof
end

