-- ==== Sys2Proof/Syntax.lean ====
section
/-! DEFINITION. The 23 commands of R99, the fields of a command word (R90), the command classes of R91,
and the host's primitive operations (R96). -/

namespace Sys2Proof

/-- The supported matrix sizes k, R5 K_SET; SZ codes 0 to 4 of R90. -/
inductive Size where
  | s8 | s16 | s32 | s64 | s128
  deriving DecidableEq, Repr

/-- What `decode` of R93 returns for a legal word: the class of R91 with its parameters. -/
inductive Command where
  /-- SQ: square in-place transpose, size k and the `_aligned` bit. -/
  | sq (z : Size) (aligned : Bool)
  /-- D8: by-value 8×8 transpose. -/
  | d8
  /-- P8X4: packed 8×8×4 transpose. -/
  | p8x4 (aligned : Bool)
  /-- KXN: rectangular k×N. -/
  | kxn (z : Size)
  /-- NXK: rectangular N×k. -/
  | nxk (z : Size)
  deriving DecidableEq, Repr

/-- One constructor per row of the opcode table (R99). A command has no operand field: its operands are
registers (R92). -/
inductive Instr where
  | transpose8x8 | transpose8x8Aligned
  | transpose16x16 | transpose16x16Aligned
  | transpose32x32 | transpose32x32Aligned
  | transpose64x64 | transpose64x64Aligned
  | transpose128x128 | transpose128x128Aligned
  | transpose8x8Direct
  | transpose8x8PackedX4 | transpose8x8PackedX4Aligned
  | transpose8xN | transpose16xN | transpose32xN | transpose64xN | transpose128xN
  | transposeNx8 | transposeNx16 | transposeNx32 | transposeNx64 | transposeNx128
  deriving DecidableEq, Repr

/-- The four fields of a command word, R90 (format CMD64). -/
structure CmdFields where
  opc : BitVec 4
  sz  : BitVec 3
  al  : BitVec 1
  rsv : BitVec 56
  deriving DecidableEq, Repr

/-- What the host does, in the order it does it. `rd`, `wr` and `wait` are the primitives of R96; the
others are the host's accesses to memory it owns (R20) and its cache maintenance (R79, R256), which
the unit's rules speak about. A store is listed where it is globally performed (R75). -/
inductive HostOp where
  /-- A read of `width` bytes at an offset of the register window (R38, R40). -/
  | rd (off : BitVec 8) (width : Nat)
  /-- A write of `width` bytes at an offset of the register window (R39, R40). -/
  | wr (off : BitVec 8) (width : Nat) (value : Word)
  /-- Repeat `rd STATUS` until BUSY reads 0 (R96). -/
  | wait
  /-- A load of `len` bytes of system memory. -/
  | load (addr : Word) (len : Nat)
  /-- A store of bytes to system memory, lowest address first. -/
  | store (addr : Word) (bytes : List Byte)
  /-- The host cleans its caches for a range (R256). -/
  | clean (addr : Word) (len : Nat)
  /-- The host invalidates its caches for a range (R256). -/
  | invalidate (addr : Word) (len : Nat)
  deriving DecidableEq, Repr

end Sys2Proof
end

