-- ==== Sys2Proof/WellFormed.lean ====
section
/-! DEFINITION. Which field combinations are legal command words (R93) and which register accesses have
a meaning (R40). -/

namespace Sys2Proof

/-- R93: the legal combinations of (OPC, SZ, AL) with RSV = 0. -/
def CmdFields.legal (f : CmdFields) : Bool :=
  f.rsv == 0 &&
  ((f.opc == 1 && decide (f.sz.toNat ≤ 4)) ||
   (f.opc == 2 && f.sz == 0 && f.al == 0) ||
   (f.opc == 3 && f.sz == 0) ||
   (f.opc == 4 && decide (f.sz.toNat ≤ 4) && f.al == 0) ||
   (f.opc == 5 && decide (f.sz.toNat ≤ 4) && f.al == 0))

/-- R40: a register access is a naturally aligned 8-byte access to one register. Alignment is judged on the
offset in the window, which R21 makes a multiple of 8 for every register, whatever REG_BASE is: DESIGN CHOICE
(log entry 21), since the spec gives REG_BASE no alignment. -/
def wholeRegister (off : BitVec 8) (width : Nat) : Bool :=
  width == 8 && off.toNat % 8 == 0

/-- A host operation of the forms the rules give a meaning to (R40, R72). -/
def HostOp.wellFormed : HostOp → Bool
  | .rd off width      => wholeRegister off width
  | .wr off width _    => wholeRegister off width
  | .wait              => true
  | .load a len        => decide (a.toNat + len ≤ 2 ^ 64)
  | .store a bytes     => decide (a.toNat + bytes.length ≤ 2 ^ 64)
  | .clean a len       => decide (a.toNat + len ≤ 2 ^ 64)
  | .invalidate a len  => decide (a.toNat + len ≤ 2 ^ 64)

end Sys2Proof
end

