-- ==== Sys2Proof/Decode.lean ====
section
/-! DEFINITION. Decoding a command word (R90, R93, R94), and the encoder (R95, R99). -/

namespace Sys2Proof

/-- Why a command word is not legal (R93). Every one of them completes with ILLEGAL_CMD (R94). -/
inductive Illegal where
  /-- v[63:8] ≠ 0. -/
  | reservedBits
  /-- SZ ∈ {5, 6, 7}. -/
  | sizeCode
  /-- OPC 0 or 6 to 15. -/
  | opcode
  /-- A size or `_aligned` bit that the class does not have. -/
  | form
  deriving DecidableEq, Repr

/-- R90: the fields of a word. -/
def fieldsOf (v : Word) : CmdFields :=
  { opc := v.extractLsb' 0 4, sz := v.extractLsb' 4 3, al := v.extractLsb' 7 1, rsv := v.extractLsb' 8 56 }

/-- R95: `v = OPC | SZ << 4 | AL << 7`, with RSV above it. -/
def wordOf (f : CmdFields) : Word :=
  (f.opc.setWidth 64) ||| (f.sz.setWidth 64 <<< 4) ||| (f.al.setWidth 64 <<< 7) ||| (f.rsv.setWidth 64 <<< 8)

/-- R90: k = 8 << SZ for SZ 0 to 4; 5, 6 and 7 are reserved. -/
def sizeOfCode (sz : Nat) : Option Size :=
  match sz with
  | 0 => some .s8
  | 1 => some .s16
  | 2 => some .s32
  | 3 => some .s64
  | 4 => some .s128
  | _ => none

/-- The SZ code of a size (R90). -/
def Size.code : Size → BitVec 3
  | .s8 => 0 | .s16 => 1 | .s32 => 2 | .s64 => 3 | .s128 => 4

/-- R93 `decode`, on the fields. -/
def decodeFields (f : CmdFields) : Except Illegal Command :=
  if f.rsv ≠ 0 then .error .reservedBits
  else
    match sizeOfCode f.sz.toNat with
    | none => .error .sizeCode
    | some z =>
      let al := f.al == 1
      match f.opc.toNat with
      | 1 => .ok (.sq z al)
      | 2 => if z = .s8 ∧ al = false then .ok .d8 else .error .form
      | 3 => if z = .s8 then .ok (.p8x4 al) else .error .form
      | 4 => if al = false then .ok (.kxn z) else .error .form
      | 5 => if al = false then .ok (.nxk z) else .error .form
      | _ => .error .opcode

/-- The row of R99 that a decoded command is. -/
def Command.instr : Command → Instr
  | .sq .s8 false => .transpose8x8
  | .sq .s8 true => .transpose8x8Aligned
  | .sq .s16 false => .transpose16x16
  | .sq .s16 true => .transpose16x16Aligned
  | .sq .s32 false => .transpose32x32
  | .sq .s32 true => .transpose32x32Aligned
  | .sq .s64 false => .transpose64x64
  | .sq .s64 true => .transpose64x64Aligned
  | .sq .s128 false => .transpose128x128
  | .sq .s128 true => .transpose128x128Aligned
  | .d8 => .transpose8x8Direct
  | .p8x4 false => .transpose8x8PackedX4
  | .p8x4 true => .transpose8x8PackedX4Aligned
  | .kxn .s8 => .transpose8xN
  | .kxn .s16 => .transpose16xN
  | .kxn .s32 => .transpose32xN
  | .kxn .s64 => .transpose64xN
  | .kxn .s128 => .transpose128xN
  | .nxk .s8 => .transposeNx8
  | .nxk .s16 => .transposeNx16
  | .nxk .s32 => .transposeNx32
  | .nxk .s64 => .transposeNx64
  | .nxk .s128 => .transposeNx128

/-- The class and parameters of a row of R99. -/
def Instr.command : Instr → Command
  | .transpose8x8 => .sq .s8 false
  | .transpose8x8Aligned => .sq .s8 true
  | .transpose16x16 => .sq .s16 false
  | .transpose16x16Aligned => .sq .s16 true
  | .transpose32x32 => .sq .s32 false
  | .transpose32x32Aligned => .sq .s32 true
  | .transpose64x64 => .sq .s64 false
  | .transpose64x64Aligned => .sq .s64 true
  | .transpose128x128 => .sq .s128 false
  | .transpose128x128Aligned => .sq .s128 true
  | .transpose8x8Direct => .d8
  | .transpose8x8PackedX4 => .p8x4 false
  | .transpose8x8PackedX4Aligned => .p8x4 true
  | .transpose8xN => .kxn .s8
  | .transpose16xN => .kxn .s16
  | .transpose32xN => .kxn .s32
  | .transpose64xN => .kxn .s64
  | .transpose128xN => .kxn .s128
  | .transposeNx8 => .nxk .s8
  | .transposeNx16 => .nxk .s16
  | .transposeNx32 => .nxk .s32
  | .transposeNx64 => .nxk .s64
  | .transposeNx128 => .nxk .s128

/-- R93: the instruction a command word is, or why it is none. Total on every 64-bit word. -/
def decode (v : Word) : Except Illegal Instr :=
  match decodeFields (fieldsOf v) with
  | .ok c => .ok c.instr
  | .error e => .error e

/-- The 64-bit little-endian number of a byte sequence (R60), its first 8 bytes. -/
def wordOfBytes (bs : List Byte) : Word :=
  BitVec.ofNat 64 ((bs.take 8).foldr (fun b n => b.toNat + 256 * n) 0)

/-- Why a byte sequence is no command. -/
inductive Rejected where
  /-- Fewer than the 8 bytes of a command word (R90: one length). -/
  | short
  /-- Eight bytes that are no legal word. -/
  | illegal (why : Illegal)
  deriving DecidableEq, Repr

/-- The command word as the host would lay it out in bytes, least significant byte first (R60): the
instruction and the bytes after it. -/
def decodeBytes (bs : List Byte) : Except Rejected (Instr × List Byte) :=
  if bs.length < 8 then .error .short
  else
    match decode (wordOfBytes bs) with
    | .ok i => .ok (i, bs.drop 8)
    | .error e => .error (.illegal e)

/-- R91: the operation class of a command. -/
def Command.fields : Command → CmdFields
  | .sq z al => { opc := 1, sz := z.code, al := if al then 1 else 0, rsv := 0 }
  | .d8 => { opc := 2, sz := 0, al := 0, rsv := 0 }
  | .p8x4 al => { opc := 3, sz := 0, al := if al then 1 else 0, rsv := 0 }
  | .kxn z => { opc := 4, sz := z.code, al := 0, rsv := 0 }
  | .nxk z => { opc := 5, sz := z.code, al := 0, rsv := 0 }

/-- The fields of an instruction's word. -/
def Instr.fields (i : Instr) : CmdFields := i.command.fields

/-- R99: the command word of an instruction. -/
def encode (i : Instr) : Word := wordOf i.fields

/-- An instruction is well formed when its fields are a legal combination of R93. -/
def Instr.wellFormed (i : Instr) : Bool := i.fields.legal

/-- The eight bytes of a word, least significant first (R60). -/
def bytesOfWord (v : Word) : List Byte :=
  (List.range 8).map fun i => v.extractLsb' (8 * i) 8

/-- The word that the table's numbering of `nbits` bits names: the bits above them are 0, and the CMD
register holds 64. -/
def tableWord (nbits w : Nat) : Word := BitVec.ofNat 64 (w % 2 ^ nbits)

/-- What the decoder reads from a table word, laid out in little-endian bytes. -/
def decodeTableWord (nbits w : Nat) : Option Instr :=
  match decodeBytes (bytesOfWord (tableWord nbits w)) with
  | .ok (i, _) => some i
  | .error _ => none

end Sys2Proof
end

