-- ==== Sys2Proof/Config.lean ====
section
/-! DEFINITION. The OPEN parameters of R5 as plain data (one `Platform` value per platform), and the
free values: opaque constants that nothing can evaluate. -/

namespace Sys2Proof

/-- A byte range `[base, base + len)`, R8 `Range(a, len)`, in unbounded naturals (R72: no wrap). -/
structure Range where
  base : Nat
  len  : Nat
  deriving DecidableEq, Repr

/-- How the platform's bus treats the unit's accesses to a region (R70, R216, R260). An address in no
region is normal memory. -/
inductive RegionKind where
  /-- The bus answers with an error (R216; X4 makes the set a parameter of the platform). -/
  | faulting
  /-- The bus never answers (R260). -/
  | silent
  /-- Memory with side effects (R70, R225 (d)). -/
  | device
  deriving DecidableEq, Repr

/-- One entry of the platform's map of addresses that are not normal memory. -/
structure Region where
  range : Range
  kind  : RegionKind
  deriving DecidableEq, Repr

/-- The OPEN parameters of R5 that a rule depends on. LATENCY is in no rule (R259) and has no field;
REG_SUBWORD is a refusal (R40). -/
structure Platform where
  /-- HAS_VEC: the wide-vector engine is present (R5, R22, R23). -/
  hasVec   : Bool
  /-- ID_VALUE: CAP[63:32] (R22). -/
  idValue  : BitVec 32
  /-- REG_BASE: the address of the 256-byte register window (R21). Any address; a register access is judged by
  its offset alone (log entry 21). -/
  regBase  : Word
  /-- COHERENT: the unit's accesses are coherent with the host's (R79). -/
  coherent : Bool
  /-- The addresses whose accesses the bus does not simply answer (X4, X8, X10). -/
  regions  : List Region
  deriving DecidableEq, Repr

/-- FREE VALUE (R224, X13: both orders admitted). Whether the host moves before the unit when both can
move and no explicit turn is given. -/
opaque Config.hostMovesFirst : Nat → Bool

/-- FREE VALUE (R216, X3). Which byte of the pointer table a BUS_FAULT on a table read names. -/
opaque Config.faultOffset : Nat → Nat

/-- FREE VALUE (R69, R216, R260). Whether a table read meets an address that is never answered before
one that is answered with an error, where the table holds both: the order of accesses is
unspecified. -/
opaque Config.hangsFirst : Nat → Bool

/-- FREE VALUE (R250, X7). The byte at an address of the write set of a command that reset abandoned. -/
opaque Config.abandonedByte : Nat → Nat → Byte

end Sys2Proof
end

