-- ==== Sys2Proof/Machine/State.lean ====
section
/-! DEFINITION. The state of the machine: the unit's registers (R21, R42), the command it is performing
(R36, R37), system memory (R43), the platform's parameters (R5), and the model's own fields (what the
host does next, who moves next, what the host has read, the counter of free values). -/

namespace Sys2Proof.Machine

/-- The codes of R211. Codes 6 to 15 are reserved and never written (R217), so they have no
constructor. -/
inductive ErrCode where
  | none | illegalCmd | nRange | misaligned | addrRange | busFault
  deriving DecidableEq, Repr

/-- CTRL's two fields (R23). The reserved bits read 0 and are not stored (R31). -/
structure Ctrl where
  /-- ENG: true is the wide-vector engine. -/
  eng : Bool
  /-- IE: the interrupt enable. -/
  ie  : Bool
  deriving DecidableEq, Repr

/-- STATUS's stored fields (R24). BUSY is whether a command is latched (`State.busy`). -/
structure Status where
  done    : Bool
  err     : Bool
  drop    : Bool
  errCode : ErrCode
  deriving DecidableEq, Repr

/-- System memory: the listed bytes, addresses strictly rising, none equal to what an unlisted address
reads as (`Memory.wf`). -/
abbrev Memory := List Host.Cell

/-- The operand registers a command uses (R32). -/
structure OperandRegs where
  arg0 : Word
  arg1 : Word
  arg2 : Word
  data : Word
  deriving DecidableEq, Repr

/-- What acceptance latches (R36, R37): the command word and a copy of the operands. `draw` is the
model's own: which free values the command draws. -/
structure Latch where
  cmd  : Word
  ops  : OperandRegs
  draw : Nat
  deriving DecidableEq, Repr

/-- What the host has read. -/
inductive Observation where
  /-- A register read: offset and value. -/
  | reg (off : BitVec 8) (value : Word)
  /-- A load from system memory. -/
  | mem (addr : Word) (bytes : List Byte)
  deriving DecidableEq, Repr

/-- Who moves next, where that is given (R224: the unit and the host in either order; R250: reset is a
platform input that can come at any time). -/
inductive Turn where
  | unit | host | reset
  deriving DecidableEq, Repr

/-- The ways a run stops with a fault. Each is a case the spec says a model treats as a fault; all are
SAFE: the machine stops where the hardware goes on. -/
inductive Fault where
  /-- R225 (a), (b): rectangular ranges that overlap. Raised by the ten rectangular commands. Safe. -/
  | overlappingRanges
  /-- R225 (c), R43: an operand range overlaps the register window. Raised by every memory command. Safe. -/
  | registerWindowOverlap
  /-- R225 (f), R79, R256: non-coherent memory that the host did not make coherent. Raised by every memory
  command and by host accesses to memory. Safe. -/
  | notCoherent
  /-- R216, X2: the bus answers an access of the data phase with an error. Raised by every memory command. Safe. -/
  | dataPhaseBusFault
  /-- R74, R225 (e), R254: the host accesses a byte of a command's sets before it has observed the command's
  completion. Raised by host accesses to memory. Safe. -/
  | hostRace
  /-- R43: system memory has addresses 0 to 2^64 − 1. Raised by a host access past them. Safe. -/
  | outsideMemory
  deriving DecidableEq, Repr

/-- The ways the model refuses. -/
inductive Refusal where
  /-- An instruction that has no meaning yet. Raised by `exec`'s arms. Safe. -/
  | notModelled (mnemonic : String)
  /-- R40, X9 (REG_SUBWORD): a register access that is not a whole aligned register. Raised by the host's
  `rd` and `wr`. Safe. -/
  | registerAccessWidth
  /-- R70, R225 (d), X10: an operand range on memory with side effects. Raised by every memory command. Safe. -/
  | deviceMemory
  /-- A host load or store that reaches the register window or device memory, where the spec gives no
  memory behaviour (register accesses are `rd` and `wr`). Raised by host accesses to memory. Safe. -/
  | hostDeviceAccess
  deriving DecidableEq, Repr

/-- How a command stops short of an outcome of its own. -/
inductive Stop where
  | fault (f : Fault)
  | refuse (r : Refusal)
  deriving DecidableEq, Repr

/-- The whole state. -/
structure State where
  /-- The platform's OPEN parameters (R5); no step changes them. -/
  platform : Platform
  /-- CTRL (R23). -/
  ctrl     : Ctrl
  /-- STATUS, less BUSY (R24). -/
  status   : Status
  /-- ARG0 (R26). -/
  arg0     : Word
  /-- ARG1 (R27). -/
  arg1     : Word
  /-- ARG2 (R28). -/
  arg2     : Word
  /-- DATA (R29). -/
  data     : Word
  /-- ERRADDR (R30). -/
  errAddr  : Word
  /-- The command being performed, with its latched operands (R36, R37); none is IDLE. -/
  latch    : Option Latch
  /-- System memory (R43). -/
  mem      : Memory
  /-- Bytes the host has stored and not cleaned, where COHERENT is false (R256). -/
  dirty    : List Nat
  /-- Bytes the unit has written and the host has not invalidated, where COHERENT is false (R256). -/
  stale    : List Nat
  /-- The read and write sets (R68) of the commands accepted since the host last observed a completion: what it
  must not access (R74, R254, log entry 22). -/
  unobserved : List Range
  /-- The host's operations still to come, first one first (R96). The model's own field. -/
  inputs   : List HostOp
  /-- The turns that are given, next one first (R224, R250). The model's own field. -/
  turns    : List Turn
  /-- What the host has read, oldest first. The model's own field. -/
  observed : List Observation
  /-- The counter of free values. The model's own field. -/
  free     : Nat
  deriving DecidableEq, Repr

/-- The platform at reset: HAS_VEC = 0 and ID_VALUE = 0 as the programs of 95_test_vectors.md §7, COHERENT
as R5 assumes it, every address normal memory. DESIGN CHOICE (unsafe, log entry 1). -/
def Platform.atReset : Platform :=
  { hasVec := false, idValue := 0, regBase := 0x4000000000000000, coherent := true, regions := [] }

/-- The machine right after reset (R42, R251): every register 0, IDLE, memory with nothing listed, and no
host operation to come. -/
def State.reset : State :=
  { platform := Platform.atReset
    ctrl := { eng := false, ie := false }
    status := { done := false, err := false, drop := false, errCode := .none }
    arg0 := 0, arg1 := 0, arg2 := 0, data := 0, errAddr := 0
    latch := none, mem := [], dirty := [], stale := [], unobserved := []
    inputs := [], turns := [], observed := [], free := 0 }

end Sys2Proof.Machine
end

