-- ==== Sys2Proof/Machine/Ops.lean ====
section
/-! DEFINITION. The shared operations: bytes and bit strings (R60, R62), memory (R8, R43), ranges (R72),
acceptance and the two completions (R37, R219, R220), and running a command's plan (R218). -/

namespace Sys2Proof.Machine

/-! ### Bytes and bit strings -/

/-- The number whose little-endian bytes are given (R60). -/
def natOfBytes : List Byte → Nat
  | []      => 0
  | b :: bs => b.toNat + 256 * natOfBytes bs

/-- The `n` little-endian bytes of a number (R60). -/
def bytesOfNat (n x : Nat) : List Byte :=
  (List.range n).map fun i => BitVec.ofNat 8 (x >>> (8 * i))

/-- The number whose bit j is the j-th Boolean (R6: bit 0 is the least significant). -/
def natOfBools : List Bool → Nat
  | []      => 0
  | b :: bs => b.toNat + 2 * natOfBools bs

/-- A bit vector from its bits, bit 0 first. -/
def ofBools (w : Nat) (bs : List Bool) : BitVec w := BitVec.ofNat w (natOfBools bs)

/-! ### Memory -/

/-- What an address that is not listed reads as. DESIGN CHOICE (unsafe, log entry 2): 95_test_vectors.md §7
"Memory not listed is 0". -/
def unlistedByte : Byte := 0

/-- The byte at an address. -/
def Memory.byte : Memory → Nat → Byte
  | [], _          => unlistedByte
  | (x, b) :: m, a => if x = a then b else Memory.byte m a

/-- The canonical form from an address up: addresses strictly rising and below 2^64, no byte equal to
what an unlisted address reads as. -/
def Memory.wfFrom : Nat → Memory → Bool
  | _, []           => true
  | lo, (a, b) :: m => decide (lo ≤ a) && decide (a < 2 ^ 64) && b != unlistedByte && Memory.wfFrom (a + 1) m

/-- The canonical form of memory. -/
def Memory.wf (m : Memory) : Bool := Memory.wfFrom 0 m

/-- R8 `MemRead(a, n)`: the n bytes from a, lowest address first. -/
def Memory.read (m : Memory) (a n : Nat) : List Byte :=
  let w : Memory := m.filter fun c => decide (a ≤ c.1) && decide (c.1 < a + n)
  (List.range n).map fun i => Memory.byte w (a + i)

/-- R8 `MemRead(a, n)` as a number (R60: little-endian). -/
def Memory.readNat (m : Memory) (a n : Nat) : Nat := natOfBytes (m.read a n)

/-- The cells that list a byte sequence from an address. -/
def cellsOf : Nat → List Byte → Memory
  | _, []      => []
  | a, b :: bs => if b = unlistedByte then cellsOf (a + 1) bs else (a, b) :: cellsOf (a + 1) bs

/-- R8 `MemWrite(a, n, v)`: the bytes from a replaced, everything else kept. -/
def Memory.write (m : Memory) (a : Nat) (bs : List Byte) : Memory :=
  m.filter (fun c => decide (c.1 < a)) ++ cellsOf a bs ++ m.filter (fun c => decide (a + bs.length ≤ c.1))

/-- Bytes to be written from an address. -/
abbrev Store := Nat × List Byte

/-- The writes of a command, one after another. -/
def Memory.writeAll (m : Memory) : List Store → Memory
  | []             => m
  | (a, bs) :: sts => Memory.writeAll (m.write a bs) sts

/-- R62 `Bits(a, t)`: bit t of the bit string at a. -/
def Memory.bit (m : Memory) (a t : Nat) : Bool := (m.byte (a + t / 8)).getLsbD (t % 8)

/-! ### Ranges -/

/-- R8, R72 `RangeOK(a, len)`: a + len ≤ 2^64, compared as integers. -/
def rangeOk (r : Range) : Bool := decide (r.base + r.len ≤ 2 ^ 64)

/-- The range holds an address. -/
def inRange (r : Range) (a : Nat) : Bool := decide (r.base ≤ a) && decide (a < r.base + r.len)

/-- Two ranges share a byte. -/
def overlaps (r q : Range) : Bool :=
  decide (0 < r.len) && decide (0 < q.len) &&
  decide (r.base < q.base + q.len) && decide (q.base < r.base + r.len)

/-- No two ranges of the list share a byte (R179). -/
def pairwiseDisjoint : List Range → Bool
  | []      => true
  | r :: rs => rs.all (fun q => !overlaps r q) && pairwiseDisjoint rs

/-- The part of a range inside the address space (R43). -/
def inSpace (r : Range) : Range := { r with len := min r.len (2 ^ 64 - r.base) }

/-- The addresses of a range. -/
def addressesOf (r : Range) : List Nat := (List.range r.len).map (r.base + ·)

/-! ### The unit's life cycle -/

/-- STATUS.BUSY (R24, R37): a command is latched. -/
def State.busy (s : State) : Bool := s.latch.isSome

/-- The operand registers now. -/
def State.operandRegs (s : State) : OperandRegs :=
  { arg0 := s.arg0, arg1 := s.arg1, arg2 := s.arg2, data := s.data }

/-- R37 acceptance of the word v: BUSY ← 1; DONE, ERR, ERRCODE and ERRADDR cleared; DROP kept; the word and
the operands latched. -/
def State.accept (s : State) (v : Word) : State :=
  { s with
    latch := some { cmd := v, ops := s.operandRegs, draw := s.free }
    status := { s.status with done := false, err := false, errCode := .none }
    errAddr := 0
    free := s.free + 1 }

/-- R220 successful completion: BUSY ← 0 and DONE ← 1. -/
def State.completeOk (s : State) : State :=
  { s with latch := none, status := { s.status with done := true } }

/-- R219 error completion, `raise Error(code, addr)`: BUSY ← 0, ERR ← 1, ERRCODE and ERRADDR recorded. -/
def State.completeError (s : State) (code : ErrCode) (addr : Word) : State :=
  { s with latch := none, status := { s.status with err := true, errCode := code }, errAddr := addr }

/-- The latched operands of the running command (R37); of an IDLE unit, the registers as they stand. -/
def State.operands (s : State) : OperandRegs :=
  match s.latch with
  | some l => l.ops
  | none   => s.operandRegs

/-- Which free values the running command draws. -/
def State.draw (s : State) : Nat :=
  match s.latch with
  | some l => l.draw
  | none   => s.free

/-- The register window (R21): 256 bytes at REG_BASE. -/
def windowOf (p : Platform) : Range := { base := p.regBase.toNat, len := 256 }

/-- Some region of a kind holds a byte of some range. -/
def busHits (p : Platform) (k : RegionKind) (rs : List Range) : Bool :=
  p.regions.any fun g => g.kind == k && rs.any (overlaps g.range)

/-- The violations a model stops on for any access of the unit: device memory (R70), the register window
(R225 (c)), memory not made coherent (R225 (f)). -/
def State.stopOn (s : State) (rs : List Range) : Option Stop :=
  if busHits s.platform .device rs then some (.refuse .deviceMemory)
  else if rs.any (overlaps (windowOf s.platform)) then some (.fault .registerWindowOverlap)
  else if !s.platform.coherent && s.dirty.any (fun a => rs.any (inRange · a)) then some (.fault .notCoherent)
  else none

/-- What a command does with its operands before its data phase (R218, checks 1 to 7), and what it then
accesses (R68). -/
inductive Plan where
  /-- It completes with an error after reading the ranges `reads` (R219). -/
  | error (code : ErrCode) (addr : Word) (reads : List Range)
  /-- It accesses no memory and completes (R115, R178). -/
  | nothing
  /-- A pointer-table read is never answered (R260). -/
  | hang (reads : List Range)
  /-- A violation that the model stops on (R225), with the ranges the command touches. -/
  | stop (why : Stop) (touched : List Range)
  /-- It reads and writes these ranges (R68). -/
  | access (reads writes : List Range)
  deriving DecidableEq, Repr

/-- The bytes a plan accesses: of the sets of R68, those it comes to (R219). -/
def Plan.touched : Plan → List Range
  | .error _ _ rs        => rs
  | .nothing             => []
  | .hang rs             => rs
  | .stop _ rs           => rs
  | .access reads writes => reads ++ writes

/-- The write set of a plan (R68). -/
def Plan.writes : Plan → List Range
  | .access _ writes => writes
  | _                => []

/-- The outcome of a stop. -/
def Stop.outcome : Stop → Host.Outcome State Fault Refusal
  | .fault f  => .fault f
  | .refuse r => .refused r

/-- On a non-coherent platform the bytes the unit writes are stale in the host's caches until it
invalidates them (R256). -/
def State.markStale (s : State) (writes : List Range) : List Nat :=
  if s.platform.coherent then s.stale else s.stale ++ writes.flatMap addressesOf

/-- The writes of a command and its successful completion (R76, R220). -/
def State.commit (s : State) (writes : List Range) (stores : List Store) : State :=
  { s.completeOk with mem := s.mem.writeAll stores, stale := s.markStale writes }

/-- Performing a command from its plan to its completion (R37, R218). The stores are a function of the
state at acceptance (R10), and are computed only where there is a data phase. A data-phase bus error is a fault of the run (R216, X2). A data access that is never
answered leaves the unit BUSY (R260). -/
def State.perform (s : State) (p : Plan) (stores : State → List Store) : Host.Outcome State Fault Refusal :=
  match p with
  | .error code addr _   => .next (s.completeError code addr)
  | .nothing             => .next s.completeOk
  | .hang _              => .next s
  | .stop why _          => why.outcome
  | .access reads writes =>
    if busHits s.platform .faulting (reads ++ writes) then .fault .dataPhaseBusFault
    else if busHits s.platform .silent (reads ++ writes) then .next s
    else .next (s.commit writes (stores s))

end Sys2Proof.Machine
end

