-- ==== Sys2Proof/Machine/Operands.lean ====
section
/-! DEFINITION. The operand forms (R61 to R64, R92): sizes, buffers, pointer tables, and the checks of R218
in their order; the read and write sets of R68, and what acceptance makes of them (R254). -/

namespace Sys2Proof.Machine

/-- The size k at recursion level n: 8, 16, 32, 64, 128 at levels 0 to 4 (R90: k = 8 << SZ; R142). -/
def dim : Nat → Nat
  | 0     => 8
  | n + 1 => dim n + dim n

/-- The recursion level of a size: its SZ code (R90, R142). -/
def level : Size → Nat
  | .s8 => 0 | .s16 => 1 | .s32 => 2 | .s64 => 3 | .s128 => 4

/-- k. -/
def sizeBits (z : Size) : Nat := dim (level z)

/-- E = k/8: the bytes of one k-bit row word (R61, R67). -/
def rowBytes (z : Size) : Nat := sizeBits z / 8

/-- k²/8: the bytes of one k×k matrix (R61). -/
def blockBytes (z : Size) : Nat := sizeBits z * rowBytes z

/-- The `_aligned` boundary (R5 ALIGN_BYTES, R66). -/
def alignedBoundary : Nat := 32

/-- The bytes of a packed buffer of 4 words (R63). -/
def packedBytes : Nat := 32

/-- The alignment and the entry size of a pointer table (R5 PTR_BYTES, R64, R67). -/
def pointerBytes : Nat := 8

/-- The block count N = ARG2[31:0] (R28, R92). -/
def blockCount (o : OperandRegs) : Nat := (o.arg2.extractLsb' 0 32).toNat

/-- R213: ARG2[63:32] ≠ 0. -/
def countOutOfRange (o : OperandRegs) : Bool := o.arg2.extractLsb' 32 32 != 0

/-- The range of a square or packed buffer at ARG0 (R68). -/
def bufferRange (o : OperandRegs) (len : Nat) : Range := { base := o.arg0.toNat, len := len }

/-- The plan of a square or packed command over `len` bytes at ARG0 (R116 to R119, SQCMD of
41_square_recursive.md): MISALIGNED if `_aligned`, then ADDR_RANGE. -/
def State.bufferPlan (s : State) (len : Nat) (aligned : Bool) : Plan :=
  let r := bufferRange s.operands len
  if aligned && r.base % alignedBoundary != 0 then .error .misaligned s.operands.arg0 []
  else if !rangeOk r then .error .addrRange s.operands.arg0 []
  else
    match s.stopOn [r] with
    | some w => .stop w [r]
    | none   => .access [r] [r]

/-- R218 checks 4 and 5 on the two address operands: MISALIGNED on ARG0 then ARG1, ADDR_RANGE on ARG0 then
ARG1. Each operand comes with its alignment and its length. -/
def operandError (a0 : Word) (align0 len0 : Nat) (a1 : Word) (align1 len1 : Nat) : Option (ErrCode × Word) :=
  if a0.toNat % align0 ≠ 0 then some (.misaligned, a0)
  else if a1.toNat % align1 ≠ 0 then some (.misaligned, a1)
  else if a0.toNat + len0 > 2 ^ 64 then some (.addrRange, a0)
  else if a1.toNat + len1 > 2 ^ 64 then some (.addrRange, a1)
  else none

/-- R64: entry j of the pointer table at t, `MemRead(t + 8·j, 8)`. No check reads an entry of a table that passes
2^64 (R218); the sets of R68 do, and there a byte past the address space reads 0: DESIGN CHOICE (log entry 23). -/
def tableEntry (m : Memory) (t j : Nat) : Word :=
  BitVec.ofNat 64 (m.readNat (t + pointerBytes * j) pointerBytes)

/-- R64: the k entries of the pointer table at t. -/
def tableEntries (m : Memory) (t k : Nat) : List Word := (List.range k).map (tableEntry m t)

/-- R218 check 7: for each entry in order, MISALIGNED then ADDR_RANGE of its row range. -/
def entryError (align rowLen : Nat) : List Word → Option (ErrCode × Word)
  | []      => none
  | p :: ps =>
    if p.toNat % align ≠ 0 then some (.misaligned, p)
    else if p.toNat + rowLen > 2 ^ 64 then some (.addrRange, p)
    else entryError align rowLen ps

/-- The row ranges that a table's entries name (R68): N·k/8 bytes each. -/
def rowRanges (rowLen : Nat) (ps : List Word) : List Range :=
  ps.map fun p => { base := p.toNat, len := rowLen }

/-- R218 check 6, the table read: a violation stops, an access that is never answered hangs, one answered
with an error is BUS_FAULT with an address inside the table (R216). `rest` is what follows the read. -/
def State.tablePhase (s : State) (table : Range) (rest : Plan) : Plan :=
  match s.stopOn [table] with
  | some w => .stop w [table]
  | none   =>
    let faulting := busHits s.platform .faulting [table]
    let silent := busHits s.platform .silent [table]
    if silent && (!faulting || Config.hangsFirst s.draw) then .hang [table]
    else if faulting then
      .error .busFault (BitVec.ofNat 64 (table.base + Config.faultOffset s.draw % table.len)) [table]
    else rest

/-- After the entry checks: the ranges must be disjoint as R179 and R225 (a), (b) say, and the accesses
free of the other violations of R225. -/
def State.dataPlan (s : State) (disjoint : Bool) (reads writes : List Range) : Plan :=
  match s.stopOn (reads ++ writes) with
  | some w => .stop w (reads ++ writes)
  | none   => if disjoint then .access reads writes else .stop (.fault .overlappingRanges) (reads ++ writes)

/-- N·k²/8: the bytes of the contiguous buffer (R68). -/
def contiguousBytes (z : Size) (n : Nat) : Nat := n * blockBytes z

/-- N·k/8: the bytes of one row string (R68). -/
def stringBytes (z : Size) (n : Nat) : Nat := n * rowBytes z

/-- 8·k: the bytes of the pointer table (R68). -/
def tableBytes (z : Size) : Nat := pointerBytes * sizeBits z

/-- The plan of `transpose_<k>xN` (RECT_KXN of 42_rectangular.md): ARG0 the destination buffer, ARG1 the
source pointer table. -/
def State.kxnPlan (s : State) (z : Size) : Plan :=
  let o := s.operands
  let n := blockCount o
  if countOutOfRange o then .error .nRange 0 []
  else if n = 0 then .nothing
  else
    match operandError o.arg0 (rowBytes z) (contiguousBytes z n) o.arg1 pointerBytes (tableBytes z) with
    | some (c, a) => .error c a []
    | none =>
      let buf : Range := { base := o.arg0.toNat, len := contiguousBytes z n }
      let table : Range := { base := o.arg1.toNat, len := tableBytes z }
      let ps := tableEntries s.mem table.base (sizeBits z)
      let rows := rowRanges (stringBytes z n) ps
      s.tablePhase table <|
        match entryError (rowBytes z) (stringBytes z n) ps with
        | some (c, a) => .error c a [table]
        | none =>
          s.dataPlan (pairwiseDisjoint rows && rows.all (fun r => !overlaps buf r) && !overlaps table buf)
            (table :: rows) [buf]

/-- The plan of `transpose_Nx<k>` (RECT_NXK of 42_rectangular.md): ARG0 the destination pointer table, ARG1
the source buffer. -/
def State.nxkPlan (s : State) (z : Size) : Plan :=
  let o := s.operands
  let n := blockCount o
  if countOutOfRange o then .error .nRange 0 []
  else if n = 0 then .nothing
  else
    match operandError o.arg0 pointerBytes (tableBytes z) o.arg1 (rowBytes z) (contiguousBytes z n) with
    | some (c, a) => .error c a []
    | none =>
      let table : Range := { base := o.arg0.toNat, len := tableBytes z }
      let buf : Range := { base := o.arg1.toNat, len := contiguousBytes z n }
      let qs := tableEntries s.mem table.base (sizeBits z)
      let rows := rowRanges (stringBytes z n) qs
      s.tablePhase table <|
        match entryError (rowBytes z) (stringBytes z n) qs with
        | some (c, a) => .error c a [table]
        | none =>
          s.dataPlan (pairwiseDisjoint rows && rows.all (fun r => !overlaps buf r) &&
              rows.all (fun r => !overlaps table r))
            [table, buf] rows

/-- R68: the table, the contiguous buffer and the k row ranges of a rectangular command with N ≥ 1; none with
N = 0. Of a table that passes 2^64, the entries' bytes past the address space read 0: DESIGN CHOICE (log entry 23). -/
def State.rectangularSet (s : State) (z : Size) (t b : Nat) : List Range :=
  let n := blockCount s.operands
  if n = 0 then []
  else
    { base := t, len := tableBytes z } :: { base := b, len := contiguousBytes z n } ::
      rowRanges (stringBytes z n) (tableEntries s.mem t (sizeBits z))

/-- R68: the read and write sets of a command for its operands, whether or not its checks let it access all of
them. -/
def State.accessSet (s : State) : Command → List Range
  | .sq z _   => [bufferRange s.operands (blockBytes z)]
  | .d8       => []
  | .p8x4 _   => [bufferRange s.operands packedBytes]
  | .kxn z    => s.rectangularSet z s.operands.arg1.toNat s.operands.arg0.toNat
  | .nxk z    => s.rectangularSet z s.operands.arg0.toNat s.operands.arg1.toNat

/-- R68: the write set of a command for its operands, whether or not its checks let it write. Of a table that passes
2^64, the entries' bytes past the address space read 0: DESIGN CHOICE (log entry 23). -/
def State.writeSet (s : State) : Command → List Range
  | .sq z _   => [bufferRange s.operands (blockBytes z)]
  | .d8       => []
  | .p8x4 _   => [bufferRange s.operands packedBytes]
  | .kxn z    => [bufferRange s.operands (contiguousBytes z (blockCount s.operands))]
  | .nxk z    =>
    rowRanges (stringBytes z (blockCount s.operands)) (tableEntries s.mem s.operands.arg0.toNat (sizeBits z))

/-- The command a BUSY unit is performing; an illegal word is none (R94). -/
def State.runningCommand (s : State) : Option Command :=
  match s.latch with
  | none   => none
  | some l =>
    match decode l.cmd with
    | .ok i    => some i.command
    | .error _ => none

/-- The read and write sets of the running command (R68). -/
def State.runningSet (s : State) : List Range :=
  match s.runningCommand with
  | some c => s.accessSet c
  | none   => []

/-- The write set of the running command (R68). -/
def State.runningWriteSet (s : State) : List Range :=
  match s.runningCommand with
  | some c => s.writeSet c
  | none   => []

/-- A CMD write while IDLE: acceptance (R37), from which the host must not access the command's sets until it
observes completion (R254). -/
def State.issue (s : State) (v : Word) : State :=
  { s.accept v with unobserved := s.unobserved ++ (s.accept v).runningSet }

/-- The plan of a decoded command: its checks and its access sets (R68, R218). -/
def State.plan (s : State) : Command → Plan
  | .sq z al  => s.bufferPlan (blockBytes z) al
  | .d8       => .nothing
  | .p8x4 al  => s.bufferPlan packedBytes al
  | .kxn z    => s.kxnPlan z
  | .nxk z    => s.nxkPlan z

end Sys2Proof.Machine
end

