-- ==== Sys2Proof/Machine/Butterfly.lean ====
section
/-! DEFINITION. The 8×8 butterfly network (R110 to R114) and the commands of 40_butterfly8.md (R115 to
R119). -/

namespace Sys2Proof.Machine

/-! ### Datapath -/

/-- R110 `BSTAGE(x, s, m)`: exchange bits p and p − s for every mask bit p. -/
def bstage {w : Nat} (x : BitVec w) (s : Nat) (m : BitVec w) : BitVec w :=
  let t := (x ^^^ (x <<< s)) &&& m
  x ^^^ t ^^^ (t >>> s)

/-- The right-shift form of a stage that R111 gives as an equivalent. -/
def bstageRight {w : Nat} (x : BitVec w) (s : Nat) (m : BitVec w) : BitVec w :=
  let t := (x ^^^ (x >>> s)) &&& m
  x ^^^ t ^^^ (t <<< s)

/-- The mask of the stage of block size 2 (R111). -/
def mask1 : Word := 0x5500550055005500

/-- The mask of the stage of block size 4 (R111). -/
def mask2 : Word := 0x3333000033330000

/-- The mask of the stage of block size 8 (R111). -/
def mask4 : Word := 0x0F0F0F0F00000000

/-- R112 `BFLY8(x)`: the three stages, shifts 7, 14 and 28. -/
def bfly8 (x : Word) : Word :=
  bstage (bstage (bstage x 7 mask1) 14 mask2) 28 mask4

/-- The three stages in the right-shift form, with the masks m_h >> s of R111. -/
def bfly8Right (x : Word) : Word :=
  bstageRight (bstageRight (bstageRight x 7 0x00AA00AA00AA00AA) 14 0x0000CCCC0000CCCC) 28 0x00000000F0F0F0F0

/-- Lane ℓ of a 256-bit lane vector: `V[64ℓ + 63 : 64ℓ]` (R114). -/
def lane (v : BitVec 256) (l : Nat) : Word := v.extractLsb' (64 * l) 64

/-- A lane vector from its four lanes, lane 0 lowest (R114). -/
def lanes4 (l0 l1 l2 l3 : Word) : BitVec 256 :=
  l0.setWidth 256 ||| (l1.setWidth 256 <<< 64) ||| (l2.setWidth 256 <<< 128) ||| (l3.setWidth 256 <<< 192)

/-- R114 `PBFLY8x4(V)`: the network on each of the four lanes. -/
def pbfly8x4 (v : BitVec 256) : BitVec 256 :=
  lanes4 (bfly8 (lane v 0)) (bfly8 (lane v 1)) (bfly8 (lane v 2)) (bfly8 (lane v 3))

/-- The same network as one full-width 256-bit pass with the masks replicated into every lane (R114). -/
def pbfly8x4Full (v : BitVec 256) : BitVec 256 :=
  bstage (bstage (bstage v 7 (lanes4 mask1 mask1 mask1 mask1)) 14 (lanes4 mask2 mask2 mask2 mask2)) 28
    (lanes4 mask4 mask4 mask4 mask4)

/-! ### Commands -/

/-- R116, R117: the 8 bytes at ARG0 as one word, through the network. -/
def State.word8Stores (s : State) : List Store :=
  let a := s.operands.arg0.toNat
  [(a, bytesOfNat 8 (bfly8 (BitVec.ofNat 64 (s.mem.readNat a 8))).toNat)]

/-- R118, R119: the 32 bytes at ARG0 as four lanes, through the packed network. -/
def State.packedStores (s : State) : List Store :=
  let a := s.operands.arg0.toNat
  [(a, bytesOfNat packedBytes (pbfly8x4 (BitVec.ofNat 256 (s.mem.readNat a packedBytes))).toNat)]

/-- `transpose_8x8_direct` (R115): DATA ← BFLY8(DATA), from the word latched at acceptance. -/
def execTranspose8x8Direct (s : State) : Host.Outcome State Fault Refusal :=
  .next { s.completeOk with data := bfly8 s.operands.data }

/-- `transpose_8x8` (R116). -/
def execTranspose8x8 (s : State) : Host.Outcome State Fault Refusal :=
  s.perform (s.bufferPlan 8 false) State.word8Stores

/-- `transpose_8x8_aligned` (R117). -/
def execTranspose8x8Aligned (s : State) : Host.Outcome State Fault Refusal :=
  s.perform (s.bufferPlan 8 true) State.word8Stores

/-- `transpose_8x8_packed_x4` (R118). -/
def execTranspose8x8PackedX4 (s : State) : Host.Outcome State Fault Refusal :=
  s.perform (s.bufferPlan packedBytes false) State.packedStores

/-- `transpose_8x8_packed_x4_aligned` (R119). -/
def execTranspose8x8PackedX4Aligned (s : State) : Host.Outcome State Fault Refusal :=
  s.perform (s.bufferPlan packedBytes true) State.packedStores

end Sys2Proof.Machine
end

