-- ==== Sys2Proof/Machine/Square.lean ====
section
/-! DEFINITION. The recursive quadrant permutation unit (R140 to R144) and the square commands of
41_square_recursive.md (R145 to R152). A matrix is the list of its row words, row 0 first (R9). -/

namespace Sys2Proof.Machine

/-! ### Datapath -/

/-- The low half of a row: bits h−1..0 (R140). -/
def lowHalf {h : Nat} (x : BitVec (h + h)) : BitVec h := x.extractLsb' 0 h

/-- The high half of a row: bits k−1..h (R140). -/
def highHalf {h : Nat} (x : BitVec (h + h)) : BitVec h := x.extractLsb' h h

/-- Four lanes (R141, R175). -/
structure Lanes (α : Type) where
  l0 : α
  l1 : α
  l2 : α
  l3 : α
  deriving DecidableEq, Repr

/-- The same operation on each lane. -/
def Lanes.map {α β : Type} (f : α → β) (l : Lanes α) : Lanes β :=
  { l0 := f l.l0, l1 := f l.l1, l2 := f l.l2, l3 := f l.l3 }

/-- The lanes as a list, lane 0 first. -/
def Lanes.toList {α : Type} (l : Lanes α) : List α := [l.l0, l.l1, l.l2, l.l3]

/-- Swap the two antidiagonal lanes (R141). -/
def Lanes.swapMiddle {α : Type} (l : Lanes α) : Lanes α := { l with l1 := l.l2, l2 := l.l1 }

/-- R140: the quadrants A, B, C, D of a matrix, one to a lane. -/
def quadrants {h : Nat} (m : List (BitVec (h + h))) : Lanes (List (BitVec h)) :=
  { l0 := (m.take h).map lowHalf
    l1 := (m.take h).map highHalf
    l2 := (m.drop h).map lowHalf
    l3 := (m.drop h).map highHalf }

/-- R141, the inverse interleave: row r is {L1[r], L0[r]} and row r + h is {L3[r], L2[r]}. -/
def joinQuadrants {h : Nat} (l : Lanes (List (BitVec h))) : List (BitVec (h + h)) :=
  List.zipWith (fun hi lo => hi ++ lo) l.l1 l.l0 ++ List.zipWith (fun hi lo => hi ++ lo) l.l3 l.l2

/-- The 8×8 matrix of 8 one-byte rows as a word: byte r is row r (R61). -/
def wordOfRows (m : List (BitVec 8)) : Word := BitVec.ofNat 64 (natOfBytes m)

/-- The 8 rows of an 8×8 matrix held in a word (R9, R61). -/
def rowsOfWord (w : Word) : List (BitVec 8) := bytesOfNat 8 w.toNat

/-- The 8×8 network on rows. -/
def bfly8Rows (m : List (BitVec 8)) : List (BitVec 8) := rowsOfWord (bfly8 (wordOfRows m))

/-- R141 `SQT(M, k)`, k = `dim n`: the recursion bottoms out at the 8×8 network (R142). -/
def sqt : (n : Nat) → List (BitVec (dim n)) → List (BitVec (dim n))
  | 0,     m => bfly8Rows m
  | n + 1, m => joinQuadrants ((quadrants (h := dim n) m).swapMiddle.map (sqt n))

/-- The packed network over four 8×8 lanes (R114, R143, R175). -/
def packedLanes (l : Lanes (List (BitVec 8))) : Lanes (List (BitVec 8)) :=
  let v := pbfly8x4 (lanes4 (wordOfRows l.l0) (wordOfRows l.l1) (wordOfRows l.l2) (wordOfRows l.l3))
  { l0 := rowsOfWord (lane v 0), l1 := rowsOfWord (lane v 1)
    l2 := rowsOfWord (lane v 2), l3 := rowsOfWord (lane v 3) }

/-- R143, the wide-vector engine: the four lanes of a level as one batch; at k = 16 the batch is the
packed network. -/
def sqtWide : (n : Nat) → List (BitVec (dim n)) → List (BitVec (dim n))
  | 0,     m => bfly8Rows m
  | 1,     m => joinQuadrants (packedLanes (quadrants (h := dim 0) m).swapMiddle)
  | n + 2, m => joinQuadrants ((quadrants (h := dim (n + 1)) m).swapMiddle.map (sqtWide (n + 1)))

/-- R9: the transposition of a matrix of w columns and h rows, bit i of new row j being bit j of row i.
`T_k` is the square case; R171 and R172 are the rectangular ones. -/
def transposeRows {w : Nat} (h : Nat) (m : List (BitVec w)) : List (BitVec h) :=
  (List.range w).map fun j => ofBools h (m.map (·.getLsbD j))

/-! ### Commands -/

/-- R61 `Row_k(a, i)` for i = 0 .. count − 1: the rows of width w bits, `bytes` bytes each, from a. -/
def Memory.rows (m : Memory) (a w bytes count : Nat) : List (BitVec w) :=
  (List.range count).map fun i => BitVec.ofNat w (m.readNat (a + i * bytes) bytes)

/-- The bytes of row words, row 0 first (R61). -/
def bytesOfRows {w : Nat} (bytes : Nat) (rows : List (BitVec w)) : List Byte :=
  rows.flatMap fun r => bytesOfNat bytes r.toNat

/-- SQCMD's data phase: the rows at ARG0 through SQT, written back in place. -/
def State.squareStores (z : Size) (s : State) : List Store :=
  let a := s.operands.arg0.toNat
  let rows := Memory.rows s.mem a (dim (level z)) (rowBytes z) (sizeBits z)
  [(a, bytesOfRows (rowBytes z) (sqt (level z) rows))]

/-- SQCMD(k, AL) of 41_square_recursive.md. -/
def State.squareCommand (s : State) (z : Size) (aligned : Bool) : Host.Outcome State Fault Refusal :=
  s.perform (s.bufferPlan (blockBytes z) aligned) (State.squareStores z)

/-- `transpose_16x16` (R145). -/
def execTranspose16x16 (s : State) : Host.Outcome State Fault Refusal := s.squareCommand .s16 false

/-- `transpose_16x16_aligned` (R146). -/
def execTranspose16x16Aligned (s : State) : Host.Outcome State Fault Refusal := s.squareCommand .s16 true

/-- `transpose_32x32` (R147). -/
def execTranspose32x32 (s : State) : Host.Outcome State Fault Refusal := s.squareCommand .s32 false

/-- `transpose_32x32_aligned` (R148). -/
def execTranspose32x32Aligned (s : State) : Host.Outcome State Fault Refusal := s.squareCommand .s32 true

/-- `transpose_64x64` (R149). -/
def execTranspose64x64 (s : State) : Host.Outcome State Fault Refusal := s.squareCommand .s64 false

/-- `transpose_64x64_aligned` (R150). -/
def execTranspose64x64Aligned (s : State) : Host.Outcome State Fault Refusal := s.squareCommand .s64 true

/-- `transpose_128x128` (R151). -/
def execTranspose128x128 (s : State) : Host.Outcome State Fault Refusal := s.squareCommand .s128 false

/-- `transpose_128x128_aligned` (R152). -/
def execTranspose128x128Aligned (s : State) : Host.Outcome State Fault Refusal := s.squareCommand .s128 true

end Sys2Proof.Machine
end

