-- ==== Sys2Proof/Machine/Rectangular.lean ====
section
/-! DEFINITION. The rectangular commands of 42_rectangular.md (R180 to R189), by rules R171 and R172
directly, as R177 says a model does. -/

namespace Sys2Proof.Machine

/-- R170: the k source strings of N·k bits, string j at P[j]. -/
def Memory.strings (m : Memory) (w bytes : Nat) (ps : List Word) : List (BitVec w) :=
  ps.map fun p => BitVec.ofNat w (m.readNat p.toNat bytes)

/-- RECT_KXN's data phase (R171): row t of the buffer at ARG0 has bit j equal to bit t of string j. -/
def State.kxnStores (z : Size) (s : State) : List Store :=
  let o := s.operands
  let n := blockCount o
  let ps := tableEntries s.mem o.arg1.toNat (sizeBits z)
  let strings := Memory.strings s.mem (n * sizeBits z) (stringBytes z n) ps
  [(o.arg0.toNat, bytesOfRows (rowBytes z) (transposeRows (sizeBits z) strings))]

/-- RECT_NXK's data phase (R172): bit t of the string at Q[j] is bit j of row t of the buffer at ARG1. -/
def State.nxkStores (z : Size) (s : State) : List Store :=
  let o := s.operands
  let n := blockCount o
  let qs := tableEntries s.mem o.arg0.toNat (sizeBits z)
  let rows := Memory.rows s.mem o.arg1.toNat (sizeBits z) (rowBytes z) (n * sizeBits z)
  List.zipWith (fun (q : Word) (str : BitVec (n * sizeBits z)) =>
      (q.toNat, bytesOfNat (stringBytes z n) str.toNat)) qs (transposeRows (n * sizeBits z) rows)

/-- RECT_KXN(k) of 42_rectangular.md. -/
def State.kxnCommand (s : State) (z : Size) : Host.Outcome State Fault Refusal :=
  s.perform (s.kxnPlan z) (State.kxnStores z)

/-- RECT_NXK(k) of 42_rectangular.md. -/
def State.nxkCommand (s : State) (z : Size) : Host.Outcome State Fault Refusal :=
  s.perform (s.nxkPlan z) (State.nxkStores z)

/-- `transpose_8xN` (R180). -/
def execTranspose8xN (s : State) : Host.Outcome State Fault Refusal := s.kxnCommand .s8

/-- `transpose_16xN` (R181). -/
def execTranspose16xN (s : State) : Host.Outcome State Fault Refusal := s.kxnCommand .s16

/-- `transpose_32xN` (R182). -/
def execTranspose32xN (s : State) : Host.Outcome State Fault Refusal := s.kxnCommand .s32

/-- `transpose_64xN` (R183). -/
def execTranspose64xN (s : State) : Host.Outcome State Fault Refusal := s.kxnCommand .s64

/-- `transpose_128xN` (R184). -/
def execTranspose128xN (s : State) : Host.Outcome State Fault Refusal := s.kxnCommand .s128

/-- `transpose_Nx8` (R185). -/
def execTransposeNx8 (s : State) : Host.Outcome State Fault Refusal := s.nxkCommand .s8

/-- `transpose_Nx16` (R186). -/
def execTransposeNx16 (s : State) : Host.Outcome State Fault Refusal := s.nxkCommand .s16

/-- `transpose_Nx32` (R187). -/
def execTransposeNx32 (s : State) : Host.Outcome State Fault Refusal := s.nxkCommand .s32

/-- `transpose_Nx64` (R188). -/
def execTransposeNx64 (s : State) : Host.Outcome State Fault Refusal := s.nxkCommand .s64

/-- `transpose_Nx128` (R189). -/
def execTransposeNx128 (s : State) : Host.Outcome State Fault Refusal := s.nxkCommand .s128

end Sys2Proof.Machine
end

