-- ==== Sys2Proof/Machine/Dispatch.lean ====
section
/-! DEFINITION. One arm per row of R99. -/

namespace Sys2Proof.Machine

def exec (i : Instr) (s : State) : Host.Outcome State Fault Refusal :=
  match i with
  -- 40_butterfly8.md and the 8×8 square commands
  | .transpose8x8 => Sys2Proof.Machine.execTranspose8x8 s
  | .transpose8x8Aligned => Sys2Proof.Machine.execTranspose8x8Aligned s
  -- 41_square_recursive.md
  | .transpose16x16 => Sys2Proof.Machine.execTranspose16x16 s
  | .transpose16x16Aligned => Sys2Proof.Machine.execTranspose16x16Aligned s
  | .transpose32x32 => Sys2Proof.Machine.execTranspose32x32 s
  | .transpose32x32Aligned => Sys2Proof.Machine.execTranspose32x32Aligned s
  | .transpose64x64 => Sys2Proof.Machine.execTranspose64x64 s
  | .transpose64x64Aligned => Sys2Proof.Machine.execTranspose64x64Aligned s
  | .transpose128x128 => Sys2Proof.Machine.execTranspose128x128 s
  | .transpose128x128Aligned => Sys2Proof.Machine.execTranspose128x128Aligned s
  -- 40_butterfly8.md
  | .transpose8x8Direct => Sys2Proof.Machine.execTranspose8x8Direct s
  | .transpose8x8PackedX4 => Sys2Proof.Machine.execTranspose8x8PackedX4 s
  | .transpose8x8PackedX4Aligned => Sys2Proof.Machine.execTranspose8x8PackedX4Aligned s
  -- 42_rectangular.md, k×N
  | .transpose8xN => Sys2Proof.Machine.execTranspose8xN s
  | .transpose16xN => Sys2Proof.Machine.execTranspose16xN s
  | .transpose32xN => Sys2Proof.Machine.execTranspose32xN s
  | .transpose64xN => Sys2Proof.Machine.execTranspose64xN s
  | .transpose128xN => Sys2Proof.Machine.execTranspose128xN s
  -- 42_rectangular.md, N×k
  | .transposeNx8 => Sys2Proof.Machine.execTransposeNx8 s
  | .transposeNx16 => Sys2Proof.Machine.execTransposeNx16 s
  | .transposeNx32 => Sys2Proof.Machine.execTransposeNx32 s
  | .transposeNx64 => Sys2Proof.Machine.execTransposeNx64 s
  | .transposeNx128 => Sys2Proof.Machine.execTransposeNx128 s

end Sys2Proof.Machine
end

