-- ==== Sys2Proof/Machine/Flags.lean ====
section
/-! DEFINITION. The registers as words (R22 to R24), the write-1-to-clear rule, CTRL's write-any-read-legal
rule, and the interrupt line (R223). The unit has no condition codes (R34). -/

namespace Sys2Proof.Machine

/-- The number of an error code (R211). -/
def ErrCode.code : ErrCode → BitVec 4
  | .none => 0 | .illegalCmd => 1 | .nRange => 2 | .misaligned => 3 | .addrRange => 4 | .busFault => 5

/-- A field of a register word: its value from bit `lo` up (R6). -/
def fieldAt {w : Nat} (v : BitVec w) (lo : Nat) : Word := v.setWidth 64 <<< lo

/-- A one-bit field. -/
def flagAt (b : Bool) (lo : Nat) : Word := fieldAt (BitVec.ofBool b) lo

/-- CAP (R22): `{ID_VALUE, 0x0000, 0x4, 0b000, HAS_VEC, 0b000, 0b11111}`. -/
def capWord (p : Platform) : Word :=
  fieldAt 31#5 0 ||| flagAt p.hasVec 8 ||| fieldAt 4#4 12 ||| fieldAt p.idValue 32

/-- CTRL as the host reads it (R23). -/
def Ctrl.word (c : Ctrl) : Word := flagAt c.eng 0 ||| flagAt c.ie 1

/-- A write of CTRL (R23): ENG is hardwired to 0 where HAS_VEC = 0, reserved bits are ignored. -/
def ctrlOfWrite (p : Platform) (v : Word) : Ctrl :=
  { eng := v.getLsbD 0 && p.hasVec, ie := v.getLsbD 1 }

/-- STATUS as the host reads it (R24). -/
def statusWord (busy : Bool) (t : Status) : Word :=
  flagAt busy 0 ||| flagAt t.done 1 ||| flagAt t.err 2 ||| flagAt t.drop 3 ||| fieldAt t.errCode.code 8

/-- A host write of v to STATUS (R24): v[1] clears DONE, v[3] clears DROP, v[2] clears ERR and ERRCODE. -/
def Status.clear (t : Status) (v : Word) : Status :=
  { done := t.done && !v.getLsbD 1
    err := t.err && !v.getLsbD 2
    drop := t.drop && !v.getLsbD 3
    errCode := if v.getLsbD 2 then .none else t.errCode }

/-- The interrupt line (R223): IE & (DONE | ERR). -/
def State.irq (s : State) : Bool := s.ctrl.ie && (s.status.done || s.status.err)

end Sys2Proof.Machine
end

