-- ==== Sys2Proof/Machine/Registers.lean ====
section
/-! DEFINITION. The register window (R21, R31) and the host's reads and writes of it (R38 to R41). -/

namespace Sys2Proof.Machine

/-- The registers of R21, and the reserved offsets. -/
inductive Reg where
  | cap | ctrl | status | cmd | arg0 | arg1 | arg2 | data | errAddr | reserved
  deriving DecidableEq, Repr

/-- The register at an offset of the window (R21). -/
def regAt (off : BitVec 8) : Reg :=
  match off.toNat with
  | 0x00 => .cap
  | 0x08 => .ctrl
  | 0x10 => .status
  | 0x18 => .cmd
  | 0x20 => .arg0
  | 0x28 => .arg1
  | 0x30 => .arg2
  | 0x38 => .data
  | 0x40 => .errAddr
  | _    => .reserved

/-- The value of a register (R38): CMD and reserved offsets read 0; DATA keeps the value held before
acceptance until completion writes it (R29). -/
def State.readReg (s : State) : Reg → Word
  | .cap      => capWord s.platform
  | .ctrl     => s.ctrl.word
  | .status   => statusWord s.busy s.status
  | .cmd      => 0
  | .arg0     => s.arg0
  | .arg1     => s.arg1
  | .arg2     => s.arg2
  | .data     => s.data
  | .errAddr  => s.errAddr
  | .reserved => 0

/-- R41: a write dropped because BUSY = 1 sets DROP and changes nothing else. -/
def State.dropWrite (s : State) : State := { s with status := { s.status with drop := true } }

/-- The effect of a write to a register of an IDLE unit (R39). -/
def State.writeRegIdle (s : State) (v : Word) : Reg → State
  | .cap      => s
  | .ctrl     => { s with ctrl := ctrlOfWrite s.platform v }
  | .status   => { s with status := s.status.clear v }
  | .cmd      => s.issue v
  | .arg0     => { s with arg0 := v }
  | .arg1     => { s with arg1 := v }
  | .arg2     => { s with arg2 := v }
  | .data     => { s with data := v }
  | .errAddr  => s
  | .reserved => s

/-- The effect of a write to a register while BUSY = 1 (R41): STATUS is honoured, read-only and reserved
offsets are ignored, every other write is dropped. -/
def State.writeRegBusy (s : State) (v : Word) : Reg → State
  | .cap      => s
  | .ctrl     => s.dropWrite
  | .status   => { s with status := s.status.clear v }
  | .cmd      => s.dropWrite
  | .arg0     => s.dropWrite
  | .arg1     => s.dropWrite
  | .arg2     => s.dropWrite
  | .data     => s.dropWrite
  | .errAddr  => s
  | .reserved => s

/-- A host write of v to a register (R39, R41). -/
def State.writeReg (s : State) (r : Reg) (v : Word) : State :=
  if s.busy then s.writeRegBusy v r else s.writeRegIdle v r

end Sys2Proof.Machine
end

