-- ==== Sys2Proof/Machine/HostMoves.lean ====
section
/-! DEFINITION. The host's move (R20, R38 to R41, R74, R96, R256) and the platform's reset (R250). -/

namespace Sys2Proof.Machine

/-- The plan of the running command; an illegal word reads and writes nothing (R94). -/
def State.runningPlan (s : State) : Plan :=
  match s.runningCommand with
  | some c => s.plan c
  | none   => .nothing

/-- R74, R254: the range shares a byte with the read or write set of a command whose completion the host has not
observed. -/
def State.races (s : State) (r : Range) : Bool := s.unobserved.any (overlaps r)

/-- Why a host access to a range of system memory has no meaning here: past the address space (R43), the
register window or a device reached as memory, or the race of R74. Where several apply, the order of these tests, with
non-coherence after them all (`hostLoad`, `hostStore`, `hostInvalidate`), is the model's: DESIGN CHOICE (log entry
25). -/
def State.hostStop (s : State) (r : Range) : Option Stop :=
  if !rangeOk r then some (.fault .outsideMemory)
  else if overlaps r (windowOf s.platform) || busHits s.platform .device [r] then some (.refuse .hostDeviceAccess)
  else if s.races r then some (.fault .hostRace)
  else none

/-- R76: a read of STATUS now would return BUSY = 0 with DONE or ERR = 1. -/
def State.completionVisible (s : State) : Bool := !s.busy && (s.status.done || s.status.err)

/-- The host has read STATUS. Where that observes a completion (R76), the sets of the commands up to it are the
host's again (R254). -/
def State.statusSeen (s : State) : State :=
  if s.completionVisible then { s with unobserved := [] } else s

/-- The host has read something. -/
def State.observe (s : State) (o : Observation) : State := { s with observed := s.observed ++ [o] }

/-- Some address of the list lies in the range. -/
def touches (as : List Nat) (r : Range) : Bool := as.any (inRange r)

/-- The addresses of the list outside the range. -/
def outside (as : List Nat) (r : Range) : List Nat := as.filter fun a => !inRange r a

/-- A host load: the bytes are recorded. A byte the unit wrote and the host has not invalidated is not
coherent (R256). -/
def State.hostLoad (s : State) (a : Word) (len : Nat) : Host.Outcome State Fault Refusal :=
  let r : Range := { base := a.toNat, len := len }
  match s.hostStop r with
  | some w => w.outcome
  | none   =>
    if touches s.stale r then .fault .notCoherent
    else .next (s.observe (.mem a (s.mem.read a.toNat len)))

/-- A host store, globally performed (R75); where the platform is not coherent the bytes wait to be
cleaned (R256). -/
def State.hostStore (s : State) (a : Word) (bs : List Byte) : Host.Outcome State Fault Refusal :=
  let r : Range := { base := a.toNat, len := bs.length }
  match s.hostStop r with
  | some w => w.outcome
  | none   =>
    if touches s.stale r then .fault .notCoherent
    else
      .next { s with
        mem := s.mem.write a.toNat bs
        dirty := if s.platform.coherent then s.dirty else s.dirty ++ addressesOf r }

/-- The host cleans its caches for a range (R256). -/
def State.hostClean (s : State) (a : Word) (len : Nat) : Host.Outcome State Fault Refusal :=
  let r : Range := { base := a.toNat, len := len }
  match s.hostStop r with
  | some w => w.outcome
  | none   => .next { s with dirty := outside s.dirty r }

/-- The host invalidates its caches for a range (R256). Invalidating bytes that were not cleaned would
lose them. -/
def State.hostInvalidate (s : State) (a : Word) (len : Nat) : Host.Outcome State Fault Refusal :=
  let r : Range := { base := a.toNat, len := len }
  match s.hostStop r with
  | some w => w.outcome
  | none   =>
    if touches s.dirty r then .fault .notCoherent
    else .next { s with stale := outside s.stale r }

/-- The host reads a register: the value is recorded (R38), and a read of STATUS may observe completion (R76). -/
def State.readBy (s : State) (off : BitVec 8) : State :=
  let t := s.observe (.reg off (s.readReg (regAt off)))
  if regAt off = .status then t.statusSeen else t

/-- A register read (R38, R40). -/
def State.hostRd (s : State) (off : BitVec 8) (width : Nat) : Host.Outcome State Fault Refusal :=
  if wholeRegister off width then .next (s.readBy off)
  else .refused .registerAccessWidth

/-- A register write (R39, R40, R41). -/
def State.hostWr (s : State) (off : BitVec 8) (width : Nat) (v : Word) : Host.Outcome State Fault Refusal :=
  if wholeRegister off width then .next (s.writeReg (regAt off) v)
  else .refused .registerAccessWidth

/-- One host operation. `wait` ends by reading BUSY = 0 (R96). -/
def State.hostOp (s : State) : HostOp → Host.Outcome State Fault Refusal
  | .rd off width       => s.hostRd off width
  | .wr off width v     => s.hostWr off width v
  | .wait               => .next (s.readBy 0x10)
  | .load a len         => s.hostLoad a len
  | .store a bs         => s.hostStore a bs
  | .clean a len        => s.hostClean a len
  | .invalidate a len   => s.hostInvalidate a len

/-- The host's move: its next operation. With none left nothing happens (R232, R251). A `wait` that reads
BUSY = 1 stays, to be repeated (R96). -/
def State.hostMove (s : State) : Host.Outcome State Fault Refusal :=
  match s.inputs with
  | []           => .next s
  | .wait :: ops => if s.busy then .next s else State.hostOp { s with inputs := ops } .wait
  | op :: ops    => State.hostOp { s with inputs := ops } op

/-- R250, R42: every register at its reset value, IDLE; memory, the platform and the model's own fields
kept. -/
def State.resetRegisters (s : State) : State :=
  { s with
    ctrl := { eng := false, ie := false }
    status := { done := false, err := false, drop := false, errCode := .none }
    arg0 := 0, arg1 := 0, arg2 := 0, data := 0, errAddr := 0
    latch := none }

/-- The unspecified bytes of an abandoned command's write set (R250): free values. -/
def abandonedStores (draw : Nat) (writes : List Range) : List Store :=
  writes.map fun r => (r.base, (addressesOf r).map (Config.abandonedByte draw))

/-- The reset input (R250). Of an IDLE unit it changes registers only. Of a BUSY unit it abandons the
command: every byte of its write set (R68) holds a free value, and the host's program ends (R262), with
nothing left to observe. A command whose accesses the model stops on stops here too (log entry 12). On a
non-coherent platform the whole write set is stale for the host until it invalidates it, as after a completion:
DESIGN CHOICE (log entry 24), since R79 and R256 speak of completion only. -/
def State.resetMove (s : State) : Host.Outcome State Fault Refusal :=
  if s.busy then
    match s.runningPlan with
    | .stop w _ => w.outcome
    | _         =>
      let writes := s.runningWriteSet.map inSpace
      .next { s.resetRegisters with
        mem := s.mem.writeAll (abandonedStores s.draw writes)
        stale := s.markStale writes
        unobserved := []
        inputs := [] }
  else .next s.resetRegisters

end Sys2Proof.Machine
end

