-- ==== Sys2Proof/Machine/Advance.lean ====
section
/-! DEFINITION. The unit's move (R218) and which agent moves next (R20, R224). -/

namespace Sys2Proof.Machine

/-- The unit's move: `Execute` of R218 on the latched word, to its completion. An IDLE unit does nothing
(R251). -/
def State.unitMove (s : State) : Host.Outcome State Fault Refusal :=
  match s.latch with
  | none   => .next s
  | some l =>
    match decode l.cmd with
    | .ok i    => exec i s
    | .error _ => .next (s.completeError .illegalCmd 0)

/-- A given turn. -/
def State.take (s : State) : Turn → Host.Outcome State Fault Refusal
  | .unit  => s.unitMove
  | .host  => s.hostMove
  | .reset => s.resetMove

/-- One move. A given turn is taken first. Otherwise an IDLE unit leaves the move to the host; a BUSY unit
moves if the host has nothing to do or waits (a poll that reads BUSY = 1 changes nothing, R96); and if
both can move, a free value says which (R224). -/
def State.advance (s : State) : Host.Outcome State Fault Refusal :=
  match s.turns with
  | t :: ts => State.take { s with turns := ts } t
  | []      =>
    if s.busy then
      match s.inputs with
      | []         => s.unitMove
      | .wait :: _ => s.unitMove
      | _ :: _     =>
        if Config.hostMovesFirst s.free then State.hostMove { s with free := s.free + 1 }
        else State.unitMove { s with free := s.free + 1 }
    else s.hostMove

/-- A command word placed for the unit as acceptance places it (R37), and the unit's turn. -/
def State.place (s : State) (v : Word) : State :=
  { s.issue v with turns := .unit :: s.turns }

end Sys2Proof.Machine
end

