-- ==== Sys2Proof/Machine/Step.lean ====
section
/-! DEFINITION. One step of the machine, and the state in which the next step runs a given command word. -/

namespace Sys2Proof.Machine

/-- One step: the host, the unit or the reset input moves (R20, R250). -/
def step (s : State) : Host.Outcome State Fault Refusal := s.advance

/-- The unit fetches no instructions (R33): a command word comes by a CMD write. This is the state that
acceptance of the word leaves (R37), with the unit to move next (log entry 3). -/
def State.withFetchWord (s : State) (nbits w : Nat) : State := s.place (tableWord nbits w)

end Sys2Proof.Machine
end

