-- ==== Sys2Proof/Machine/Assembler.lean ====
section
/-! DEFINITION. The host's assembler notation: mnemonics, their expansions into primitive operations and the
`_inplace` aliases (R96 to R98). -/

namespace Sys2Proof.Machine

/-- The offset of a register (R21). -/
def offsetOf : Reg → BitVec 8
  | .cap => 0x00 | .ctrl => 0x08 | .status => 0x10 | .cmd => 0x18
  | .arg0 => 0x20 | .arg1 => 0x28 | .arg2 => 0x30 | .data => 0x38
  | .errAddr => 0x40 | .reserved => 0x48

/-- `wr REG, v` (R96). -/
def wr (r : Reg) (v : Word) : HostOp := .wr (offsetOf r) 8 v

/-- `rd REG` (R96). -/
def rd (r : Reg) : HostOp := .rd (offsetOf r) 8

/-- A mnemonic with its operands, in the source's argument order (R97). -/
inductive Asm where
  /-- `transpose_<k>x<k>[_aligned] B`. -/
  | square (z : Size) (aligned : Bool) (buffer : Word)
  /-- `transpose_8x8_direct W`. -/
  | direct (word : Word)
  /-- `transpose_8x8_packed_x4[_aligned] B`. -/
  | packed (aligned : Bool) (buffer : Word)
  /-- `transpose_<k>xN D, P, N`. -/
  | kxn (z : Size) (dst srcTable n : Word)
  /-- `transpose_Nx<k> P, S, N`. -/
  | nxk (z : Size) (dstTable src n : Word)
  deriving DecidableEq, Repr

/-- `wr CMD, <code> ; wait`. -/
def issue (i : Instr) : List HostOp := [wr .cmd (encode i), .wait]

/-- R97: the primitive operations a mnemonic expands to. -/
def Asm.expand : Asm → List HostOp
  | .square z al b => wr .arg0 b :: issue (Command.sq z al).instr
  | .direct w      => wr .data w :: issue Command.d8.instr ++ [rd .data]
  | .packed al b   => wr .arg0 b :: issue (Command.p8x4 al).instr
  | .kxn z d p n   => wr .arg0 d :: wr .arg1 p :: wr .arg2 n :: issue (Command.kxn z).instr
  | .nxk z p s n   => wr .arg0 p :: wr .arg1 s :: wr .arg2 n :: issue (Command.nxk z).instr

/-- R96: a program's encoding, its register writes as (offset, value). -/
def encoding : List HostOp → List (BitVec 8 × Word)
  | []                  => []
  | .wr off _ v :: ops  => (off, v) :: encoding ops
  | .rd _ _ :: ops      => encoding ops
  | .wait :: ops        => encoding ops
  | .load _ _ :: ops    => encoding ops
  | .store _ _ :: ops   => encoding ops
  | .clean _ _ :: ops   => encoding ops
  | .invalidate _ _ :: ops => encoding ops

/-- The mnemonic of an instruction (R97, R99). -/
def mnemonic : Instr → String
  | .transpose8x8 => "transpose_8x8"
  | .transpose8x8Aligned => "transpose_8x8_aligned"
  | .transpose16x16 => "transpose_16x16"
  | .transpose16x16Aligned => "transpose_16x16_aligned"
  | .transpose32x32 => "transpose_32x32"
  | .transpose32x32Aligned => "transpose_32x32_aligned"
  | .transpose64x64 => "transpose_64x64"
  | .transpose64x64Aligned => "transpose_64x64_aligned"
  | .transpose128x128 => "transpose_128x128"
  | .transpose128x128Aligned => "transpose_128x128_aligned"
  | .transpose8x8Direct => "transpose_8x8_direct"
  | .transpose8x8PackedX4 => "transpose_8x8_packed_x4"
  | .transpose8x8PackedX4Aligned => "transpose_8x8_packed_x4_aligned"
  | .transpose8xN => "transpose_8xN"
  | .transpose16xN => "transpose_16xN"
  | .transpose32xN => "transpose_32xN"
  | .transpose64xN => "transpose_64xN"
  | .transpose128xN => "transpose_128xN"
  | .transposeNx8 => "transpose_Nx8"
  | .transposeNx16 => "transpose_Nx16"
  | .transposeNx32 => "transpose_Nx32"
  | .transposeNx64 => "transpose_Nx64"
  | .transposeNx128 => "transpose_Nx128"

/-- The `_inplace` spelling of an instruction, where it has one (R98). -/
def inplaceAlias : Instr → Option String
  | .transpose8x8 => some "transpose_8x8_inplace"
  | .transpose8x8Aligned => some "transpose_8x8_inplace_aligned"
  | .transpose16x16 => some "transpose_16x16_inplace"
  | .transpose16x16Aligned => some "transpose_16x16_inplace_aligned"
  | .transpose32x32 => some "transpose_32x32_inplace"
  | .transpose32x32Aligned => some "transpose_32x32_inplace_aligned"
  | .transpose64x64 => some "transpose_64x64_inplace"
  | .transpose64x64Aligned => some "transpose_64x64_inplace_aligned"
  | .transpose128x128 => some "transpose_128x128_inplace"
  | .transpose128x128Aligned => some "transpose_128x128_inplace_aligned"
  | .transpose8x8Direct => none
  | .transpose8x8PackedX4 => some "transpose_8x8_packed_x4_inplace"
  | .transpose8x8PackedX4Aligned => some "transpose_8x8_packed_x4_inplace_aligned"
  | .transpose8xN => none
  | .transpose16xN => none
  | .transpose32xN => none
  | .transpose64xN => none
  | .transpose128xN => none
  | .transposeNx8 => none
  | .transposeNx16 => none
  | .transposeNx32 => none
  | .transposeNx64 => none
  | .transposeNx128 => none

/-- The 23 instructions, in the order of R99. -/
def allInstrs : List Instr :=
  [.transpose8x8, .transpose8x8Aligned, .transpose16x16, .transpose16x16Aligned,
   .transpose32x32, .transpose32x32Aligned, .transpose64x64, .transpose64x64Aligned,
   .transpose128x128, .transpose128x128Aligned, .transpose8x8Direct,
   .transpose8x8PackedX4, .transpose8x8PackedX4Aligned,
   .transpose8xN, .transpose16xN, .transpose32xN, .transpose64xN, .transpose128xN,
   .transposeNx8, .transposeNx16, .transposeNx32, .transposeNx64, .transposeNx128]

/-- The command word a name assembles to, by its mnemonic or its `_inplace` alias (R97, R98). -/
def assembleName (name : String) : Option Word :=
  (allInstrs.find? fun i => mnemonic i == name || inplaceAlias i == some name).map encode

end Sys2Proof.Machine
end

