-- ==== Sys2Proof/Machine/Engine.lean ====
section
/-! DEFINITION. The block-transpose shuffle engine's two paths (R174 to R176): the super-block path of the
wide-vector engine and the one-by-one path. R177 says both write what R171 and R172 say and that a
model uses those rules directly; `exec` does, and these definitions are what its equivalence is stated
about. -/

namespace Sys2Proof.Machine

/-- R170: block i of the strings, G_i, whose row j is bits [i·k + k − 1 : i·k] of string j. -/
def gatherBlock (n : Nat) {w : Nat} (strings : List (BitVec w)) (i : Nat) : List (BitVec (dim n)) :=
  strings.map fun s => s.extractLsb' (i * dim n) (dim n)

/-- R172: block i of a contiguous buffer, B_i, k rows of the buffer's rows. -/
def bufferBlock (n : Nat) (rows : List (BitVec (dim n))) (i : Nat) : List (BitVec (dim n)) :=
  (rows.drop (i * dim n)).take (dim n)

/-- R175: the square kernel on each of the four lanes; PBFLY8x4 at k = 8. -/
def laneKernel : (n : Nat) → Lanes (List (BitVec (dim n))) → Lanes (List (BitVec (dim n)))
  | 0,     l => packedLanes l
  | n + 1, l => l.map (sqtWide (n + 1))

/-- R174: the number of super-blocks. -/
def superBlocks (count : Nat) : Nat := count / 4

/-- R174: the number of remainder blocks. -/
def remainderBlocks (count : Nat) : Nat := count % 4

/-- R176: every block through the one-by-one path. -/
def oneByOne (n count : Nat) (block : Nat → List (BitVec (dim n))) : List (List (BitVec (dim n))) :=
  (List.range count).map fun i => sqt n (block i)

/-- R175: super-block b, its blocks 4b to 4b + 3 transposed together. -/
def superBlock (n : Nat) (block : Nat → List (BitVec (dim n))) (b : Nat) : List (List (BitVec (dim n))) :=
  (laneKernel n { l0 := block (4 * b), l1 := block (4 * b + 1), l2 := block (4 * b + 2), l3 := block (4 * b + 3) }).toList

/-- R174: super-blocks, then the remainder one by one. -/
def batched (n count : Nat) (block : Nat → List (BitVec (dim n))) : List (List (BitVec (dim n))) :=
  (List.range (superBlocks count)).flatMap (superBlock n block) ++
  (List.range (remainderBlocks count)).map fun r => sqt n (block (4 * superBlocks count + r))

/-- The blocks an engine produces: ENG selects the path (R23, R174). -/
def engineBlocks (eng : Bool) (n count : Nat) (block : Nat → List (BitVec (dim n))) :
    List (List (BitVec (dim n))) :=
  if eng then batched n count block else oneByOne n count block

/-- k×N by blocks: the rows of the contiguous destination (R171, R175, R176). -/
def kxnByBlocks (eng : Bool) (n count : Nat) {w : Nat} (strings : List (BitVec w)) : List (BitVec (dim n)) :=
  (engineBlocks eng n count (gatherBlock n strings)).flatten

/-- The number whose k-bit digits, lowest first, are given. -/
def natOfDigits {k : Nat} : List (BitVec k) → Nat
  | []      => 0
  | d :: ds => d.toNat + 2 ^ k * natOfDigits ds

/-- N×k by blocks: string j is row j of each transposed block, block 0 lowest (R172). -/
def nxkByBlocks (eng : Bool) (n count : Nat) (rows : List (BitVec (dim n))) : List (BitVec (count * dim n)) :=
  let blocks := engineBlocks eng n count (bufferBlock n rows)
  (List.range (dim n)).map fun j =>
    BitVec.ofNat (count * dim n) (natOfDigits (blocks.map fun b => b.getD j 0))

end Sys2Proof.Machine
end

