-- ==== Sys2Proof/Safety.lean ====
section
/-! DEFINITION. What claims are stated in terms of: the invariant of the state, the readiness of a range for
the unit's accesses, and the end of a host program. -/

namespace Sys2Proof.Machine

/-- What the rules say of every state a run reaches. -/
structure State.Inv (s : State) : Prop where
  /-- Memory is in its canonical form. -/
  memWf : Memory.wf s.mem = true
  /-- At most one of DONE and ERR is 1 (R24). -/
  doneErr : ¬(s.status.done = true ∧ s.status.err = true)
  /-- ERRCODE is 0 while ERR = 0 (R24). -/
  errCodeNone : s.status.err = false → s.status.errCode = .none
  /-- A recorded error has a code (R211). -/
  errCodeSome : s.status.err = true → s.status.errCode ≠ .none
  /-- ENG is hardwired to 0 where HAS_VEC = 0 (R23). -/
  engHardwired : s.platform.hasVec = false → s.ctrl.eng = false
  /-- While BUSY, DONE and ERR are 0 and ERRADDR is 0 (R37). -/
  busyClear : s.busy = true → s.status.done = false ∧ s.status.err = false ∧ s.errAddr = 0
  /-- While BUSY, the operand registers hold what acceptance latched (R37, R41). -/
  latchHeld : ∀ l, s.latch = some l → l.ops = s.operandRegs
  /-- While BUSY, the sets of the running command are among those the host must not access (R74). -/
  runningGuarded : ∀ r ∈ s.runningSet, r ∈ s.unobserved
  /-- On a coherent platform there is nothing to clean or to invalidate (R79). -/
  coherentClean : s.platform.coherent = true → s.dirty = [] ∧ s.stale = []

/-- The unit's accesses to the ranges meet only normal memory that the bus answers, outside the register
window (R70, R216, R225, R260), coherent with the host's (R79). -/
abbrev State.clear (s : State) (rs : List Range) : Prop :=
  s.stopOn rs = none ∧ busHits s.platform .faulting rs = false ∧ busHits s.platform .silent rs = false

/-- Every byte outside the ranges reads in m' as it does in m. -/
def unchangedOutside (m m' : Memory) (rs : List Range) : Prop :=
  ∀ x, (∀ r ∈ rs, inRange r x = false) → Memory.byte m' x = Memory.byte m x

/-- The state after a command that wrote memory and completed without error (R220): BUSY ← 0, DONE ← 1,
memory m, the bytes written stale on a non-coherent platform, and nothing else changed. -/
def State.finished (s : State) (m : Memory) (writes : List Range) : State :=
  { s with latch := none, status := { s.status with done := true }, mem := m, stale := s.markStale writes }

/-- The state after a command that completed with an error (R219): BUSY ← 0, ERR ← 1, ERRCODE, ERRADDR, and
nothing else changed. -/
def State.failed (s : State) (code : ErrCode) (addr : Word) : State :=
  { s with latch := none, status := { s.status with err := true, errCode := code }, errAddr := addr }

/-- The row range of entry j of the pointer table at t, for N blocks (R68). -/
def rowRangeAt (m : Memory) (z : Size) (n t j : Nat) : Range :=
  { base := (tableEntry m t j).toNat, len := n * rowBytes z }

/-- The pointer table at t (R68). -/
def tableRange (z : Size) (t : Nat) : Range := { base := t, len := 8 * sizeBits z }

/-- The contiguous buffer at a of N blocks (R68). -/
def contiguousRange (z : Size) (n a : Nat) : Range := { base := a, len := n * blockBytes z }

/-- The operands of a rectangular command with N blocks, a table at t and a buffer at b are as R67, R72 and
R179 ask: aligned, inside the address space, rows disjoint, buffer disjoint from the rows. -/
abbrev State.rectOperandsOk (s : State) (z : Size) (n t b : Nat) : Prop :=
  0 < n ∧ n < 2 ^ 32 ∧ b % rowBytes z = 0 ∧ t % 8 = 0 ∧
  b + n * blockBytes z ≤ 2 ^ 64 ∧ t + 8 * sizeBits z ≤ 2 ^ 64 ∧
  (∀ j < sizeBits z, (tableEntry s.mem t j).toNat % rowBytes z = 0) ∧
  (∀ j < sizeBits z, (tableEntry s.mem t j).toNat + n * rowBytes z ≤ 2 ^ 64) ∧
  (∀ i < sizeBits z, ∀ j < i, overlaps (rowRangeAt s.mem z n t j) (rowRangeAt s.mem z n t i) = false) ∧
  (∀ j < sizeBits z, overlaps (contiguousRange z n b) (rowRangeAt s.mem z n t j) = false)

/-- Everything a rectangular command with N blocks, a table at t and a buffer at b accesses (R68). -/
def State.rectRanges (s : State) (z : Size) (n t b : Nat) : List Range :=
  tableRange z t :: contiguousRange z n b :: (List.range (sizeBits z)).map (rowRangeAt s.mem z n t)

/-- R68, the table's write column: r is a range of the write set of a command with operands o over memory m, as
R68 gives it whether or not the checks of R218 let the command write. N is ARG2[31:0] (log entry 13); table bytes
past the address space read 0 (log entry 23). -/
def inWriteSet (m : Memory) (o : OperandRegs) (c : Command) (r : Range) : Prop :=
  let n := o.arg2.toNat % 2 ^ 32
  match c with
  | .d8     => False
  | .sq z _ => r = { base := o.arg0.toNat, len := sizeBits z * sizeBits z / 8 }
  | .p8x4 _ => r = { base := o.arg0.toNat, len := 32 }
  | .kxn z  => r = { base := o.arg0.toNat, len := n * sizeBits z * sizeBits z / 8 }
  | .nxk z  => ∃ j < sizeBits z, r = { base := (tableEntry m o.arg0.toNat j).toNat, len := n * sizeBits z / 8 }

/-- R68, both columns: r is a range of the read or write set of a command with operands o over memory m.
N is ARG2[31:0] (log entry 13); table bytes past the address space read 0 (log entry 23). -/
def inAccessSet (m : Memory) (o : OperandRegs) (c : Command) (r : Range) : Prop :=
  let n := o.arg2.toNat % 2 ^ 32
  match c with
  | .d8     => False
  | .sq z _ => r = { base := o.arg0.toNat, len := sizeBits z * sizeBits z / 8 }
  | .p8x4 _ => r = { base := o.arg0.toNat, len := 32 }
  | .kxn z  =>
    0 < n ∧ (r = { base := o.arg1.toNat, len := 8 * sizeBits z } ∨
      r = { base := o.arg0.toNat, len := n * sizeBits z * sizeBits z / 8 } ∨
      ∃ j < sizeBits z, r = { base := (tableEntry m o.arg1.toNat j).toNat, len := n * sizeBits z / 8 })
  | .nxk z  =>
    0 < n ∧ (r = { base := o.arg0.toNat, len := 8 * sizeBits z } ∨
      r = { base := o.arg1.toNat, len := n * sizeBits z * sizeBits z / 8 } ∨
      ∃ j < sizeBits z, r = { base := (tableEntry m o.arg0.toNat j).toNat, len := n * sizeBits z / 8 })

/-- No turn is given, the unit is BUSY and the host has an operation other than a wait: either can move (R224), and
the free value `Config.hostMovesFirst` says which (log entry 5). -/
def State.eitherNext (s : State) : Prop :=
  s.turns = [] ∧ s.busy = true ∧ ∃ op ops, s.inputs = op :: ops ∧ op ≠ .wait

/-- The host moves next, from u: its turn is given; or no turn is given and the unit is IDLE; or either can move and
the free value says the host. These are all the schedules in which it moves (log entry 5). u is s but for the
turn taken or the free value drawn. -/
def State.hostNext (s u : State) : Prop :=
  (∃ ts, s.turns = .host :: ts ∧ u = { s with turns := ts }) ∨
  (s.turns = [] ∧ s.latch = none ∧ u = s) ∨
  (s.eitherNext ∧ Config.hostMovesFirst s.free = true ∧ u = { s with free := s.free + 1 })

/-- The unit moves next, from u: its turn is given; or no turn is given, it is BUSY and the host has nothing to do or
waits; or either can move and the free value says the unit. These are all the schedules in which it moves (log
entry 5). -/
def State.unitNext (s u : State) : Prop :=
  (∃ ts, s.turns = .unit :: ts ∧ u = { s with turns := ts }) ∨
  (s.turns = [] ∧ s.busy = true ∧ (s.inputs = [] ∨ ∃ ops, s.inputs = .wait :: ops) ∧ u = s) ∨
  (s.eitherNext ∧ Config.hostMovesFirst s.free = false ∧ u = { s with free := s.free + 1 })

/-- R262: a host program has ended when its last primitive is done and the unit is IDLE. -/
abbrev State.ended (s : State) : Prop := s.inputs = [] ∧ s.busy = false

end Sys2Proof.Machine
end

