-- ==== Sys2Proof/Certificates/Slice0/Obligations.lean ====
section
/-! DEFINITION. What is claimed of the machine, rule by rule of the spec. -/

open Sys2Proof Sys2Proof.Machine

/-! ### Encoding -/

/-- R99: the complete set of legal words, each with the command it is; every other word decodes to none. -/
def Obligations.LegalWordsAreExactlyTheTable : Prop :=
  ∀ (v : Word) (i : Instr), decode v = .ok i ↔ (v, i) ∈
    [(0x01, .transpose8x8), (0x81, .transpose8x8Aligned), (0x11, .transpose16x16), (0x91, .transpose16x16Aligned),
     (0x21, .transpose32x32), (0xA1, .transpose32x32Aligned), (0x31, .transpose64x64),
     (0xB1, .transpose64x64Aligned), (0x41, .transpose128x128), (0xC1, .transpose128x128Aligned),
     (0x02, .transpose8x8Direct), (0x03, .transpose8x8PackedX4), (0x83, .transpose8x8PackedX4Aligned),
     (0x04, .transpose8xN), (0x14, .transpose16xN), (0x24, .transpose32xN), (0x34, .transpose64xN),
     (0x44, .transpose128xN), (0x05, .transposeNx8), (0x15, .transposeNx16), (0x25, .transposeNx32),
     (0x35, .transposeNx64), (0x45, .transposeNx128)]

/-- Decode and encode agree on every word: a word decodes to an instruction exactly when it is that
instruction's word, which is `OPC | SZ << 4 | AL << 7` of a legal combination (R93, R95). -/
def Obligations.DecodeInvertsEncode : Prop :=
  ∀ (v : Word) (i : Instr),
    (decode v = .ok i ↔ v = encode i) ∧
    (decode v = .ok i → (fieldsOf v).legal = true ∧
      v = (v.extractLsb' 0 4).setWidth 64 ||| ((v.extractLsb' 4 3).setWidth 64 <<< 4) |||
        ((v.extractLsb' 7 1).setWidth 64 <<< 7)) ∧
    ((fieldsOf v).legal = true → ∃ j, decode v = .ok j)

/-- Words written out bit by bit from R90 and R91 decode to the command they stand for: one of each class. That a
word is laid out in 8 bytes, least significant first, is the model's choice (log entry 20). -/
def Obligations.SampleWordsDecode : Prop :=
  decodeBytes [0b10100001, 0, 0, 0, 0, 0, 0, 0] = .ok (.transpose32x32Aligned, []) ∧
  decodeBytes [0b00000010, 0, 0, 0, 0, 0, 0, 0] = .ok (.transpose8x8Direct, []) ∧
  decodeBytes [0b10000011, 0, 0, 0, 0, 0, 0, 0] = .ok (.transpose8x8PackedX4Aligned, []) ∧
  decodeBytes [0b01000100, 0, 0, 0, 0, 0, 0, 0] = .ok (.transpose128xN, []) ∧
  decodeBytes [0b00010101, 0, 0, 0, 0, 0, 0, 0] = .ok (.transposeNx16, [])

/-- R97: what each mnemonic assembles to, as (offset, value) register writes, whatever the operands. -/
def Obligations.MnemonicsExpandToRegisterWrites : Prop :=
  ∀ (z : Size) (al : Bool) (a b n : Word),
    encoding (Asm.square z al a).expand = [(0x20, a), (0x18, encode (Command.sq z al).instr)] ∧
    encoding (Asm.direct a).expand = [(0x38, a), (0x18, 0x02)] ∧
    encoding (Asm.packed al a).expand = [(0x20, a), (0x18, encode (Command.p8x4 al).instr)] ∧
    encoding (Asm.kxn z a b n).expand = [(0x20, a), (0x28, b), (0x30, n), (0x18, encode (Command.kxn z).instr)] ∧
    encoding (Asm.nxk z a b n).expand = [(0x20, a), (0x28, b), (0x30, n), (0x18, encode (Command.nxk z).instr)]

/-! ### Steps, acceptance, registers -/

/-- When the unit is BUSY with a word that decodes and the unit moves, the step is `exec` of the decoded command. The
schedules are those of `State.unitNext` (log entry 5): its turn is given; or no turn is given and the host has
nothing to do or waits; or it has another operation and the free value says the unit. -/
def Obligations.StepRunsTheLatchedCommand : Prop :=
  ∀ (s u : State) (l : Latch) (i : Instr),
    s.latch = some l → decode l.cmd = .ok i → s.unitNext u → step s = exec i u

/-- R94, R212: every word that is not one of the 23 completes with ILLEGAL_CMD and ERRADDR = 0, and changes nothing
else, in each schedule in which the unit moves: its turn is given; or no turn is given and the host has nothing to
do or waits; or it has another operation and the free value says the unit. The schedules are the model's choice
(log entry 5). -/
def Obligations.IllegalWordCompletesWithError : Prop :=
  ∀ (s : State) (l : Latch) (u : State), s.latch = some l → (∀ i, l.cmd ≠ encode i) → s.unitNext u →
    step s = .next { u with
      latch := none, status := { s.status with err := true, errCode := .illegalCmd }, errAddr := 0 }

/-- R37, acceptance: a CMD write of any value while IDLE, in each schedule in which the host moves (log entry 5). From
then on the read and write sets of R68 of the command written are among those the host must not access (R74, R254,
log entries 13, 22 and 23). -/
def Obligations.CmdWriteIsAccepted : Prop :=
  ∀ (s : State) (v : Word) (ops : List HostOp) (u : State),
    s.latch = none → s.hostNext u → s.inputs = .wr 0x18 8 v :: ops →
    step s = .next { u with
      inputs := ops
      latch := some { cmd := v, ops := { arg0 := s.arg0, arg1 := s.arg1, arg2 := s.arg2, data := s.data }, draw := s.free }
      status := { done := false, err := false, drop := s.status.drop, errCode := .none }
      errAddr := 0
      unobserved := (s.issue v).unobserved
      free := s.free + 1 } ∧
    ∀ r, r ∈ (s.issue v).unobserved ↔
      r ∈ s.unobserved ∨ ∃ i, decode v = .ok i ∧ inAccessSet s.mem s.operandRegs i.command r

/-- R41: register writes while BUSY, in each schedule in which the host moves (log entry 5). CTRL, CMD, ARG0 to ARG2
and DATA are dropped and set DROP; STATUS is honoured (R24); CAP, ERRADDR and reserved offsets are ignored. -/
def Obligations.BusyWritesAreDropped : Prop :=
  ∀ (s : State) (l : Latch) (off : BitVec 8) (v : Word) (ops : List HostOp) (u : State),
    s.latch = some l → off.toNat % 8 = 0 → s.hostNext u → s.inputs = .wr off 8 v :: ops →
    step s = .next
      (if off ∈ [0x08, 0x18, 0x20, 0x28, 0x30, 0x38] then
        { u with inputs := ops, status := { s.status with drop := true } }
      else if off = 0x10 then
        { u with
          inputs := ops
          status :=
            { done := s.status.done && !v.getLsbD 1
              err := s.status.err && !v.getLsbD 2
              drop := s.status.drop && !v.getLsbD 3
              errCode := if v.getLsbD 2 then .none else s.status.errCode } }
      else { u with inputs := ops })

/-- R39: register writes while IDLE, in each schedule in which the host moves (log entry 5). CTRL keeps ENG 0 where
HAS_VEC = 0 (R23); STATUS is write-1-to-clear (R24); CMD issues a command (R37; `CmdWriteIsAccepted` says what
`issue` adds to the unobserved sets, log entry 22); CAP, ERRADDR and reserved offsets are ignored. -/
def Obligations.IdleWritesTakeEffect : Prop :=
  ∀ (s : State) (off : BitVec 8) (v : Word) (ops : List HostOp) (u : State),
    s.latch = none → off.toNat % 8 = 0 → s.hostNext u → s.inputs = .wr off 8 v :: ops →
    step s = .next
      (if off = 0x18 then
        { u with
          inputs := ops
          latch := some { cmd := v, ops := { arg0 := s.arg0, arg1 := s.arg1, arg2 := s.arg2, data := s.data }, draw := s.free }
          status := { done := false, err := false, drop := s.status.drop, errCode := .none }
          errAddr := 0
          unobserved := (s.issue v).unobserved
          free := s.free + 1 }
      else if off = 0x08 then
        { u with inputs := ops, ctrl := { eng := v.getLsbD 0 && s.platform.hasVec, ie := v.getLsbD 1 } }
      else if off = 0x10 then
        { u with
          inputs := ops
          status :=
            { done := s.status.done && !v.getLsbD 1
              err := s.status.err && !v.getLsbD 2
              drop := s.status.drop && !v.getLsbD 3
              errCode := if v.getLsbD 2 then .none else s.status.errCode } }
      else if off = 0x20 then { u with inputs := ops, arg0 := v }
      else if off = 0x28 then { u with inputs := ops, arg1 := v }
      else if off = 0x30 then { u with inputs := ops, arg2 := v }
      else if off = 0x38 then { u with inputs := ops, data := v }
      else { u with inputs := ops })

/-- R38, R31, R25: a register read has no side effect on the unit, in either of its states and in each schedule in
which the host moves (log entry 5); CMD and reserved offsets read 0. What the host has read, and the sets it must leave
alone until it has observed completion, are the model's own records (log entries 4 and 22): a read of STATUS that
returns BUSY = 0 with DONE or ERR = 1 is the observation of R76. -/
def Obligations.ReadsHaveNoSideEffect : Prop :=
  ∀ (s : State) (off : BitVec 8) (ops : List HostOp) (u : State),
    off.toNat % 8 = 0 → s.hostNext u → s.inputs = .rd off 8 :: ops →
    ∃ v : Word,
      step s = .next { u with
        inputs := ops
        observed := s.observed ++ [.reg off v]
        unobserved :=
          if off = 0x10 ∧ s.latch = none ∧ (s.status.done || s.status.err) = true then [] else s.unobserved } ∧
      (off = 0x18 → v = 0) ∧ (off.toNat > 0x40 → v = 0) ∧
      (off = 0x20 → v = s.arg0) ∧ (off = 0x28 → v = s.arg1) ∧ (off = 0x30 → v = s.arg2) ∧
      (off = 0x38 → v = s.data) ∧ (off = 0x40 → v = s.errAddr) ∧
      (off = 0x00 → v = capWord s.platform) ∧ (off = 0x08 → v = s.ctrl.word) ∧
      (off = 0x10 → v = statusWord s.busy s.status)

/-- R96: a `wait` whose poll reads BUSY = 1 is to be repeated and changes nothing (such polls are not recorded, log
entry 5); one that reads BUSY = 0 ends, as a read of STATUS (R76, log entry 22). With no turn given a BUSY unit
moves before the poll of a wait. -/
def Obligations.WaitPollsUntilIdle : Prop :=
  ∀ (s : State) (ops : List HostOp) (u : State),
    s.hostNext u → s.inputs = .wait :: ops →
    (s.busy = true → step s = .next u) ∧
    (s.busy = false →
      step s = .next { u with
        inputs := ops
        observed := s.observed ++ [.reg 0x10 (statusWord false s.status)]
        unobserved := if (s.status.done || s.status.err) = true then [] else s.unobserved })

/-- R22: the fields of CAP; it reads its constant in every state, and writes to it are ignored. -/
def Obligations.CapFields : Prop :=
  ∀ p : Platform,
    (capWord p).extractLsb' 0 5 = 0b11111 ∧ (capWord p).extractLsb' 5 3 = 0 ∧
    (capWord p).getLsbD 8 = p.hasVec ∧ (capWord p).extractLsb' 9 3 = 0 ∧
    (capWord p).extractLsb' 12 4 = 4 ∧ (capWord p).extractLsb' 16 16 = 0 ∧
    (capWord p).extractLsb' 32 32 = p.idValue ∧
    (capWord p).extractLsb' 0 32 = (if p.hasVec then 0x0000411F else 0x0000401F) ∧
    ∀ (s : State) (v : Word), s.platform = p → s.readReg (regAt 0x00) = capWord p ∧ s.writeReg (regAt 0x00) v = s

/-- R24, R23, R211: where the fields of STATUS and CTRL stand in the words the host reads. -/
def Obligations.StatusAndCtrlFields : Prop :=
  ∀ (b : Bool) (t : Status) (c : Ctrl),
    (statusWord b t).getLsbD 0 = b ∧ (statusWord b t).getLsbD 1 = t.done ∧
    (statusWord b t).getLsbD 2 = t.err ∧ (statusWord b t).getLsbD 3 = t.drop ∧
    (statusWord b t).extractLsb' 4 4 = 0 ∧
    (statusWord b t).extractLsb' 8 4 =
      (match t.errCode with
        | .none => 0 | .illegalCmd => 1 | .nRange => 2 | .misaligned => 3 | .addrRange => 4 | .busFault => 5) ∧
    (statusWord b t).extractLsb' 12 52 = 0 ∧
    c.word.getLsbD 0 = c.eng ∧ c.word.getLsbD 1 = c.ie ∧ c.word.extractLsb' 2 62 = 0

/-- R40: a register access that is not a naturally aligned 8-byte access is refused, reading or writing, in each
schedule in which the host moves (log entry 5). That alignment is judged by the offset in the window is the
model's choice (log entry 21). -/
def Obligations.SubwordRegisterAccessIsRefused : Prop :=
  ∀ (s : State) (off : BitVec 8) (width : Nat) (v : Word) (ops : List HostOp) (u : State),
    ¬(width = 8 ∧ off.toNat % 8 = 0) → s.hostNext u →
    (s.inputs = .rd off width :: ops → step s = .refused .registerAccessWidth) ∧
    (s.inputs = .wr off width v :: ops → step s = .refused .registerAccessWidth)

/-- R223: irq = IE & (DONE | ERR), in terms of the words the host reads; it is deasserted by a W1C write that
clears DONE and ERR, by CTRL.IE ← 0, and by acceptance. -/
def Obligations.InterruptLine : Prop :=
  ∀ (s : State) (v : Word),
    s.irq = (s.ctrl.word.getLsbD 1 &&
      ((statusWord s.busy s.status).getLsbD 1 || (statusWord s.busy s.status).getLsbD 2)) ∧
    (v.getLsbD 1 = true → v.getLsbD 2 = true → (s.writeReg .status v).irq = false) ∧
    (s.busy = false → v.getLsbD 1 = false → (s.writeReg .ctrl v).irq = false) ∧
    (s.busy = false → (s.writeReg .cmd v).irq = false)

/-- R224: both orders of a completion and a host operation are behaviours of the machine. Which one is taken is the
model's choice (log entry 5): with no turn given, a BUSY unit and a host operation other than a wait pending, the
step is what the host's turn or the unit's turn would give, as a free value says. With a write of a dropped kind
pending, the write before completion is dropped, and the write after the command's own step has the effect of a
write to an IDLE unit. -/
def Obligations.HostWriteAndCompletionInEitherOrder : Prop :=
  (∀ (s : State) (l : Latch) (op : HostOp) (ops : List HostOp),
    s.latch = some l → s.turns = [] → s.inputs = op :: ops → op ≠ .wait →
    step s = step { s with
      turns := [if Config.hostMovesFirst s.free then .host else .unit]
      free := s.free + 1 }) ∧
  (∀ (s : State) (l : Latch) (i : Instr) (v : Word) (ops : List HostOp) (t : State),
    ∀ off ∈ [(0x08 : BitVec 8), 0x18, 0x20, 0x28, 0x30, 0x38],
    s.latch = some l → decode l.cmd = .ok i → s.inputs = .wr off 8 v :: ops → s.turns = [] →
    exec i s = .next t → t.latch = none →
    step { s with turns := [.host] } =
      .next { s with inputs := ops, status := { s.status with drop := true } } ∧
    ∃ u, step { s with turns := [.unit, .host] } = .next u ∧
      step u = .next (State.writeRegIdle { t with inputs := ops } v (regAt off)))

/-! ### Reset and rest -/

/-- R42: the state after reset, in the registers as the host reads them. -/
def Obligations.ResetRegisterValues : Prop :=
  State.reset.readReg .ctrl = 0 ∧ State.reset.readReg .status = 0 ∧ State.reset.readReg .cmd = 0 ∧
  State.reset.readReg .arg0 = 0 ∧ State.reset.readReg .arg1 = 0 ∧ State.reset.readReg .arg2 = 0 ∧
  State.reset.readReg .data = 0 ∧ State.reset.readReg .errAddr = 0 ∧
  State.reset.busy = false ∧ State.reset.irq = false

/-- R251, R232, R262: an IDLE unit executes nothing until the host writes CMD: a program that has ended stays as it
is where no turn is given, and the unit's own turn changes nothing. -/
def Obligations.IdleUnitDoesNothing : Prop :=
  ∀ s : State,
    (s.ended → s.turns = [] → step s = .next s) ∧
    (∀ ts, s.busy = false → s.turns = .unit :: ts → step s = .next { s with turns := ts })

/-- R250, R42: the reset input. Every register takes its reset value, the unit is IDLE with irq deasserted
and no completion recorded; the platform is unchanged; memory is unchanged outside the write set (R68) of an
abandoned command, and all of it if the unit was IDLE. That the machine goes on after a reset during BUSY, and
stops there for a command it would stop on, is the model's choice (log entry 12); so is that on a non-coherent
platform the abandoned write set is stale for the host (log entry 24), and table bytes past the address space read
0 (log entry 23). -/
def Obligations.ResetInput : Prop :=
  ∀ (s t : State) (ts : List Turn), s.turns = .reset :: ts → step s = .next t →
    t.ctrl = { eng := false, ie := false } ∧
    t.status = { done := false, err := false, drop := false, errCode := .none } ∧
    t.arg0 = 0 ∧ t.arg1 = 0 ∧ t.arg2 = 0 ∧ t.data = 0 ∧ t.errAddr = 0 ∧ t.latch = none ∧ t.irq = false ∧
    t.platform = s.platform ∧
    (∀ x, (∀ l i r, s.latch = some l → decode l.cmd = .ok i → inWriteSet s.mem l.ops i.command r →
        inRange r x = false) → Memory.byte t.mem x = Memory.byte s.mem x) ∧
    (s.latch = none → t.mem = s.mem) ∧ t.dirty = s.dirty ∧
    (∀ x, x ∈ t.stale ↔ x ∈ s.stale ∨ (s.platform.coherent = false ∧ x < 2 ^ 64 ∧
      ∃ l i r, s.latch = some l ∧ decode l.cmd = .ok i ∧ inWriteSet s.mem l.ops i.command r ∧ inRange r x = true))

/-- R250, log entry 12: the reset input ends IDLE in a next state, where the unit is IDLE or the command it abandons is
one the model does not stop on. That a reset while BUSY goes on, and stops there for a command the model would
stop on, is the model's choice (log entry 12). -/
def Obligations.ResetInputCompletes : Prop :=
  ∀ (s : State) (ts : List Turn), s.turns = .reset :: ts →
    (∀ w rs, s.runningPlan ≠ .stop w rs) → ∃ t, step s = .next t ∧ t.busy = false

/-! ### The 8×8 network -/

/-- R110: a stage exchanges bits p and p − s for every mask bit p and leaves every other bit, where no
position is both. -/
def Obligations.StageExchangesBitPairs : Prop :=
  ∀ (w : Nat) (x m : BitVec w) (s : Nat), 0 < s →
    (∀ p, m.getLsbD p = true → s ≤ p) → (∀ p, m.getLsbD p = true → m.getLsbD (p + s) = false) →
    ∀ p < w, (bstage x s m).getLsbD p =
      if m.getLsbD p then x.getLsbD (p - s)
      else if m.getLsbD (p + s) then x.getLsbD (p + s)
      else x.getLsbD p

/-- R111: the three masks are those of the rule: bit 8·r + c of m_h is set iff (r mod 2h) ≥ h and
(c mod 2h) < h. -/
def Obligations.StageMasksFollowTheRule : Prop :=
  ∀ p ∈ [(1, mask1), (2, mask2), (4, mask4)], ∀ r < 8, ∀ c < 8,
    (p.2 : Word).getLsbD (8 * r + c) = (decide (r % (2 * p.1) ≥ p.1) && decide (c % (2 * p.1) < p.1))

/-- R112: BFLY8(x) = T8(x) for every 64-bit x. -/
def Obligations.ButterflyIsTransposition : Prop :=
  ∀ (x : Word), ∀ r < 8, ∀ c < 8, (bfly8 x).getLsbD (8 * r + c) = x.getLsbD (8 * c + r)

/-- R111: the right-shift form of the network is equivalent. -/
def Obligations.RightShiftFormIsEquivalent : Prop :=
  ∀ x : Word, bfly8Right x = bfly8 x

/-- R114: each lane of the packed network is the 8×8 network on that lane, and one full-width pass with the
masks replicated gives the same, so nothing crosses a lane. -/
def Obligations.PackedLanesAreIndependent : Prop :=
  ∀ v : BitVec 256, (∀ l < 4, lane (pbfly8x4 v) l = bfly8 (lane v l)) ∧ pbfly8x4Full v = pbfly8x4 v

/-! ### The quadrant unit and the shuffle engine -/

/-- R141: SQT(M, k) = T_k(M) at every level of the recursion: row i, column j of the result is row j, column
i of the matrix. -/
def Obligations.QuadrantRecursionIsTransposition : Prop :=
  ∀ (n : Nat) (m : List (BitVec (dim n))), m.length = dim n →
    (sqt n m).length = dim n ∧
    ∀ i < dim n, ∀ j < dim n, ((sqt n m).getD i 0).getLsbD j = (m.getD j 0).getLsbD i

/-- R143: the wide-vector mode of the quadrant unit computes SQT exactly. -/
def Obligations.SquareEnginesAgree : Prop :=
  ∀ (n : Nat) (m : List (BitVec (dim n))), m.length = dim n → sqtWide n m = sqt n m

/-- R177, R174 to R176: for every block count and either engine, the super-block and remainder paths write
what R171 (k×N) and R172 (N×k) say, which is what the commands write. -/
def Obligations.ShufflePathsAgreeWithTheRules : Prop :=
  ∀ (eng : Bool) (n count : Nat),
    (∀ strings : List (BitVec (count * dim n)), strings.length = dim n →
      kxnByBlocks eng n count strings = transposeRows (dim n) strings) ∧
    (∀ rows : List (BitVec (dim n)), rows.length = count * dim n →
      nxkByBlocks eng n count rows = transposeRows (count * dim n) rows)

/-- R3, R23: ENG changes no result of any command: with ENG written otherwise the outcome is the same, but
for ENG itself. -/
def Obligations.EngineChangesNoResult : Prop :=
  ∀ (i : Instr) (s : State) (b : Bool),
    exec i { s with ctrl := { s.ctrl with eng := b } } =
      match exec i s with
      | .next t    => .next { t with ctrl := { t.ctrl with eng := b } }
      | .fault f   => .fault f
      | .refused r => .refused r

/-! ### Results of the commands -/

/-- R115: `transpose_8x8_direct` completes in every state, writes the transposition of the latched DATA to
DATA, and changes nothing else. -/
def Obligations.DirectCommandTransposesData : Prop :=
  ∀ s : State, ∃ d : Word,
    exec .transpose8x8Direct s =
      .next { s with latch := none, status := { s.status with done := true }, data := d } ∧
    ∀ r < 8, ∀ c < 8, d.getLsbD (8 * r + c) = s.operands.data.getLsbD (8 * c + r)

/-- R116, R117: the in-place 8×8 commands, at every buffer inside the address space (32-byte aligned for
`_aligned`) whose accesses the platform answers: the 8 bytes at ARG0 are transposed, every other byte is
unchanged, and nothing else changes but BUSY and DONE. -/
def Obligations.EightByEightCommandsTranspose : Prop :=
  ∀ (s : State), ∀ p ∈ [(Instr.transpose8x8, false), (.transpose8x8Aligned, true)],
    let a := s.operands.arg0.toNat
    let buf : Range := { base := a, len := 8 }
    a + 8 ≤ 2 ^ 64 → (p.2 = true → a % 32 = 0) → s.clear [buf] →
    ∃ m, exec p.1 s = .next (s.finished m [buf]) ∧
      (∀ r < 8, ∀ c < 8, Memory.bit m a (8 * r + c) = Memory.bit s.mem a (8 * c + r)) ∧
      unchangedOutside s.mem m [buf]

/-- R118, R119: the packed commands transpose each of the four words at ARG0 on its own. -/
def Obligations.PackedCommandsTransposeEachWord : Prop :=
  ∀ (s : State), ∀ p ∈ [(Instr.transpose8x8PackedX4, false), (.transpose8x8PackedX4Aligned, true)],
    let a := s.operands.arg0.toNat
    let buf : Range := { base := a, len := 32 }
    a + 32 ≤ 2 ^ 64 → (p.2 = true → a % 32 = 0) → s.clear [buf] →
    ∃ m, exec p.1 s = .next (s.finished m [buf]) ∧
      (∀ l < 4, ∀ r < 8, ∀ c < 8,
        Memory.bit m (a + 8 * l) (8 * r + c) = Memory.bit s.mem (a + 8 * l) (8 * c + r)) ∧
      unchangedOutside s.mem m [buf]

/-- R145 to R152: the eight square commands of sizes 16 to 128: the k²/8 bytes at ARG0 hold T_k of what they
held, every other byte is unchanged, and nothing else changes but BUSY and DONE. -/
def Obligations.SquareCommandsTranspose : Prop :=
  ∀ (s : State), ∀ p ∈ [(Instr.transpose16x16, 16, false), (.transpose16x16Aligned, 16, true),
      (.transpose32x32, 32, false), (.transpose32x32Aligned, 32, true),
      (.transpose64x64, 64, false), (.transpose64x64Aligned, 64, true),
      (.transpose128x128, 128, false), (.transpose128x128Aligned, 128, true)],
    let k := p.2.1
    let a := s.operands.arg0.toNat
    let buf : Range := { base := a, len := k * k / 8 }
    a + k * k / 8 ≤ 2 ^ 64 → (p.2.2 = true → a % 32 = 0) → s.clear [buf] →
    ∃ m, exec p.1 s = .next (s.finished m [buf]) ∧
      (∀ i < k, ∀ j < k, Memory.bit m a (i * k + j) = Memory.bit s.mem a (j * k + i)) ∧
      unchangedOutside s.mem m [buf]

/-- R171, R180 to R184: `transpose_<k>xN`: bit j of row t of the buffer at ARG0 is bit t of source string j,
every byte outside the buffer is unchanged, and nothing else changes but BUSY and DONE. -/
def Obligations.KxnCommandsTranspose : Prop :=
  ∀ (s : State), ∀ p ∈ [(Instr.transpose8xN, Size.s8), (.transpose16xN, .s16), (.transpose32xN, .s32),
      (.transpose64xN, .s64), (.transpose128xN, .s128)],
    let k := sizeBits p.2
    let n := s.operands.arg2.toNat
    let d := s.operands.arg0.toNat
    let t := s.operands.arg1.toNat
    s.rectOperandsOk p.2 n t d → overlaps (tableRange p.2 t) (contiguousRange p.2 n d) = false →
    s.clear (s.rectRanges p.2 n t d) →
    ∃ m, exec p.1 s = .next (s.finished m [contiguousRange p.2 n d]) ∧
      (∀ u < n * k, ∀ j < k,
        Memory.bit m d (u * k + j) = Memory.bit s.mem (tableEntry s.mem t j).toNat u) ∧
      unchangedOutside s.mem m [contiguousRange p.2 n d]

/-- R172, R185 to R189: `transpose_Nx<k>`: bit u of destination string j is bit j of row u of the buffer at
ARG1, every byte outside the k strings is unchanged, and nothing else changes but BUSY and DONE. -/
def Obligations.NxkCommandsTranspose : Prop :=
  ∀ (s : State), ∀ p ∈ [(Instr.transposeNx8, Size.s8), (.transposeNx16, .s16), (.transposeNx32, .s32),
      (.transposeNx64, .s64), (.transposeNx128, .s128)],
    let k := sizeBits p.2
    let n := s.operands.arg2.toNat
    let t := s.operands.arg0.toNat
    let b := s.operands.arg1.toNat
    let rows := (List.range k).map (rowRangeAt s.mem p.2 n t)
    s.rectOperandsOk p.2 n t b →
    (∀ j < k, overlaps (tableRange p.2 t) (rowRangeAt s.mem p.2 n t j) = false) →
    s.clear (s.rectRanges p.2 n t b) →
    ∃ m, exec p.1 s = .next (s.finished m rows) ∧
      (∀ u < n * k, ∀ j < k,
        Memory.bit m (tableEntry s.mem t j).toNat u = Memory.bit s.mem b (u * k + j)) ∧
      unchangedOutside s.mem m rows

/-- R178: a rectangular command with ARG2 = 0 completes with DONE in every state and accesses nothing, whatever
ARG0 and ARG1 are; with only ARG2[31:0] = 0 it raises N_RANGE. -/
def Obligations.ZeroBlocksIsANoOp : Prop :=
  ∀ (s : State), ∀ i ∈ [Instr.transpose8xN, .transpose16xN, .transpose32xN, .transpose64xN, .transpose128xN,
      .transposeNx8, .transposeNx16, .transposeNx32, .transposeNx64, .transposeNx128],
    (s.operands.arg2 = 0 →
      exec i s = .next { s with latch := none, status := { s.status with done := true } } ∧
      (s.plan i.command).touched = []) ∧
    (s.operands.arg2.extractLsb' 0 32 = 0 → s.operands.arg2.extractLsb' 32 32 ≠ 0 →
      exec i s = .next (s.failed .nRange 0))

/-! ### Errors -/

/-- R66, R214 (a): an `_aligned` command whose ARG0 is not a multiple of 32 completes with MISALIGNED and
ERRADDR = ARG0, and accesses no memory. -/
def Obligations.MisalignedBufferIsAnError : Prop :=
  ∀ (s : State), ∀ i ∈ [Instr.transpose8x8Aligned, .transpose16x16Aligned, .transpose32x32Aligned,
      .transpose64x64Aligned, .transpose128x128Aligned, .transpose8x8PackedX4Aligned],
    s.operands.arg0.toNat % 32 ≠ 0 →
    exec i s = .next (s.failed .misaligned s.operands.arg0) ∧ (s.plan i.command).touched = []

/-- R66: on an aligned buffer the `_aligned` command and the plain one give the same outcome. -/
def Obligations.AlignedAndPlainAgree : Prop :=
  ∀ (s : State), ∀ p ∈ [(Instr.transpose8x8Aligned, Instr.transpose8x8), (.transpose16x16Aligned, .transpose16x16),
      (.transpose32x32Aligned, .transpose32x32), (.transpose64x64Aligned, .transpose64x64),
      (.transpose128x128Aligned, .transpose128x128), (.transpose8x8PackedX4Aligned, .transpose8x8PackedX4)],
    s.operands.arg0.toNat % 32 = 0 → exec p.1 s = exec p.2 s

/-- R72, R215: a square or packed command whose buffer passes 2^64 (and is aligned where that is asked)
completes with ADDR_RANGE and ERRADDR = ARG0, and accesses no memory. An `_aligned` buffer of 8 or of 32
bytes cannot pass 2^64, so those three commands are not listed. -/
def Obligations.WrappingBufferIsAnError : Prop :=
  ∀ (s : State), ∀ p ∈ [(Instr.transpose8x8, 8, false), (.transpose16x16, 32, false),
      (.transpose32x32, 128, false), (.transpose32x32Aligned, 128, true),
      (.transpose64x64, 512, false), (.transpose64x64Aligned, 512, true),
      (.transpose128x128, 2048, false), (.transpose128x128Aligned, 2048, true),
      (.transpose8x8PackedX4, 32, false)],
    (p.2.2 = true → s.operands.arg0.toNat % 32 = 0) → s.operands.arg0.toNat + p.2.1 > 2 ^ 64 →
    exec p.1 s = .next (s.failed .addrRange s.operands.arg0) ∧ (s.plan p.1.command).touched = []

/-- R213: a rectangular command with ARG2[63:32] ≠ 0 completes with N_RANGE and ERRADDR = 0, and accesses no
memory, whatever ARG2[31:0] and the other operands are. -/
def Obligations.BlockCountOutOfRangeIsAnError : Prop :=
  ∀ (s : State), ∀ i ∈ [Instr.transpose8xN, .transpose16xN, .transpose32xN, .transpose64xN, .transpose128xN,
      .transposeNx8, .transposeNx16, .transposeNx32, .transposeNx64, .transposeNx128],
    s.operands.arg2.toNat ≥ 2 ^ 32 →
    exec i s = .next (s.failed .nRange 0) ∧ (s.plan i.command).touched = []

/-- R218 checks 4 and 5, R214 (b), (c), R215: with N ≥ 1, MISALIGNED on ARG0 then ARG1, then ADDR_RANGE on
ARG0 then ARG1, before any memory access. ARG0 is the buffer of a k×N and the table of an N×k. -/
def Obligations.RectangularOperandChecksInOrder : Prop :=
  ∀ (s : State) (z : Size),
    let o := s.operands
    let n := o.arg2.toNat
    let l := n * blockBytes z
    0 < n → n < 2 ^ 32 →
    ∀ p ∈ [((Command.kxn z).instr, rowBytes z, l, 8, 8 * sizeBits z),
        ((Command.nxk z).instr, 8, 8 * sizeBits z, rowBytes z, l)],
      let plan := s.plan p.1.command
      (o.arg0.toNat % p.2.1 ≠ 0 →
        exec p.1 s = .next (s.failed .misaligned o.arg0) ∧ plan.touched = []) ∧
      (o.arg0.toNat % p.2.1 = 0 → o.arg1.toNat % p.2.2.2.1 ≠ 0 →
        exec p.1 s = .next (s.failed .misaligned o.arg1) ∧ plan.touched = []) ∧
      (o.arg0.toNat % p.2.1 = 0 → o.arg1.toNat % p.2.2.2.1 = 0 → o.arg0.toNat + p.2.2.1 > 2 ^ 64 →
        exec p.1 s = .next (s.failed .addrRange o.arg0) ∧ plan.touched = []) ∧
      (o.arg0.toNat % p.2.1 = 0 → o.arg1.toNat % p.2.2.2.1 = 0 → o.arg0.toNat + p.2.2.1 ≤ 2 ^ 64 →
        o.arg1.toNat + p.2.2.2.2 > 2 ^ 64 →
        exec p.1 s = .next (s.failed .addrRange o.arg1) ∧ plan.touched = [])

/-- R218 check 7, R214 (d), R215: with the operand checks passed and the table readable, the first entry that
is misaligned or whose row passes 2^64 is reported, after the table is read and before any data access. -/
def Obligations.FirstBadTableEntryIsReported : Prop :=
  ∀ (s : State) (z : Size) (j : Nat),
    let n := s.operands.arg2.toNat
    let E := rowBytes z
    0 < n → n < 2 ^ 32 → j < sizeBits z →
    ∀ p ∈ [((Command.kxn z).instr, s.operands.arg1.toNat, s.operands.arg0.toNat),
        ((Command.nxk z).instr, s.operands.arg0.toNat, s.operands.arg1.toNat)],
      let t := p.2.1
      let b := p.2.2
      let entry := fun i => tableEntry s.mem t i
      b % E = 0 → t % 8 = 0 → b + n * blockBytes z ≤ 2 ^ 64 → t + 8 * sizeBits z ≤ 2 ^ 64 →
      s.clear [tableRange z t] →
      (∀ i < j, (entry i).toNat % E = 0 ∧ (entry i).toNat + n * E ≤ 2 ^ 64) →
      ((entry j).toNat % E ≠ 0 →
        exec p.1 s = .next (s.failed .misaligned (entry j)) ∧
        (s.plan p.1.command).touched = [tableRange z t]) ∧
      ((entry j).toNat % E = 0 → (entry j).toNat + n * E > 2 ^ 64 →
        exec p.1 s = .next (s.failed .addrRange (entry j)) ∧
        (s.plan p.1.command).touched = [tableRange z t])

/-- R216, R218 check 6: with the operand checks passed, a bus error on the table read completes with BUS_FAULT
and an address inside the table, and memory is unchanged. Which address is a free value. -/
def Obligations.TableBusErrorIsReported : Prop :=
  ∀ (s : State) (z : Size),
    let n := s.operands.arg2.toNat
    0 < n → n < 2 ^ 32 →
    ∀ p ∈ [((Command.kxn z).instr, s.operands.arg1.toNat, s.operands.arg0.toNat),
        ((Command.nxk z).instr, s.operands.arg0.toNat, s.operands.arg1.toNat)],
      let t := p.2.1
      let b := p.2.2
      b % rowBytes z = 0 → t % 8 = 0 → b + n * blockBytes z ≤ 2 ^ 64 → t + 8 * sizeBits z ≤ 2 ^ 64 →
      s.stopOn [tableRange z t] = none →
      busHits s.platform .faulting [tableRange z t] = true →
      busHits s.platform .silent [tableRange z t] = false →
      ∃ a : Word, inRange (tableRange z t) a.toNat = true ∧ exec p.1 s = .next (s.failed .busFault a)

/-- R260: an access that the bus never answers leaves the unit BUSY and the state as it is, stated from the operands:
the data phase of a square or packed command; the table read of a rectangular command; and its data phase. Where
the table meets both a silent and a faulting address, either comes first (log entry 8). -/
def Obligations.UnansweredAccessLeavesTheUnitStuck : Prop :=
  (∀ (s : State), ∀ p ∈ [(Instr.transpose8x8, 8, false), (.transpose8x8Aligned, 8, true),
      (.transpose16x16, 32, false), (.transpose16x16Aligned, 32, true),
      (.transpose32x32, 128, false), (.transpose32x32Aligned, 128, true),
      (.transpose64x64, 512, false), (.transpose64x64Aligned, 512, true),
      (.transpose128x128, 2048, false), (.transpose128x128Aligned, 2048, true),
      (.transpose8x8PackedX4, 32, false), (.transpose8x8PackedX4Aligned, 32, true)],
    let a := s.operands.arg0.toNat
    let buf : Range := { base := a, len := p.2.1 }
    (p.2.2 = true → a % 32 = 0) → a + p.2.1 ≤ 2 ^ 64 → s.stopOn [buf] = none →
    busHits s.platform .faulting [buf] = false → busHits s.platform .silent [buf] = true →
    exec p.1 s = .next s) ∧
  (∀ (s : State) (z : Size),
    let n := s.operands.arg2.toNat
    0 < n → n < 2 ^ 32 →
    ∀ p ∈ [((Command.kxn z).instr, s.operands.arg1.toNat, s.operands.arg0.toNat, true),
        ((Command.nxk z).instr, s.operands.arg0.toNat, s.operands.arg1.toNat, false)],
      let t := p.2.1
      let b := p.2.2.1
      let table := tableRange z t
      let rs := s.rectRanges z n t b
      b % rowBytes z = 0 → t % 8 = 0 → b + n * blockBytes z ≤ 2 ^ 64 → t + 8 * sizeBits z ≤ 2 ^ 64 →
      (s.stopOn [table] = none → busHits s.platform .silent [table] = true →
        busHits s.platform .faulting [table] = false → exec p.1 s = .next s) ∧
      (s.stopOn [table] = none → busHits s.platform .silent [table] = true →
        busHits s.platform .faulting [table] = true →
        exec p.1 s = .next s ∨
          ∃ a : Word, inRange table a.toNat = true ∧ exec p.1 s = .next (s.failed .busFault a)) ∧
      (s.rectOperandsOk z n t b →
        (p.2.2.2 = true → overlaps table (contiguousRange z n b) = false) →
        (p.2.2.2 = false → ∀ j < sizeBits z, overlaps table (rowRangeAt s.mem z n t j) = false) →
        s.stopOn rs = none → busHits s.platform .faulting rs = false → busHits s.platform .silent rs = true →
        exec p.1 s = .next s))

/-- R225, R70, R216: what the model stops on in a square or packed command, at every buffer that passes the
checks: device memory is refused, the register window is a fault, then memory not made coherent, then a
data-phase bus error. The order among them is the model's choice (log entry 10), and so is that a data phase which
meets both a faulting and a silent address faults (log entry 8). -/
def Obligations.BufferViolationsStop : Prop :=
  ∀ (s : State), ∀ p ∈ [(Instr.transpose8x8, 8, false), (.transpose8x8Aligned, 8, true),
      (.transpose16x16, 32, false), (.transpose16x16Aligned, 32, true),
      (.transpose32x32, 128, false), (.transpose32x32Aligned, 128, true),
      (.transpose64x64, 512, false), (.transpose64x64Aligned, 512, true),
      (.transpose128x128, 2048, false), (.transpose128x128Aligned, 2048, true),
      (.transpose8x8PackedX4, 32, false), (.transpose8x8PackedX4Aligned, 32, true)],
    let a := s.operands.arg0.toNat
    let buf : Range := { base := a, len := p.2.1 }
    (p.2.2 = true → a % 32 = 0) → a + p.2.1 ≤ 2 ^ 64 →
    (busHits s.platform .device [buf] = true → exec p.1 s = .refused .deviceMemory) ∧
    (busHits s.platform .device [buf] = false → overlaps buf (windowOf s.platform) = true →
      exec p.1 s = .fault .registerWindowOverlap) ∧
    (busHits s.platform .device [buf] = false → overlaps buf (windowOf s.platform) = false →
      s.platform.coherent = false → (∃ x ∈ s.dirty, inRange buf x = true) →
      exec p.1 s = .fault .notCoherent) ∧
    (s.stopOn [buf] = none → busHits s.platform .faulting [buf] = true →
      exec p.1 s = .fault .dataPhaseBusFault)

/-- R225 (a), (b), R179: a rectangular command that passes every check, on memory the platform answers, but
whose rows overlap one another, or its buffer a row, or its table what it writes, is a fault of the run. -/
def Obligations.OverlappingRectangularRangesFault : Prop :=
  ∀ (s : State) (z : Size),
    let n := s.operands.arg2.toNat
    let k := sizeBits z
    0 < n → n < 2 ^ 32 →
    ∀ p ∈ [((Command.kxn z).instr, s.operands.arg1.toNat, s.operands.arg0.toNat, true),
        ((Command.nxk z).instr, s.operands.arg0.toNat, s.operands.arg1.toNat, false)],
      let t := p.2.1
      let b := p.2.2.1
      let row := fun j => rowRangeAt s.mem z n t j
      b % rowBytes z = 0 → t % 8 = 0 → b + n * blockBytes z ≤ 2 ^ 64 → t + 8 * k ≤ 2 ^ 64 →
      (∀ j < k, (row j).base % rowBytes z = 0 ∧ (row j).base + n * rowBytes z ≤ 2 ^ 64) →
      s.clear (s.rectRanges z n t b) →
      ((∃ i < k, ∃ j < i, overlaps (row j) (row i) = true) ∨
        (∃ j < k, overlaps (contiguousRange z n b) (row j) = true) ∨
        (p.2.2.2 = true ∧ overlaps (tableRange z t) (contiguousRange z n b) = true) ∨
        (p.2.2.2 = false ∧ ∃ j < k, overlaps (tableRange z t) (row j) = true)) →
      exec p.1 s = .fault .overlappingRanges

/-- R225 (c), (d), (f), R70, R216: what the model stops on in a rectangular command whose operand checks pass. On its
pointer table, before any entry is looked at; and, its table being readable, its entries good and its ranges
disjoint as R225 (a), (b) ask, in its data phase: device memory is refused, the register window is a fault, then
memory not made coherent, then a data-phase bus error. The order among them is the model's choice (log entry
10), and so is that a data phase which meets both a faulting and a silent address faults (log entry 8). -/
def Obligations.RectangularViolationsStop : Prop :=
  ∀ (s : State) (z : Size),
    let n := s.operands.arg2.toNat
    0 < n → n < 2 ^ 32 →
    ∀ p ∈ [((Command.kxn z).instr, s.operands.arg1.toNat, s.operands.arg0.toNat, true),
        ((Command.nxk z).instr, s.operands.arg0.toNat, s.operands.arg1.toNat, false)],
      let t := p.2.1
      let b := p.2.2.1
      let table := tableRange z t
      let rs := s.rectRanges z n t b
      b % rowBytes z = 0 → t % 8 = 0 → b + n * blockBytes z ≤ 2 ^ 64 → t + 8 * sizeBits z ≤ 2 ^ 64 →
      ((busHits s.platform .device [table] = true → exec p.1 s = .refused .deviceMemory) ∧
        (busHits s.platform .device [table] = false → overlaps table (windowOf s.platform) = true →
          exec p.1 s = .fault .registerWindowOverlap) ∧
        (busHits s.platform .device [table] = false → overlaps table (windowOf s.platform) = false →
          s.platform.coherent = false → (∃ x ∈ s.dirty, inRange table x = true) →
          exec p.1 s = .fault .notCoherent)) ∧
      (s.rectOperandsOk z n t b →
        (p.2.2.2 = true → overlaps table (contiguousRange z n b) = false) →
        (p.2.2.2 = false → ∀ j < sizeBits z, overlaps table (rowRangeAt s.mem z n t j) = false) →
        s.clear [table] →
        (busHits s.platform .device rs = true → exec p.1 s = .refused .deviceMemory) ∧
        (busHits s.platform .device rs = false → rs.any (overlaps (windowOf s.platform)) = true →
          exec p.1 s = .fault .registerWindowOverlap) ∧
        (busHits s.platform .device rs = false → rs.any (overlaps (windowOf s.platform)) = false →
          s.platform.coherent = false → (∃ x ∈ s.dirty, ∃ r ∈ rs, inRange r x = true) →
          exec p.1 s = .fault .notCoherent) ∧
        (s.stopOn rs = none → busHits s.platform .faulting rs = true → exec p.1 s = .fault .dataPhaseBusFault))

/-- R74, R254: a host load, store, clean or invalidate of any byte of a set it must leave alone is a fault of the run,
in each schedule in which the host moves (log entry 5), the unit BUSY or IDLE (log entry 22); and in a state that meets
the invariant, the read and write sets of the running command, as R68 gives them whether or not the command's checks
let it access them (log entries 13 and 23), are among those sets. That cache operations count as accesses is log
entry 13; that the race is reported where a byte is not coherent too is log entry 25. -/
def Obligations.HostAccessToRunningSetsIsARace : Prop :=
  (∀ (s u : State) (a : Word) (bs : List Byte) (ops : List HostOp) (r : Range),
    let q : Range := { base := a.toNat, len := bs.length }
    s.hostNext u → r ∈ s.unobserved → a.toNat + bs.length ≤ 2 ^ 64 → overlaps q r = true →
    overlaps q (windowOf s.platform) = false → busHits s.platform .device [q] = false →
    (s.inputs = .load a bs.length :: ops → step s = .fault .hostRace) ∧
    (s.inputs = .store a bs :: ops → step s = .fault .hostRace) ∧
    (s.inputs = .clean a bs.length :: ops → step s = .fault .hostRace) ∧
    (s.inputs = .invalidate a bs.length :: ops → step s = .fault .hostRace)) ∧
  (∀ (s : State) (l : Latch) (i : Instr) (r : Range),
    s.Inv → s.latch = some l → decode l.cmd = .ok i → inAccessSet s.mem l.ops i.command r → r ∈ s.unobserved)

/-- R254, R76: a set the host must leave alone stays so in every step but two: a read of STATUS that returns BUSY = 0
with DONE or ERR = 1, which empties them; and a reset of a BUSY unit, after which no completion comes and the
program has ended (log entry 22). -/
def Obligations.SetsAreGuardedUntilObserved : Prop :=
  ∀ s t : State, step s = .next t →
    (∀ r ∈ s.unobserved, r ∈ t.unobserved) ∨
    (t.unobserved = [] ∧ ∃ w : Word, t.observed = s.observed ++ [.reg 0x10 w] ∧
      w.getLsbD 0 = false ∧ (w.getLsbD 1 || w.getLsbD 2) = true) ∨
    (t.unobserved = [] ∧ s.busy = true ∧ ∃ ts, s.turns = .reset :: ts)

/-- R20, R76: a host load off the sets it must leave alone, of memory that is no device, in each schedule in which the
host moves (log entry 5): where no byte is stale it records the bytes that stand at its addresses and changes nothing
else; where one is, it is a fault (R225 (f), R256). An invalidate there makes exactly its addresses not stale, and
is a fault where one waits to be cleaned. The byte-by-byte record of coherence is log entry 15; that regions which
fault or stay silent for the unit are plain memory for the host is log entry 16 (both the model's choice). -/
def Obligations.HostLoadReadsMemory : Prop :=
  ∀ (s u : State) (a : Word) (n : Nat) (ops : List HostOp),
    let q : Range := { base := a.toNat, len := n }
    s.hostNext u → a.toNat + n ≤ 2 ^ 64 →
    overlaps q (windowOf s.platform) = false → busHits s.platform .device [q] = false →
    (∀ r ∈ s.unobserved, overlaps q r = false) →
    (s.inputs = .load a n :: ops →
      ((∀ x ∈ s.stale, inRange q x = false) →
        ∃ bs : List Byte, bs.length = n ∧ (∀ i < n, bs.getD i 0 = Memory.byte s.mem (a.toNat + i)) ∧
          step s = .next { u with inputs := ops, observed := s.observed ++ [.mem a bs] }) ∧
      ((∃ x ∈ s.stale, inRange q x = true) → step s = .fault .notCoherent)) ∧
    (s.inputs = .invalidate a n :: ops →
      ((∀ x ∈ s.dirty, inRange q x = false) →
        ∃ l : List Nat, (∀ x, x ∈ l ↔ x ∈ s.stale ∧ inRange q x = false) ∧
          step s = .next { u with inputs := ops, stale := l }) ∧
      ((∃ x ∈ s.dirty, inRange q x = true) → step s = .fault .notCoherent))

/-- R20, R75: a host store off the sets it must leave alone, of memory that is no device, in each schedule in which the
host moves (log entry 5): where no byte is stale it puts the bytes at their addresses, lowest first, and leaves every
other byte and every register alone, and its addresses wait to be cleaned exactly where COHERENT is false; where a
byte is stale, it is a fault (R225 (f), R256). A clean makes exactly its addresses wait no more. The byte-by-byte
record of coherence is log entry 15; that a listed store is performed at once, and that regions which fault or stay
silent for the unit are plain memory for the host, are log entries 14 and 16 (all the model's choice). -/
def Obligations.HostStoreWritesItsBytes : Prop :=
  ∀ (s u : State) (a : Word) (ops : List HostOp), s.hostNext u →
    (∀ bs : List Byte,
      let q : Range := { base := a.toNat, len := bs.length }
      s.inputs = .store a bs :: ops → a.toNat + bs.length ≤ 2 ^ 64 →
      overlaps q (windowOf s.platform) = false → busHits s.platform .device [q] = false →
      (∀ r ∈ s.unobserved, overlaps q r = false) →
      ((∀ x ∈ s.stale, inRange q x = false) →
        ∃ m d, step s = .next { u with inputs := ops, mem := m, dirty := d } ∧
          (∀ i < bs.length, Memory.byte m (a.toNat + i) = bs.getD i 0) ∧ unchangedOutside s.mem m [q] ∧
          (s.platform.coherent = true → d = s.dirty) ∧
          (s.platform.coherent = false → d = s.dirty ++ (List.range bs.length).map (a.toNat + ·))) ∧
      ((∃ x ∈ s.stale, inRange q x = true) → step s = .fault .notCoherent)) ∧
    (∀ n : Nat,
      let q : Range := { base := a.toNat, len := n }
      s.inputs = .clean a n :: ops → a.toNat + n ≤ 2 ^ 64 →
      overlaps q (windowOf s.platform) = false → busHits s.platform .device [q] = false →
      (∀ r ∈ s.unobserved, overlaps q r = false) →
      ∃ l : List Nat, (∀ x, x ∈ l ↔ x ∈ s.dirty ∧ inRange q x = false) ∧
        step s = .next { u with inputs := ops, dirty := l })

/-! ### What every command leaves alone -/

/-- R26 to R30, R36, R222: whatever command gives a next state, ARG0 to ARG2, CTRL, DROP and the platform are
unchanged; DATA is unchanged but by `transpose_8x8_direct`; the host's pending operations, what it has read
and the turns are unchanged. -/
def Obligations.CommandsKeepTheRegisters : Prop :=
  ∀ (i : Instr) (s t : State), exec i s = .next t →
    t.arg0 = s.arg0 ∧ t.arg1 = s.arg1 ∧ t.arg2 = s.arg2 ∧ t.ctrl = s.ctrl ∧
    t.status.drop = s.status.drop ∧ t.platform = s.platform ∧ (i ≠ .transpose8x8Direct → t.data = s.data) ∧
    t.inputs = s.inputs ∧ t.turns = s.turns ∧ t.observed = s.observed ∧ t.free = s.free ∧ t.dirty = s.dirty ∧
    t.unobserved = s.unobserved

/-- R68: whatever command gives a next state, every byte outside its write set is unchanged; and its write set
is the one R68 gives for its operands. On a non-coherent platform (R79, R256) exactly the bytes of that set become
stale for the host, when the command completes and not while it is stuck (log entry 15). -/
def Obligations.CommandsWriteOnlyTheirWriteSet : Prop :=
  ∀ (i : Instr) (s t : State), exec i s = .next t →
    unchangedOutside s.mem t.mem (s.plan i.command).writes ∧
    (∀ w ∈ (s.plan i.command).writes, inWriteSet s.mem s.operands i.command w) ∧
    (∀ x, x ∈ t.stale ↔ x ∈ s.stale ∨
      (s.platform.coherent = false ∧ t ≠ s ∧ ∃ w ∈ (s.plan i.command).writes, inRange w x = true))

/-- R219: whatever command records an error has, in that one step, set BUSY ← 0, ERR ← 1, ERRCODE (a code other
than 0) and ERRADDR, and changed nothing else: DONE and DATA are kept and no byte of memory is written. -/
def Obligations.ErrorsArePrecise : Prop :=
  ∀ (i : Instr) (s t : State), exec i s = .next t → s.status.err = false → t.status.err = true →
    ∃ (code : ErrCode) (addr : Word), code ≠ .none ∧ t = s.failed code addr

/-- R37, R219, R220: from a BUSY state a command that gives a next state either is stuck with nothing changed,
or is IDLE with exactly one of DONE and ERR, ERRCODE ≠ 0 exactly with ERR, and ERRADDR = 0 with DONE. -/
def Obligations.CompletionRecordsOneOutcome : Prop :=
  ∀ (i : Instr) (s t : State), s.Inv → s.busy = true → exec i s = .next t →
    t = s ∨
    (t.busy = false ∧ t.status.done = !t.status.err ∧ (t.status.err = true ↔ t.status.errCode ≠ .none) ∧
      (t.status.done = true → t.errAddr = 0))

/-- R11: the set of addresses a command accesses, and the checks it makes, depend on its operands and its
pointer table, and on no other byte of memory. -/
def Obligations.AccessSetIsDataOblivious : Prop :=
  ∀ (i : Instr) (s s' : State),
    s'.platform = s.platform → s'.dirty = s.dirty → s'.operands = s.operands → s'.draw = s.draw →
    (∀ z, i.command = .kxn z → ∀ x, inRange (tableRange z s.operands.arg1.toNat) x = true →
      Memory.byte s'.mem x = Memory.byte s.mem x) →
    (∀ z, i.command = .nxk z → ∀ x, inRange (tableRange z s.operands.arg0.toNat) x = true →
      Memory.byte s'.mem x = Memory.byte s.mem x) →
    s'.plan i.command = s.plan i.command

/-! ### Laws -/

/-- R120, R153: a square or packed command applied twice to one buffer restores every byte of memory. -/
def Obligations.SquareCommandsAreInvolutions : Prop :=
  ∀ (s t s' u : State), ∀ i ∈ [Instr.transpose8x8, .transpose8x8Aligned, .transpose16x16, .transpose16x16Aligned,
      .transpose32x32, .transpose32x32Aligned, .transpose64x64, .transpose64x64Aligned, .transpose128x128,
      .transpose128x128Aligned, .transpose8x8PackedX4, .transpose8x8PackedX4Aligned],
    exec i s = .next t → s'.mem = t.mem → s'.platform = s.platform → s'.dirty = s.dirty →
    s'.operands.arg0 = s.operands.arg0 → exec i s' = .next u →
    ∀ x, Memory.byte u.mem x = Memory.byte s.mem x

/-- R190: `transpose_Nx<k>` into k row strings followed by `transpose_<k>xN` from the same strings into a
buffer reproduces the original buffer, for every k and every N ≥ 1 (N = 0 has no buffer). -/
def Obligations.RectangularRoundTrip : Prop :=
  ∀ (s t s' u : State) (z : Size),
    let n := s.operands.arg2.toNat
    let tab := s.operands.arg0.toNat
    let b := s.operands.arg1.toNat
    let d := s'.operands.arg0.toNat
    s.rectOperandsOk z n tab b →
    (∀ j < sizeBits z, overlaps (tableRange z tab) (rowRangeAt s.mem z n tab j) = false) →
    s.clear (s.rectRanges z n tab b) →
    exec (Command.nxk z).instr s = .next t →
    s'.mem = t.mem → s'.operands.arg1 = s.operands.arg0 → s'.operands.arg2 = s.operands.arg2 →
    s'.rectOperandsOk z n tab d → overlaps (tableRange z tab) (contiguousRange z n d) = false →
    s'.clear (s'.rectRanges z n tab d) →
    exec (Command.kxn z).instr s' = .next u →
    ∀ x < n * blockBytes z, Memory.byte u.mem (d + x) = Memory.byte s.mem (b + x)

/-! ### The invariant -/

/-- The invariant holds after reset. -/
def Obligations.InvariantHoldsAtReset : Prop := State.reset.Inv

/-- Every step keeps the invariant: memory canonical; DONE and ERR exclusive and ERRCODE with ERR (R24); ENG
hardwired (R23); DONE, ERR and ERRADDR clear while BUSY (R37); the operand registers equal to the latched operands
while BUSY (R41); the running command's sets among those the host must leave alone (R74, log entry 13); nothing to
clean on a coherent platform (R79). -/
def Obligations.StepKeepsTheInvariant : Prop :=
  ∀ s s' : State, s.Inv → step s = .next s' → s'.Inv
end

