-- ==== Sys2Proof/Laws/Bits.lean ====
section
/-! SUPPORT. Laws of bytes, bit strings and row lists: what `natOfBytes`, `bytesOfNat`, `natOfBools`,
`ofBools`, `transposeRows` and the row functions give, bit by bit. -/

namespace Sys2Proof.Laws

open Sys2Proof Sys2Proof.Machine

@[simp] theorem natOfBytes_nil : natOfBytes [] = 0 := rfl

@[simp] theorem natOfBytes_cons (b : Byte) (bs : List Byte) :
    natOfBytes (b :: bs) = b.toNat + 256 * natOfBytes bs := rfl

@[simp] theorem natOfBools_nil : natOfBools [] = 0 := rfl

@[simp] theorem natOfBools_cons (b : Bool) (bs : List Bool) :
    natOfBools (b :: bs) = b.toNat + 2 * natOfBools bs := rfl

@[simp] theorem bytesOfNat_length (n x : Nat) : (bytesOfNat n x).length = n := by
  simp [bytesOfNat]

/-- A number below 2^k in the low digits leaves the higher bits to the rest. -/
theorem testBit_add_mul_pow (k a b i : Nat) (ha : a < 2 ^ k) :
    (a + 2 ^ k * b).testBit i = if i < k then a.testBit i else b.testBit (i - k) := by
  rw [Nat.add_comm, Nat.testBit_two_pow_mul_add b ha]

/-- Bit i of a byte string's number is bit i mod 8 of byte i div 8. -/
theorem testBit_natOfBytes (bs : List Byte) (i : Nat) :
    (natOfBytes bs).testBit i = (bs.getD (i / 8) 0).getLsbD (i % 8) := by
  induction bs generalizing i with
  | nil => simp
  | cons b bs ih =>
    have h : natOfBytes (b :: bs) = b.toNat + 2 ^ 8 * natOfBytes bs := rfl
    rw [h, testBit_add_mul_pow 8 _ _ _ b.isLt]
    by_cases hi : i < 8
    · simp [hi, Nat.div_eq_of_lt hi, Nat.mod_eq_of_lt hi, BitVec.getLsbD]
    · have e1 : i / 8 = (i - 8) / 8 + 1 := by omega
      have e2 : i % 8 = (i - 8) % 8 := by omega
      simp only [hi, if_false]
      rw [ih, e1, e2]
      simp

theorem natOfBytes_lt (bs : List Byte) : natOfBytes bs < 2 ^ (8 * bs.length) := by
  induction bs with
  | nil => simp
  | cons b bs ih =>
    have hb : b.toNat < 256 := b.isLt
    rw [natOfBytes_cons, List.length_cons, Nat.mul_add, Nat.pow_add]
    omega

/-- Bit i of a Boolean list's number is its i-th entry. -/
theorem testBit_natOfBools (bs : List Bool) (i : Nat) :
    (natOfBools bs).testBit i = bs.getD i false := by
  induction bs generalizing i with
  | nil => simp
  | cons b bs ih =>
    have h : natOfBools (b :: bs) = b.toNat + 2 ^ 1 * natOfBools bs := rfl
    rw [h, testBit_add_mul_pow 1 _ _ _ (by cases b <;> decide)]
    cases i with
    | zero => cases b <;> rfl
    | succ i => simpa using ih i

/-- Bit i of `ofBools w bs`. -/
theorem getLsbD_ofBools (w : Nat) (bs : List Bool) (i : Nat) :
    (ofBools w bs).getLsbD i = (decide (i < w) && bs.getD i false) := by
  rw [ofBools, BitVec.getLsbD_ofNat, testBit_natOfBools]

/-- Byte i of a number's little-endian bytes. -/
theorem getD_bytesOfNat (n x i : Nat) :
    (bytesOfNat n x).getD i 0 = if i < n then BitVec.ofNat 8 (x >>> (8 * i)) else 0 := by
  by_cases h : i < n <;> simp [bytesOfNat, List.getD, h]

/-- Bit t of the byte string of a number is bit t of the number. -/
theorem getLsbD_bytesOfNat (n x t : Nat) (h : t < 8 * n) :
    ((bytesOfNat n x).getD (t / 8) 0).getLsbD (t % 8) = x.testBit t := by
  rw [getD_bytesOfNat, if_pos (by omega), BitVec.getLsbD_ofNat, Nat.testBit_shiftRight]
  have e : 8 * (t / 8) + t % 8 = t := by omega
  simp [e, Nat.mod_lt]

@[simp] theorem transposeRows_length {w : Nat} (h : Nat) (m : List (BitVec w)) :
    (transposeRows h m).length = w := by
  simp [transposeRows]

/-- Bit i of row j of the transposition is bit j of row i. -/
theorem getLsbD_transposeRows {w : Nat} (h : Nat) (m : List (BitVec w)) (i j : Nat)
    (hi : i < h) (hj : j < w) :
    ((transposeRows h m).getD j 0).getLsbD i = (m.getD i 0).getLsbD j := by
  have e : (transposeRows h m).getD j 0 = ofBools h (m.map (·.getLsbD j)) := by
    simp [transposeRows, List.getD, hj]
  rw [e, getLsbD_ofBools]
  by_cases hm : i < m.length
  · simp [hi, List.getD, hm]
  · simp [List.getD, hm]

/-- Row lists of one length with the same bits are equal. -/
theorem rows_ext {w : Nat} {a b : List (BitVec w)} (hl : a.length = b.length)
    (h : ∀ i < a.length, ∀ j < w, (a.getD i 0).getLsbD j = (b.getD i 0).getLsbD j) : a = b := by
  apply List.ext_getElem hl
  intro i h1 h2
  apply BitVec.eq_of_getLsbD_eq
  intro j hj
  have := h i h1 j hj
  simpa [List.getD, h1, h2] using this

@[simp] theorem bytesOfRows_nil {w : Nat} (bytes : Nat) :
    bytesOfRows bytes ([] : List (BitVec w)) = [] := rfl

@[simp] theorem bytesOfRows_length {w : Nat} (bytes : Nat) (rows : List (BitVec w)) :
    (bytesOfRows bytes rows).length = rows.length * bytes := by
  induction rows with
  | nil => simp
  | cons r rs ih =>
    have : bytesOfRows bytes (r :: rs) = bytesOfNat bytes r.toNat ++ bytesOfRows bytes rs := rfl
    rw [this, List.length_append, ih, bytesOfNat_length, List.length_cons]
    ring

/-- Byte q of row i in a row list's bytes. -/
theorem getD_bytesOfRows {w : Nat} (bytes : Nat) (rows : List (BitVec w)) (i q : Nat)
    (hq : q < bytes) (hi : i < rows.length) :
    (bytesOfRows bytes rows).getD (i * bytes + q) 0 = (bytesOfNat bytes (rows.getD i 0).toNat).getD q 0 := by
  induction rows generalizing i with
  | nil => simp at hi
  | cons r rs ih =>
    have e : bytesOfRows bytes (r :: rs) = bytesOfNat bytes r.toNat ++ bytesOfRows bytes rs := rfl
    rw [e]
    cases i with
    | zero =>
      rw [List.getD_append _ _ _ _ (by simpa using hq)]
      simp
    | succ i =>
      have hle : (bytesOfNat bytes r.toNat).length ≤ (i + 1) * bytes + q := by
        simp only [bytesOfNat_length]
        nlinarith
      rw [List.getD_append_right _ _ _ _ hle]
      have e2 : (i + 1) * bytes + q - (bytesOfNat bytes r.toNat).length = i * bytes + q := by
        simp only [bytesOfNat_length, Nat.add_mul]
        omega
      rw [e2, ih i (by simpa using hi)]
      simp

/-- Bit c of row i in a row list's bytes, for rows of 8·bytes bits. -/
theorem getLsbD_bytesOfRows {w : Nat} (bytes : Nat) (rows : List (BitVec w)) (i c : Nat)
    (hw : w = 8 * bytes) (hc : c < w) (hi : i < rows.length) :
    ((bytesOfRows bytes rows).getD ((i * w + c) / 8) 0).getLsbD ((i * w + c) % 8) =
      (rows.getD i 0).getLsbD c := by
  subst hw
  have e1 : (i * (8 * bytes) + c) / 8 = i * bytes + c / 8 := by
    rw [show i * (8 * bytes) + c = c + 8 * (i * bytes) by ring, Nat.add_mul_div_left _ _ (by norm_num)]
    ring
  have e2 : (i * (8 * bytes) + c) % 8 = c % 8 := by
    rw [show i * (8 * bytes) + c = c + 8 * (i * bytes) by ring, Nat.add_mul_mod_self_left]
  rw [e1, e2, getD_bytesOfRows _ _ _ _ (by omega) hi, getLsbD_bytesOfNat _ _ _ (by omega)]
  rfl

end Sys2Proof.Laws
end

