-- ==== Sys2Proof/Laws/Memory.lean ====
section
/-! SUPPORT. Laws of memory: reading after writing, what a write leaves alone, and that every memory
operation keeps the canonical form. -/

namespace Sys2Proof.Laws

open Sys2Proof Sys2Proof.Machine

@[simp] theorem byte_nil (a : Nat) : Memory.byte [] a = unlistedByte := rfl

/-- A memory whose cells all lie elsewhere reads as unlisted. -/
theorem byte_of_not_listed (m : Memory) (a : Nat) (h : ∀ c ∈ m, c.1 ≠ a) :
    Memory.byte m a = unlistedByte := by
  induction m with
  | nil => rfl
  | cons c m ih =>
    obtain ⟨x, b⟩ := c
    have hx : x ≠ a := h (x, b) (by simp)
    simp only [Memory.byte, if_neg hx]
    exact ih fun c hc => h c (by simp [hc])

/-- Dropping cells at other addresses does not change what an address reads as. -/
theorem byte_filter (m : Memory) (p : Host.Cell → Bool) (a : Nat) (h : ∀ b, p (a, b) = true) :
    Memory.byte (m.filter p) a = Memory.byte m a := by
  induction m with
  | nil => rfl
  | cons c m ih =>
    obtain ⟨x, b⟩ := c
    by_cases hx : x = a
    · subst hx
      simp [h b, Memory.byte]
    · by_cases hp : p (x, b) = true
      · simp [hp, Memory.byte, hx, ih]
      · simp [hp, Memory.byte, hx, ih]

/-- An address that no cell of the first part lists reads from the second part. -/
theorem byte_append_right (m₁ m₂ : Memory) (a : Nat) (h : ∀ c ∈ m₁, c.1 ≠ a) :
    Memory.byte (m₁ ++ m₂) a = Memory.byte m₂ a := by
  induction m₁ with
  | nil => rfl
  | cons c m ih =>
    obtain ⟨x, b⟩ := c
    have hx : x ≠ a := h (x, b) (by simp)
    simp only [List.cons_append, Memory.byte, if_neg hx]
    exact ih fun c hc => h c (by simp [hc])

/-- An address that no cell of the second part lists reads from the first part. -/
theorem byte_append_left (m₁ m₂ : Memory) (a : Nat) (h : ∀ c ∈ m₂, c.1 ≠ a) :
    Memory.byte (m₁ ++ m₂) a = Memory.byte m₁ a := by
  induction m₁ with
  | nil => exact byte_of_not_listed m₂ a h
  | cons c m ih =>
    obtain ⟨x, b⟩ := c
    by_cases hx : x = a <;> simp [Memory.byte, hx, ih]

/-- The cells of a byte sequence lie in its range. -/
theorem mem_cellsOf {a : Nat} {bs : List Byte} {c : Host.Cell} (h : c ∈ cellsOf a bs) :
    a ≤ c.1 ∧ c.1 < a + bs.length := by
  induction bs generalizing a with
  | nil => simp [cellsOf] at h
  | cons b bs ih =>
    simp only [cellsOf] at h
    split at h
    · have := ih h
      simp only [List.length_cons]; omega
    · rcases List.mem_cons.mp h with rfl | h
      · simp
      · have := ih h
        simp only [List.length_cons]; omega

/-- The cells of a byte sequence read as it. -/
theorem byte_cellsOf (a : Nat) (bs : List Byte) (x : Nat) (h : a ≤ x) :
    Memory.byte (cellsOf a bs) x = bs.getD (x - a) 0 := by
  induction bs generalizing a with
  | nil => simp [cellsOf, unlistedByte]
  | cons b bs ih =>
    by_cases hx : x = a
    · subst hx
      simp only [cellsOf]
      split
      · rename_i hb
        rw [byte_of_not_listed _ _ fun c hc => by have := mem_cellsOf hc; omega]
        simp [hb]
      · simp [Memory.byte]
    · have e : x - a = (x - (a + 1)) + 1 := by omega
      have hax : a ≠ x := fun h => hx h.symm
      simp only [cellsOf]
      split
      · rw [ih (a + 1) (by omega), e]; simp
      · simp only [Memory.byte, if_neg hax]
        rw [ih (a + 1) (by omega), e]; simp

/-- Reading after a write: inside the written range the written byte, outside it the old one. -/
theorem byte_write (m : Memory) (a : Nat) (bs : List Byte) (x : Nat) :
    Memory.byte (m.write a bs) x =
      if a ≤ x ∧ x < a + bs.length then bs.getD (x - a) 0 else Memory.byte m x := by
  have hcells : ∀ c ∈ cellsOf a bs, a ≤ c.1 ∧ c.1 < a + bs.length := fun c hc => mem_cellsOf hc
  unfold Memory.write
  split
  · rename_i h
    rw [List.append_assoc, byte_append_right _ _ _ fun c hc => by
      have := (List.mem_filter.mp hc).2; simp at this; omega]
    rw [byte_append_left _ _ _ fun c hc => by
      have := (List.mem_filter.mp hc).2; simp at this; omega]
    exact byte_cellsOf a bs x h.1
  · rename_i h
    by_cases hx : x < a
    · rw [byte_append_left _ _ _ fun c hc => by
        have := (List.mem_filter.mp hc).2; simp at this; omega]
      rw [byte_append_left _ _ _ fun c hc => by have := hcells c hc; omega]
      exact byte_filter _ _ _ fun b => by simpa using hx
    · rw [byte_append_right _ _ _ fun c hc => by
        rcases List.mem_append.mp hc with hc | hc
        · have := (List.mem_filter.mp hc).2; simp at this; omega
        · have := hcells c hc; omega]
      exact byte_filter _ _ _ fun b => by simp; omega

/-- A write leaves every address outside its range alone. -/
theorem byte_write_outside (m : Memory) (a : Nat) (bs : List Byte) (x : Nat)
    (h : inRange { base := a, len := bs.length } x = false) :
    Memory.byte (m.write a bs) x = Memory.byte m x := by
  rw [byte_write, if_neg]
  simpa [inRange] using h

/-- Several writes leave every address outside all their ranges alone. -/
theorem byte_writeAll_outside (m : Memory) (sts : List Store) (x : Nat)
    (h : ∀ st ∈ sts, inRange { base := st.1, len := st.2.length } x = false) :
    Memory.byte (m.writeAll sts) x = Memory.byte m x := by
  induction sts generalizing m with
  | nil => rfl
  | cons st sts ih =>
    obtain ⟨a, bs⟩ := st
    rw [Memory.writeAll, ih _ fun st hst => h st (by simp [hst])]
    exact byte_write_outside m a bs x (h (a, bs) (by simp))

@[simp] theorem read_length (m : Memory) (a n : Nat) : (m.read a n).length = n := by
  simp [Memory.read]

/-- Byte i of a read is the byte at a + i. -/
theorem getD_read (m : Memory) (a n i : Nat) (h : i < n) :
    (m.read a n).getD i 0 = Memory.byte m (a + i) := by
  have : (m.read a n).getD i 0 =
      Memory.byte (m.filter fun c => decide (a ≤ c.1) && decide (c.1 < a + n)) (a + i) := by
    simp [Memory.read, List.getD, h]
  rw [this]
  exact byte_filter _ _ _ fun b => by simp; omega

/-- Bit t of a read's number is `Bits(a, t)` of R62. -/
theorem testBit_readNat (m : Memory) (a n t : Nat) (h : t < 8 * n) :
    (m.readNat a n).testBit t = m.bit a t := by
  rw [Memory.readNat, testBit_natOfBytes, getD_read _ _ _ _ (by omega)]
  rfl

/-- A read depends on the bytes of its range only. -/
theorem readNat_congr {m m' : Memory} {a n : Nat}
    (h : ∀ x, a ≤ x → x < a + n → Memory.byte m x = Memory.byte m' x) : m.readNat a n = m'.readNat a n := by
  have : m.read a n = m'.read a n := by
    apply List.ext_getElem (by simp)
    intro i h1 h2
    have e1 := getD_read m a n i (by simpa using h1)
    have e2 := getD_read m' a n i (by simpa using h2)
    simp only [List.getD, List.getElem?_eq_getElem h1, Option.getD_some] at e1
    simp only [List.getD, List.getElem?_eq_getElem h2, Option.getD_some] at e2
    rw [e1, e2]
    exact h _ (by omega) (by simp at h1; omega)
  rw [Memory.readNat, Memory.readNat, this]

@[simp] theorem rows_length (m : Memory) (a w bytes count : Nat) :
    (Memory.rows m a w bytes count).length = count := by
  simp [Memory.rows]

/-- Bit j of row i of a matrix in memory is `Bits(a, i·w + j)` (R62). -/
theorem getLsbD_rows (m : Memory) (a w bytes count i j : Nat) (hw : w = 8 * bytes) (hi : i < count)
    (hj : j < w) :
    ((Memory.rows m a w bytes count).getD i 0).getLsbD j = m.bit a (i * w + j) := by
  have e : (Memory.rows m a w bytes count).getD i 0 = BitVec.ofNat w (m.readNat (a + i * bytes) bytes) := by
    simp [Memory.rows, List.getD, hi]
  rw [e, BitVec.getLsbD_ofNat, testBit_readNat _ _ _ _ (by omega)]
  subst hw
  have e1 : (i * (8 * bytes) + j) / 8 = i * bytes + j / 8 := by
    rw [show i * (8 * bytes) + j = j + 8 * (i * bytes) by ring, Nat.add_mul_div_left _ _ (by norm_num)]
    ring
  have e2 : (i * (8 * bytes) + j) % 8 = j % 8 := by
    rw [show i * (8 * bytes) + j = j + 8 * (i * bytes) by ring, Nat.add_mul_mod_self_left]
  simp only [Memory.bit, e1, e2, hj, decide_true, Bool.true_and]
  rw [Nat.add_assoc]

/-- A bit of memory after a write that covers its byte. -/
theorem bit_write (m : Memory) (a : Nat) (bs : List Byte) (t : Nat) (h : t < 8 * bs.length) :
    (m.write a bs).bit a t = (bs.getD (t / 8) 0).getLsbD (t % 8) := by
  rw [Memory.bit, byte_write, if_pos (by omega)]
  congr 2
  omega

/-! ### The canonical form -/

theorem wfFrom_mono {lo lo' : Nat} {m : Memory} (h : lo' ≤ lo) (hm : Memory.wfFrom lo m = true) :
    Memory.wfFrom lo' m = true := by
  cases m with
  | nil => rfl
  | cons c m =>
    obtain ⟨a, b⟩ := c
    simp only [Memory.wfFrom, Bool.and_eq_true, decide_eq_true_eq] at hm ⊢
    exact ⟨⟨⟨by omega, hm.1.1.2⟩, hm.1.2⟩, hm.2⟩

theorem wfFrom_of_ge {lo lo' : Nat} {m : Memory} (hm : Memory.wfFrom lo m = true)
    (h : ∀ c ∈ m, lo' ≤ c.1) : Memory.wfFrom lo' m = true := by
  cases m with
  | nil => rfl
  | cons c m =>
    obtain ⟨a, b⟩ := c
    have := h (a, b) (by simp)
    simp only [Memory.wfFrom, Bool.and_eq_true, decide_eq_true_eq] at hm ⊢
    exact ⟨⟨⟨this, hm.1.1.2⟩, hm.1.2⟩, hm.2⟩

theorem wfFrom_filter {lo : Nat} {m : Memory} (p : Host.Cell → Bool) (hm : Memory.wfFrom lo m = true) :
    Memory.wfFrom lo (m.filter p) = true := by
  induction m generalizing lo with
  | nil => rfl
  | cons c m ih =>
    obtain ⟨a, b⟩ := c
    simp only [Memory.wfFrom, Bool.and_eq_true, decide_eq_true_eq] at hm
    have h := ih hm.2
    by_cases hp : p (a, b) = true
    · simp only [List.filter_cons_of_pos hp, Memory.wfFrom, Bool.and_eq_true, decide_eq_true_eq]
      exact ⟨hm.1, h⟩
    · rw [List.filter_cons_of_neg hp]
      exact wfFrom_mono (by omega) h

/-- Two canonical parts, the first below the second. -/
theorem wfFrom_append {lo mid : Nat} {m₁ m₂ : Memory} (h₁ : Memory.wfFrom lo m₁ = true)
    (h₂ : Memory.wfFrom mid m₂ = true) (hlo : lo ≤ mid) (hb : ∀ c ∈ m₁, c.1 < mid) :
    Memory.wfFrom lo (m₁ ++ m₂) = true := by
  induction m₁ generalizing lo with
  | nil => exact wfFrom_mono hlo h₂
  | cons c m ih =>
    obtain ⟨a, b⟩ := c
    have ha : a < mid := hb (a, b) (by simp)
    simp only [List.cons_append, Memory.wfFrom, Bool.and_eq_true, decide_eq_true_eq] at h₁ ⊢
    exact ⟨h₁.1, ih h₁.2 (by omega) fun c hc => hb c (by simp [hc])⟩

theorem wfFrom_cellsOf (a : Nat) (bs : List Byte) (h : a + bs.length ≤ 2 ^ 64) :
    Memory.wfFrom a (cellsOf a bs) = true := by
  induction bs generalizing a with
  | nil => rfl
  | cons b bs ih =>
    simp only [List.length_cons] at h
    have := ih (a + 1) (by omega)
    simp only [cellsOf]
    split
    · exact wfFrom_mono (by omega) this
    · rename_i hb
      simp only [Memory.wfFrom, Bool.and_eq_true, decide_eq_true_eq]
      exact ⟨⟨⟨by omega, by omega⟩, by simpa using hb⟩, this⟩

/-- A write inside the address space keeps the canonical form. -/
theorem write_wf {m : Memory} {a : Nat} {bs : List Byte} (hm : Memory.wf m = true)
    (h : a + bs.length ≤ 2 ^ 64) : Memory.wf (m.write a bs) = true := by
  unfold Memory.write Memory.wf
  rw [List.append_assoc]
  refine wfFrom_append (wfFrom_filter _ hm) (mid := a) ?_ (Nat.zero_le _)
    fun c hc => by simpa using (List.mem_filter.mp hc).2
  refine wfFrom_append (wfFrom_cellsOf a bs h) (mid := a + bs.length) ?_ (by omega)
    fun c hc => (mem_cellsOf hc).2
  exact wfFrom_of_ge (wfFrom_filter _ hm) fun c hc => by simpa using (List.mem_filter.mp hc).2

/-- Several writes inside the address space keep the canonical form. -/
theorem writeAll_wf {m : Memory} {sts : List Store} (hm : Memory.wf m = true)
    (h : ∀ st ∈ sts, st.1 + st.2.length ≤ 2 ^ 64) : Memory.wf (m.writeAll sts) = true := by
  induction sts generalizing m with
  | nil => exact hm
  | cons st sts ih =>
    obtain ⟨a, bs⟩ := st
    exact ih (write_wf hm (h (a, bs) (by simp))) fun st hst => h st (by simp [hst])

/-- A canonical memory lists nothing below its bound, so what it lists is what differs from unlisted. -/
theorem byte_of_lt {lo : Nat} {m : Memory} (hm : Memory.wfFrom lo m = true) {a : Nat} (h : a < lo) :
    Memory.byte m a = unlistedByte := by
  induction m generalizing lo with
  | nil => rfl
  | cons c m ih =>
    obtain ⟨x, b⟩ := c
    simp only [Memory.wfFrom, Bool.and_eq_true, decide_eq_true_eq] at hm
    simp only [Memory.byte, if_neg (show x ≠ a by omega)]
    exact ih hm.2 (by omega)

/-- Canonical memories that read alike everywhere are equal. -/
theorem eq_of_byte_eq {lo : Nat} {m m' : Memory} (hm : Memory.wfFrom lo m = true)
    (hm' : Memory.wfFrom lo m' = true) (h : ∀ a, Memory.byte m a = Memory.byte m' a) : m = m' := by
  induction m generalizing lo m' with
  | nil =>
    cases m' with
    | nil => rfl
    | cons c m' =>
      obtain ⟨x, b⟩ := c
      simp only [Memory.wfFrom, Bool.and_eq_true, decide_eq_true_eq] at hm'
      have := h x
      simp [Memory.byte] at this
      exact absurd this.symm (by simpa using hm'.1.2)
  | cons c m ih =>
    obtain ⟨x, b⟩ := c
    have hm0 := hm
    simp only [Memory.wfFrom, Bool.and_eq_true, decide_eq_true_eq] at hm
    cases m' with
    | nil =>
      have := h x
      simp [Memory.byte] at this
      exact absurd this (by simpa using hm.1.2)
    | cons c' m' =>
      obtain ⟨x', b'⟩ := c'
      have hm0' := hm'
      simp only [Memory.wfFrom, Bool.and_eq_true, decide_eq_true_eq] at hm'
      have hx : x = x' := by
        rcases Nat.lt_trichotomy x x' with hlt | rfl | hlt
        · have := h x
          rw [byte_of_lt (lo := x') (m := (x', b') :: m') (by
            simp only [Memory.wfFrom, Bool.and_eq_true, decide_eq_true_eq]
            exact ⟨⟨⟨le_refl _, hm'.1.1.2⟩, hm'.1.2⟩, hm'.2⟩) hlt] at this
          simp [Memory.byte] at this
          exact absurd this (by simpa using hm.1.2)
        · rfl
        · have := h x'
          rw [byte_of_lt (lo := x) (m := (x, b) :: m) (by
            simp only [Memory.wfFrom, Bool.and_eq_true, decide_eq_true_eq]
            exact ⟨⟨⟨le_refl _, hm.1.1.2⟩, hm.1.2⟩, hm.2⟩) hlt] at this
          simp [Memory.byte] at this
          exact absurd this.symm (by simpa using hm'.1.2)
      subst hx
      have hb : b = b' := by simpa [Memory.byte] using h x
      subst hb
      congr 1
      apply ih hm.2 hm'.2
      intro a
      by_cases ha : a ≤ x
      · rw [byte_of_lt hm.2 (by omega), byte_of_lt hm'.2 (by omega)]
      · have := h a
        simpa [Memory.byte, show x ≠ a by omega] using this

end Sys2Proof.Laws
end

