-- ==== Sys2Proof/Laws/State.lean ====
section
/-! SUPPORT. One lemma per field per update of the state, and what the derived fields (BUSY, the operands,
the interrupt line) are after each. -/

namespace Sys2Proof.Laws

open Sys2Proof Sys2Proof.Machine

@[simp] theorem accept_platform (s : State) (v : Word) : (s.accept v).platform = s.platform := rfl
@[simp] theorem accept_ctrl (s : State) (v : Word) : (s.accept v).ctrl = s.ctrl := rfl
@[simp] theorem accept_status (s : State) (v : Word) : (s.accept v).status = { s.status with done := false, err := false, errCode := .none } := rfl
@[simp] theorem accept_arg0 (s : State) (v : Word) : (s.accept v).arg0 = s.arg0 := rfl
@[simp] theorem accept_arg1 (s : State) (v : Word) : (s.accept v).arg1 = s.arg1 := rfl
@[simp] theorem accept_arg2 (s : State) (v : Word) : (s.accept v).arg2 = s.arg2 := rfl
@[simp] theorem accept_data (s : State) (v : Word) : (s.accept v).data = s.data := rfl
@[simp] theorem accept_errAddr (s : State) (v : Word) : (s.accept v).errAddr = 0 := rfl
@[simp] theorem accept_latch (s : State) (v : Word) : (s.accept v).latch = some { cmd := v, ops := s.operandRegs, draw := s.free } := rfl
@[simp] theorem accept_mem (s : State) (v : Word) : (s.accept v).mem = s.mem := rfl
@[simp] theorem accept_dirty (s : State) (v : Word) : (s.accept v).dirty = s.dirty := rfl
@[simp] theorem accept_stale (s : State) (v : Word) : (s.accept v).stale = s.stale := rfl
@[simp] theorem accept_unobserved (s : State) (v : Word) : (s.accept v).unobserved = s.unobserved := rfl
@[simp] theorem accept_inputs (s : State) (v : Word) : (s.accept v).inputs = s.inputs := rfl
@[simp] theorem accept_turns (s : State) (v : Word) : (s.accept v).turns = s.turns := rfl
@[simp] theorem accept_observed (s : State) (v : Word) : (s.accept v).observed = s.observed := rfl
@[simp] theorem accept_free (s : State) (v : Word) : (s.accept v).free = s.free + 1 := rfl

@[simp] theorem completeOk_platform (s : State) : s.completeOk.platform = s.platform := rfl
@[simp] theorem completeOk_ctrl (s : State) : s.completeOk.ctrl = s.ctrl := rfl
@[simp] theorem completeOk_status (s : State) : s.completeOk.status = { s.status with done := true } := rfl
@[simp] theorem completeOk_arg0 (s : State) : s.completeOk.arg0 = s.arg0 := rfl
@[simp] theorem completeOk_arg1 (s : State) : s.completeOk.arg1 = s.arg1 := rfl
@[simp] theorem completeOk_arg2 (s : State) : s.completeOk.arg2 = s.arg2 := rfl
@[simp] theorem completeOk_data (s : State) : s.completeOk.data = s.data := rfl
@[simp] theorem completeOk_errAddr (s : State) : s.completeOk.errAddr = s.errAddr := rfl
@[simp] theorem completeOk_latch (s : State) : s.completeOk.latch = none := rfl
@[simp] theorem completeOk_mem (s : State) : s.completeOk.mem = s.mem := rfl
@[simp] theorem completeOk_dirty (s : State) : s.completeOk.dirty = s.dirty := rfl
@[simp] theorem completeOk_stale (s : State) : s.completeOk.stale = s.stale := rfl
@[simp] theorem completeOk_unobserved (s : State) : s.completeOk.unobserved = s.unobserved := rfl
@[simp] theorem completeOk_inputs (s : State) : s.completeOk.inputs = s.inputs := rfl
@[simp] theorem completeOk_turns (s : State) : s.completeOk.turns = s.turns := rfl
@[simp] theorem completeOk_observed (s : State) : s.completeOk.observed = s.observed := rfl
@[simp] theorem completeOk_free (s : State) : s.completeOk.free = s.free := rfl

@[simp] theorem completeError_platform (s : State) (c : ErrCode) (a : Word) : (s.completeError c a).platform = s.platform := rfl
@[simp] theorem completeError_ctrl (s : State) (c : ErrCode) (a : Word) : (s.completeError c a).ctrl = s.ctrl := rfl
@[simp] theorem completeError_status (s : State) (c : ErrCode) (a : Word) : (s.completeError c a).status = { s.status with err := true, errCode := c } := rfl
@[simp] theorem completeError_arg0 (s : State) (c : ErrCode) (a : Word) : (s.completeError c a).arg0 = s.arg0 := rfl
@[simp] theorem completeError_arg1 (s : State) (c : ErrCode) (a : Word) : (s.completeError c a).arg1 = s.arg1 := rfl
@[simp] theorem completeError_arg2 (s : State) (c : ErrCode) (a : Word) : (s.completeError c a).arg2 = s.arg2 := rfl
@[simp] theorem completeError_data (s : State) (c : ErrCode) (a : Word) : (s.completeError c a).data = s.data := rfl
@[simp] theorem completeError_errAddr (s : State) (c : ErrCode) (a : Word) : (s.completeError c a).errAddr = a := rfl
@[simp] theorem completeError_latch (s : State) (c : ErrCode) (a : Word) : (s.completeError c a).latch = none := rfl
@[simp] theorem completeError_mem (s : State) (c : ErrCode) (a : Word) : (s.completeError c a).mem = s.mem := rfl
@[simp] theorem completeError_dirty (s : State) (c : ErrCode) (a : Word) : (s.completeError c a).dirty = s.dirty := rfl
@[simp] theorem completeError_stale (s : State) (c : ErrCode) (a : Word) : (s.completeError c a).stale = s.stale := rfl
@[simp] theorem completeError_unobserved (s : State) (c : ErrCode) (a : Word) : (s.completeError c a).unobserved = s.unobserved := rfl
@[simp] theorem completeError_inputs (s : State) (c : ErrCode) (a : Word) : (s.completeError c a).inputs = s.inputs := rfl
@[simp] theorem completeError_turns (s : State) (c : ErrCode) (a : Word) : (s.completeError c a).turns = s.turns := rfl
@[simp] theorem completeError_observed (s : State) (c : ErrCode) (a : Word) : (s.completeError c a).observed = s.observed := rfl
@[simp] theorem completeError_free (s : State) (c : ErrCode) (a : Word) : (s.completeError c a).free = s.free := rfl

@[simp] theorem commit_platform (s : State) (ws : List Range) (sts : List Store) : (s.commit ws sts).platform = s.platform := rfl
@[simp] theorem commit_ctrl (s : State) (ws : List Range) (sts : List Store) : (s.commit ws sts).ctrl = s.ctrl := rfl
@[simp] theorem commit_status (s : State) (ws : List Range) (sts : List Store) : (s.commit ws sts).status = { s.status with done := true } := rfl
@[simp] theorem commit_arg0 (s : State) (ws : List Range) (sts : List Store) : (s.commit ws sts).arg0 = s.arg0 := rfl
@[simp] theorem commit_arg1 (s : State) (ws : List Range) (sts : List Store) : (s.commit ws sts).arg1 = s.arg1 := rfl
@[simp] theorem commit_arg2 (s : State) (ws : List Range) (sts : List Store) : (s.commit ws sts).arg2 = s.arg2 := rfl
@[simp] theorem commit_data (s : State) (ws : List Range) (sts : List Store) : (s.commit ws sts).data = s.data := rfl
@[simp] theorem commit_errAddr (s : State) (ws : List Range) (sts : List Store) : (s.commit ws sts).errAddr = s.errAddr := rfl
@[simp] theorem commit_latch (s : State) (ws : List Range) (sts : List Store) : (s.commit ws sts).latch = none := rfl
@[simp] theorem commit_mem (s : State) (ws : List Range) (sts : List Store) : (s.commit ws sts).mem = s.mem.writeAll sts := rfl
@[simp] theorem commit_dirty (s : State) (ws : List Range) (sts : List Store) : (s.commit ws sts).dirty = s.dirty := rfl
@[simp] theorem commit_stale (s : State) (ws : List Range) (sts : List Store) : (s.commit ws sts).stale = s.markStale ws := rfl
@[simp] theorem commit_unobserved (s : State) (ws : List Range) (sts : List Store) : (s.commit ws sts).unobserved = s.unobserved := rfl
@[simp] theorem commit_inputs (s : State) (ws : List Range) (sts : List Store) : (s.commit ws sts).inputs = s.inputs := rfl
@[simp] theorem commit_turns (s : State) (ws : List Range) (sts : List Store) : (s.commit ws sts).turns = s.turns := rfl
@[simp] theorem commit_observed (s : State) (ws : List Range) (sts : List Store) : (s.commit ws sts).observed = s.observed := rfl
@[simp] theorem commit_free (s : State) (ws : List Range) (sts : List Store) : (s.commit ws sts).free = s.free := rfl

@[simp] theorem dropWrite_platform (s : State) : s.dropWrite.platform = s.platform := rfl
@[simp] theorem dropWrite_ctrl (s : State) : s.dropWrite.ctrl = s.ctrl := rfl
@[simp] theorem dropWrite_status (s : State) : s.dropWrite.status = { s.status with drop := true } := rfl
@[simp] theorem dropWrite_arg0 (s : State) : s.dropWrite.arg0 = s.arg0 := rfl
@[simp] theorem dropWrite_arg1 (s : State) : s.dropWrite.arg1 = s.arg1 := rfl
@[simp] theorem dropWrite_arg2 (s : State) : s.dropWrite.arg2 = s.arg2 := rfl
@[simp] theorem dropWrite_data (s : State) : s.dropWrite.data = s.data := rfl
@[simp] theorem dropWrite_errAddr (s : State) : s.dropWrite.errAddr = s.errAddr := rfl
@[simp] theorem dropWrite_latch (s : State) : s.dropWrite.latch = s.latch := rfl
@[simp] theorem dropWrite_mem (s : State) : s.dropWrite.mem = s.mem := rfl
@[simp] theorem dropWrite_dirty (s : State) : s.dropWrite.dirty = s.dirty := rfl
@[simp] theorem dropWrite_stale (s : State) : s.dropWrite.stale = s.stale := rfl
@[simp] theorem dropWrite_unobserved (s : State) : s.dropWrite.unobserved = s.unobserved := rfl
@[simp] theorem dropWrite_inputs (s : State) : s.dropWrite.inputs = s.inputs := rfl
@[simp] theorem dropWrite_turns (s : State) : s.dropWrite.turns = s.turns := rfl
@[simp] theorem dropWrite_observed (s : State) : s.dropWrite.observed = s.observed := rfl
@[simp] theorem dropWrite_free (s : State) : s.dropWrite.free = s.free := rfl

@[simp] theorem observe_platform (s : State) (o : Observation) : (s.observe o).platform = s.platform := rfl
@[simp] theorem observe_ctrl (s : State) (o : Observation) : (s.observe o).ctrl = s.ctrl := rfl
@[simp] theorem observe_status (s : State) (o : Observation) : (s.observe o).status = s.status := rfl
@[simp] theorem observe_arg0 (s : State) (o : Observation) : (s.observe o).arg0 = s.arg0 := rfl
@[simp] theorem observe_arg1 (s : State) (o : Observation) : (s.observe o).arg1 = s.arg1 := rfl
@[simp] theorem observe_arg2 (s : State) (o : Observation) : (s.observe o).arg2 = s.arg2 := rfl
@[simp] theorem observe_data (s : State) (o : Observation) : (s.observe o).data = s.data := rfl
@[simp] theorem observe_errAddr (s : State) (o : Observation) : (s.observe o).errAddr = s.errAddr := rfl
@[simp] theorem observe_latch (s : State) (o : Observation) : (s.observe o).latch = s.latch := rfl
@[simp] theorem observe_mem (s : State) (o : Observation) : (s.observe o).mem = s.mem := rfl
@[simp] theorem observe_dirty (s : State) (o : Observation) : (s.observe o).dirty = s.dirty := rfl
@[simp] theorem observe_stale (s : State) (o : Observation) : (s.observe o).stale = s.stale := rfl
@[simp] theorem observe_unobserved (s : State) (o : Observation) : (s.observe o).unobserved = s.unobserved := rfl
@[simp] theorem observe_inputs (s : State) (o : Observation) : (s.observe o).inputs = s.inputs := rfl
@[simp] theorem observe_turns (s : State) (o : Observation) : (s.observe o).turns = s.turns := rfl
@[simp] theorem observe_observed (s : State) (o : Observation) : (s.observe o).observed = s.observed ++ [o] := rfl
@[simp] theorem observe_free (s : State) (o : Observation) : (s.observe o).free = s.free := rfl

@[simp] theorem resetRegisters_platform (s : State) : s.resetRegisters.platform = s.platform := rfl
@[simp] theorem resetRegisters_ctrl (s : State) : s.resetRegisters.ctrl = { eng := false, ie := false } := rfl
@[simp] theorem resetRegisters_status (s : State) : s.resetRegisters.status = { done := false, err := false, drop := false, errCode := .none } := rfl
@[simp] theorem resetRegisters_arg0 (s : State) : s.resetRegisters.arg0 = 0 := rfl
@[simp] theorem resetRegisters_arg1 (s : State) : s.resetRegisters.arg1 = 0 := rfl
@[simp] theorem resetRegisters_arg2 (s : State) : s.resetRegisters.arg2 = 0 := rfl
@[simp] theorem resetRegisters_data (s : State) : s.resetRegisters.data = 0 := rfl
@[simp] theorem resetRegisters_errAddr (s : State) : s.resetRegisters.errAddr = 0 := rfl
@[simp] theorem resetRegisters_latch (s : State) : s.resetRegisters.latch = none := rfl
@[simp] theorem resetRegisters_mem (s : State) : s.resetRegisters.mem = s.mem := rfl
@[simp] theorem resetRegisters_dirty (s : State) : s.resetRegisters.dirty = s.dirty := rfl
@[simp] theorem resetRegisters_stale (s : State) : s.resetRegisters.stale = s.stale := rfl
@[simp] theorem resetRegisters_unobserved (s : State) : s.resetRegisters.unobserved = s.unobserved := rfl
@[simp] theorem resetRegisters_inputs (s : State) : s.resetRegisters.inputs = s.inputs := rfl
@[simp] theorem resetRegisters_turns (s : State) : s.resetRegisters.turns = s.turns := rfl
@[simp] theorem resetRegisters_observed (s : State) : s.resetRegisters.observed = s.observed := rfl
@[simp] theorem resetRegisters_free (s : State) : s.resetRegisters.free = s.free := rfl

@[simp] theorem place_platform (s : State) (v : Word) : (s.place v).platform = s.platform := rfl
@[simp] theorem place_ctrl (s : State) (v : Word) : (s.place v).ctrl = s.ctrl := rfl
@[simp] theorem place_status (s : State) (v : Word) : (s.place v).status = { s.status with done := false, err := false, errCode := .none } := rfl
@[simp] theorem place_arg0 (s : State) (v : Word) : (s.place v).arg0 = s.arg0 := rfl
@[simp] theorem place_arg1 (s : State) (v : Word) : (s.place v).arg1 = s.arg1 := rfl
@[simp] theorem place_arg2 (s : State) (v : Word) : (s.place v).arg2 = s.arg2 := rfl
@[simp] theorem place_data (s : State) (v : Word) : (s.place v).data = s.data := rfl
@[simp] theorem place_errAddr (s : State) (v : Word) : (s.place v).errAddr = 0 := rfl
@[simp] theorem place_latch (s : State) (v : Word) : (s.place v).latch = some { cmd := v, ops := s.operandRegs, draw := s.free } := rfl
@[simp] theorem place_mem (s : State) (v : Word) : (s.place v).mem = s.mem := rfl
@[simp] theorem place_dirty (s : State) (v : Word) : (s.place v).dirty = s.dirty := rfl
@[simp] theorem place_stale (s : State) (v : Word) : (s.place v).stale = s.stale := rfl
@[simp] theorem place_unobserved (s : State) (v : Word) : (s.place v).unobserved = s.unobserved ++ (s.accept v).runningSet := rfl
@[simp] theorem place_inputs (s : State) (v : Word) : (s.place v).inputs = s.inputs := rfl
@[simp] theorem place_turns (s : State) (v : Word) : (s.place v).turns = .unit :: s.turns := rfl
@[simp] theorem place_observed (s : State) (v : Word) : (s.place v).observed = s.observed := rfl
@[simp] theorem place_free (s : State) (v : Word) : (s.place v).free = s.free + 1 := rfl

@[simp] theorem accept_busy (s : State) (v : Word) : (s.accept v).busy = true := rfl
@[simp] theorem completeOk_busy (s : State) : s.completeOk.busy = false := rfl
@[simp] theorem completeError_busy (s : State) (c : ErrCode) (a : Word) : (s.completeError c a).busy = false := rfl
@[simp] theorem commit_busy (s : State) (ws : List Range) (sts : List Store) : (s.commit ws sts).busy = false := rfl
@[simp] theorem resetRegisters_busy (s : State) : s.resetRegisters.busy = false := rfl
@[simp] theorem place_busy (s : State) (v : Word) : (s.place v).busy = true := rfl

@[simp] theorem accept_operands (s : State) (v : Word) : (s.accept v).operands = s.operandRegs := rfl

/-! ### A CMD write -/

@[simp] theorem issue_platform (s : State) (v : Word) : (s.issue v).platform = (s.accept v).platform := rfl
@[simp] theorem issue_ctrl (s : State) (v : Word) : (s.issue v).ctrl = (s.accept v).ctrl := rfl
@[simp] theorem issue_status (s : State) (v : Word) : (s.issue v).status = (s.accept v).status := rfl
@[simp] theorem issue_arg0 (s : State) (v : Word) : (s.issue v).arg0 = (s.accept v).arg0 := rfl
@[simp] theorem issue_arg1 (s : State) (v : Word) : (s.issue v).arg1 = (s.accept v).arg1 := rfl
@[simp] theorem issue_arg2 (s : State) (v : Word) : (s.issue v).arg2 = (s.accept v).arg2 := rfl
@[simp] theorem issue_data (s : State) (v : Word) : (s.issue v).data = (s.accept v).data := rfl
@[simp] theorem issue_errAddr (s : State) (v : Word) : (s.issue v).errAddr = (s.accept v).errAddr := rfl
@[simp] theorem issue_latch (s : State) (v : Word) : (s.issue v).latch = (s.accept v).latch := rfl
@[simp] theorem issue_mem (s : State) (v : Word) : (s.issue v).mem = (s.accept v).mem := rfl
@[simp] theorem issue_dirty (s : State) (v : Word) : (s.issue v).dirty = (s.accept v).dirty := rfl
@[simp] theorem issue_stale (s : State) (v : Word) : (s.issue v).stale = (s.accept v).stale := rfl
@[simp] theorem issue_inputs (s : State) (v : Word) : (s.issue v).inputs = (s.accept v).inputs := rfl
@[simp] theorem issue_turns (s : State) (v : Word) : (s.issue v).turns = (s.accept v).turns := rfl
@[simp] theorem issue_observed (s : State) (v : Word) : (s.issue v).observed = (s.accept v).observed := rfl
@[simp] theorem issue_free (s : State) (v : Word) : (s.issue v).free = (s.accept v).free := rfl
@[simp] theorem issue_unobserved (s : State) (v : Word) :
    (s.issue v).unobserved = s.unobserved ++ (s.accept v).runningSet := rfl
@[simp] theorem issue_busy (s : State) (v : Word) : (s.issue v).busy = true := rfl
@[simp] theorem issue_runningSet (s : State) (v : Word) : (s.issue v).runningSet = (s.accept v).runningSet := rfl

/-! ### A read of STATUS -/

@[simp] theorem statusSeen_platform (s : State) : s.statusSeen.platform = s.platform := by
  unfold State.statusSeen; split <;> rfl
@[simp] theorem statusSeen_ctrl (s : State) : s.statusSeen.ctrl = s.ctrl := by
  unfold State.statusSeen; split <;> rfl
@[simp] theorem statusSeen_status (s : State) : s.statusSeen.status = s.status := by
  unfold State.statusSeen; split <;> rfl
@[simp] theorem statusSeen_arg0 (s : State) : s.statusSeen.arg0 = s.arg0 := by
  unfold State.statusSeen; split <;> rfl
@[simp] theorem statusSeen_arg1 (s : State) : s.statusSeen.arg1 = s.arg1 := by
  unfold State.statusSeen; split <;> rfl
@[simp] theorem statusSeen_arg2 (s : State) : s.statusSeen.arg2 = s.arg2 := by
  unfold State.statusSeen; split <;> rfl
@[simp] theorem statusSeen_data (s : State) : s.statusSeen.data = s.data := by
  unfold State.statusSeen; split <;> rfl
@[simp] theorem statusSeen_errAddr (s : State) : s.statusSeen.errAddr = s.errAddr := by
  unfold State.statusSeen; split <;> rfl
@[simp] theorem statusSeen_latch (s : State) : s.statusSeen.latch = s.latch := by
  unfold State.statusSeen; split <;> rfl
@[simp] theorem statusSeen_mem (s : State) : s.statusSeen.mem = s.mem := by
  unfold State.statusSeen; split <;> rfl
@[simp] theorem statusSeen_dirty (s : State) : s.statusSeen.dirty = s.dirty := by
  unfold State.statusSeen; split <;> rfl
@[simp] theorem statusSeen_stale (s : State) : s.statusSeen.stale = s.stale := by
  unfold State.statusSeen; split <;> rfl
@[simp] theorem statusSeen_inputs (s : State) : s.statusSeen.inputs = s.inputs := by
  unfold State.statusSeen; split <;> rfl
@[simp] theorem statusSeen_turns (s : State) : s.statusSeen.turns = s.turns := by
  unfold State.statusSeen; split <;> rfl
@[simp] theorem statusSeen_observed (s : State) : s.statusSeen.observed = s.observed := by
  unfold State.statusSeen; split <;> rfl
@[simp] theorem statusSeen_free (s : State) : s.statusSeen.free = s.free := by
  unfold State.statusSeen; split <;> rfl

theorem statusSeen_of_visible {s : State} (h : s.completionVisible = true) :
    s.statusSeen = { s with unobserved := [] } := by simp [State.statusSeen, h]

theorem statusSeen_of_not_visible {s : State} (h : s.completionVisible = false) : s.statusSeen = s := by
  simp [State.statusSeen, h]

/-- A register read records the value, and may empty the unobserved sets; nothing else changes. -/
theorem readBy_eq (s : State) (off : BitVec 8) :
    s.readBy off =
      { s with
        observed := s.observed ++ [.reg off (s.readReg (regAt off))]
        unobserved := if regAt off = .status ∧ s.completionVisible = true then [] else s.unobserved } := by
  unfold State.readBy State.statusSeen
  by_cases h : regAt off = .status
  · by_cases hv : s.completionVisible = true
    · have hv' : (s.observe (.reg off (s.readReg (regAt off)))).completionVisible = true := hv
      simp only [h, hv, and_self, if_true] at hv' ⊢
      rw [if_pos hv']
      rfl
    · have hv' : ¬(s.observe (.reg off (s.readReg (regAt off)))).completionVisible = true := hv
      simp only [h, hv, if_true] at hv' ⊢
      rw [if_neg hv']
      rfl
  · simp [h, State.observe]

theorem busy_eq_false {s : State} (h : s.latch = none) : s.busy = false := by simp [State.busy, h]

theorem busy_eq_true {s : State} {l : Latch} (h : s.latch = some l) : s.busy = true := by simp [State.busy, h]

theorem operands_of_latch {s : State} {l : Latch} (h : s.latch = some l) : s.operands = l.ops := by
  simp [State.operands, h]

theorem operands_of_idle {s : State} (h : s.latch = none) : s.operands = s.operandRegs := by
  simp [State.operands, h]

/-- A register write while BUSY never touches the running command. -/
@[simp] theorem writeRegBusy_latch (s : State) (v : Word) (r : Reg) : (s.writeRegBusy v r).latch = s.latch := by
  cases r <;> rfl

@[simp] theorem writeRegBusy_operandRegs (s : State) (v : Word) (r : Reg) :
    (s.writeRegBusy v r).operandRegs = s.operandRegs := by
  cases r <;> rfl

/-- No register write touches memory. -/
@[simp] theorem writeReg_mem (s : State) (v : Word) (r : Reg) : (s.writeReg r v).mem = s.mem := by
  unfold State.writeReg
  split <;> cases r <;> rfl

@[simp] theorem writeReg_platform (s : State) (v : Word) (r : Reg) : (s.writeReg r v).platform = s.platform := by
  unfold State.writeReg
  split <;> cases r <;> rfl

end Sys2Proof.Laws
end

