-- ==== Sys2Proof/Laws/Plan.lean ====
section
/-! SUPPORT. What a command can do: the inversion of `perform`, what each plan's access sets are, and that
the stores of a command are exactly its write set. -/

namespace Sys2Proof.Laws

open Sys2Proof Sys2Proof.Machine

/-- Everything `perform` can do when it gives a next state. -/
theorem perform_next {s t : State} {p : Plan} {stores : State → List Store}
    (h : s.perform p stores = .next t) :
    (∃ c a rs, p = .error c a rs ∧ t = s.completeError c a) ∨
    (p = .nothing ∧ t = s.completeOk) ∨
    (t = s ∧ ((∃ rs, p = .hang rs) ∨
      ∃ rs ws, p = .access rs ws ∧ busHits s.platform .silent (rs ++ ws) = true)) ∨
    (∃ rs ws, p = .access rs ws ∧ busHits s.platform .faulting (rs ++ ws) = false ∧
      busHits s.platform .silent (rs ++ ws) = false ∧ t = s.commit ws (stores s)) := by
  cases p with
  | error c a rs => simp only [State.perform, Host.Outcome.next.injEq] at h; exact .inl ⟨c, a, rs, rfl, h.symm⟩
  | nothing => simp only [State.perform, Host.Outcome.next.injEq] at h; exact .inr (.inl ⟨rfl, h.symm⟩)
  | hang rs =>
    simp only [State.perform, Host.Outcome.next.injEq] at h
    exact .inr (.inr (.inl ⟨h.symm, .inl ⟨rs, rfl⟩⟩))
  | stop w rs => cases w <;> simp [State.perform, Stop.outcome] at h
  | access rs ws =>
    simp only [State.perform] at h
    split at h
    · cases h
    · rename_i hf
      split at h
      · rename_i hs
        simp only [Host.Outcome.next.injEq] at h
        exact .inr (.inr (.inl ⟨h.symm, .inr ⟨rs, ws, rfl, hs⟩⟩))
      · rename_i hs
        simp only [Host.Outcome.next.injEq] at h
        exact .inr (.inr (.inr ⟨rs, ws, rfl, by simpa using hf, by simpa using hs, h.symm⟩))

/-- `perform` on an access whose bus answers commits the stores. -/
theorem perform_access {s : State} {rs ws : List Range} {stores : State → List Store}
    (hf : busHits s.platform .faulting (rs ++ ws) = false)
    (hs : busHits s.platform .silent (rs ++ ws) = false) :
    s.perform (.access rs ws) stores = .next (s.commit ws (stores s)) := by
  simp [State.perform, hf, hs]

/-! ### Plans -/

/-- A square or packed plan that accesses memory reads and writes its buffer, which lies in the address
space and is aligned where that is asked. -/
theorem bufferPlan_access {s : State} {len : Nat} {al : Bool} {rs ws : List Range}
    (h : s.bufferPlan len al = .access rs ws) :
    rs = [bufferRange s.operands len] ∧ ws = [bufferRange s.operands len] ∧
    rangeOk (bufferRange s.operands len) = true ∧ s.stopOn [bufferRange s.operands len] = none ∧
    (al = true → s.operands.arg0.toNat % alignedBoundary = 0) := by
  simp only [State.bufferPlan] at h
  split at h
  · cases h
  · rename_i ha
    split at h
    · cases h
    · rename_i hr
      split at h
      · cases h
      · rename_i hst
        injection h with h1 h2
        refine ⟨h1.symm, h2.symm, by simpa using hr, hst, fun e => ?_⟩
        subst e
        simpa [bufferRange] using ha

/-- The error codes of `operandError` are MISALIGNED and ADDR_RANGE. -/
theorem operandError_code {a0 a1 : Word} {x0 n0 x1 n1 : Nat} {c : ErrCode} {a : Word}
    (h : operandError a0 x0 n0 a1 x1 n1 = some (c, a)) : c ≠ .none := by
  simp only [operandError] at h
  split at h
  · simp at h; simp [← h.1]
  · split at h
    · simp at h; simp [← h.1]
    · split at h
      · simp at h; simp [← h.1]
      · split at h <;> simp at h
        simp [← h.1]

/-- No operand error: both addresses aligned, both ranges inside the address space. -/
theorem operandError_none {a0 a1 : Word} {x0 n0 x1 n1 : Nat}
    (h : operandError a0 x0 n0 a1 x1 n1 = none) :
    a0.toNat % x0 = 0 ∧ a1.toNat % x1 = 0 ∧ a0.toNat + n0 ≤ 2 ^ 64 ∧ a1.toNat + n1 ≤ 2 ^ 64 := by
  simp only [operandError] at h
  split at h
  · cases h
  · split at h
    · cases h
    · split at h
      · cases h
      · split at h
        · cases h
        · rename_i h1 h2 h3 h4
          exact ⟨by simpa using h1, by simpa using h2, by omega, by omega⟩

theorem operandError_of_ok {a0 a1 : Word} {x0 n0 x1 n1 : Nat} (h0 : a0.toNat % x0 = 0)
    (h1 : a1.toNat % x1 = 0) (h2 : a0.toNat + n0 ≤ 2 ^ 64) (h3 : a1.toNat + n1 ≤ 2 ^ 64) :
    operandError a0 x0 n0 a1 x1 n1 = none := by
  have h2' : ¬ a0.toNat + n0 > 2 ^ 64 := by omega
  have h3' : ¬ a1.toNat + n1 > 2 ^ 64 := by omega
  simp only [operandError, h0, h1, h2', h3', ne_eq, not_true_eq_false, if_false]

theorem entryError_code {x n : Nat} {ps : List Word} {c : ErrCode} {a : Word}
    (h : entryError x n ps = some (c, a)) : c ≠ .none := by
  induction ps with
  | nil => simp [entryError] at h
  | cons p ps ih =>
    simp only [entryError] at h
    split at h
    · simp at h; simp [← h.1]
    · split at h
      · simp at h; simp [← h.1]
      · exact ih h

/-- No entry error: every entry aligned with its row range inside the address space. -/
theorem entryError_eq_none {x n : Nat} {ps : List Word} :
    entryError x n ps = none ↔ ∀ p ∈ ps, p.toNat % x = 0 ∧ p.toNat + n ≤ 2 ^ 64 := by
  induction ps with
  | nil => simp [entryError]
  | cons p ps ih =>
    simp only [entryError, List.mem_cons, forall_eq_or_imp]
    split
    · rename_i h
      simp [h]
    · rename_i h
      split
      · rename_i h'
        simp only [reduceCtorEq, false_iff]
        intro hh
        omega
      · rename_i h'
        rw [ih]
        constructor
        · intro hh; exact ⟨⟨by simpa using h, by omega⟩, hh⟩
        · exact fun hh => hh.2

@[simp] theorem tableEntries_length (m : Memory) (t k : Nat) : (tableEntries m t k).length = k := by
  simp [tableEntries]

/-- `tablePhase` gives a plan that accesses memory only through what follows the table read. -/
theorem tablePhase_access {s : State} {table : Range} {rest : Plan} {rs ws : List Range}
    (h : s.tablePhase table rest = .access rs ws) : rest = .access rs ws := by
  simp only [State.tablePhase] at h
  split at h
  · cases h
  · split at h
    · cases h
    · split at h
      · cases h
      · exact h

theorem tablePhase_of_clear {s : State} {table : Range} {rest : Plan} (h : s.stopOn [table] = none)
    (hf : busHits s.platform .faulting [table] = false) (hs : busHits s.platform .silent [table] = false) :
    s.tablePhase table rest = rest := by
  simp [State.tablePhase, h, hf, hs]

theorem dataPlan_access {s : State} {d : Bool} {reads writes rs ws : List Range}
    (h : s.dataPlan d reads writes = .access rs ws) :
    rs = reads ∧ ws = writes ∧ d = true ∧ s.stopOn (reads ++ writes) = none := by
  simp only [State.dataPlan] at h
  split at h
  · cases h
  · rename_i hst
    split at h
    · rename_i hd
      injection h with h1 h2
      exact ⟨h1.symm, h2.symm, hd, hst⟩
    · cases h

/-- A `transpose_<k>xN` plan that accesses memory: its sets (R68), and the checks that it passed (R218). -/
theorem kxnPlan_access {s : State} {z : Size} {rs ws : List Range} (h : s.kxnPlan z = .access rs ws) :
    let o := s.operands
    let n := blockCount o
    let ps := tableEntries s.mem o.arg1.toNat (sizeBits z)
    rs = { base := o.arg1.toNat, len := tableBytes z } :: rowRanges (stringBytes z n) ps ∧
    ws = [{ base := o.arg0.toNat, len := contiguousBytes z n }] ∧
    n ≠ 0 ∧ o.arg0.toNat + contiguousBytes z n ≤ 2 ^ 64 ∧
    (pairwiseDisjoint (rowRanges (stringBytes z n) ps) = true) := by
  simp only [State.kxnPlan] at h
  split at h
  · cases h
  · split at h
    · cases h
    · rename_i hn
      split at h
      · cases h
      · rename_i hop
        have h1 := tablePhase_access h
        split at h1
        · cases h1
        · obtain ⟨rfl, rfl, hd, -⟩ := dataPlan_access h1
          simp only [Bool.and_eq_true] at hd
          exact ⟨rfl, rfl, hn, (operandError_none hop).2.2.1, hd.1.1⟩

/-- A `transpose_Nx<k>` plan that accesses memory: its sets (R68), and the checks that it passed (R218). -/
theorem nxkPlan_access {s : State} {z : Size} {rs ws : List Range} (h : s.nxkPlan z = .access rs ws) :
    let o := s.operands
    let n := blockCount o
    let qs := tableEntries s.mem o.arg0.toNat (sizeBits z)
    rs = [{ base := o.arg0.toNat, len := tableBytes z }, { base := o.arg1.toNat, len := contiguousBytes z n }] ∧
    ws = rowRanges (stringBytes z n) qs ∧
    n ≠ 0 ∧ (∀ q ∈ qs, q.toNat + stringBytes z n ≤ 2 ^ 64) ∧
    (pairwiseDisjoint (rowRanges (stringBytes z n) qs) = true) := by
  simp only [State.nxkPlan] at h
  split at h
  · cases h
  · split at h
    · cases h
    · rename_i hn
      split at h
      · cases h
      · rename_i hop
        have h1 := tablePhase_access h
        split at h1
        · cases h1
        · rename_i he
          obtain ⟨rfl, rfl, hd, -⟩ := dataPlan_access h1
          simp only [Bool.and_eq_true] at hd
          exact ⟨rfl, rfl, hn, fun q hq => (entryError_eq_none.mp he q hq).2, hd.1.1⟩

/-! ### Error codes -/

theorem bufferPlan_error {s : State} {len : Nat} {al : Bool} {c : ErrCode} {a : Word} {rs : List Range}
    (h : s.bufferPlan len al = .error c a rs) : c ≠ .none := by
  simp only [State.bufferPlan] at h
  split at h
  · injection h with h1; simp [← h1]
  · split at h
    · injection h with h1; simp [← h1]
    · split at h <;> cases h

theorem tablePhase_error {s : State} {table : Range} {rest : Plan} {c : ErrCode} {a : Word} {rs : List Range}
    (hr : ∀ c a rs, rest = .error c a rs → c ≠ .none) (h : s.tablePhase table rest = .error c a rs) :
    c ≠ .none := by
  simp only [State.tablePhase] at h
  split at h
  · cases h
  · split at h
    · cases h
    · split at h
      · injection h with h1; simp [← h1]
      · exact hr c a rs h

theorem dataPlan_error {s : State} {d : Bool} {reads writes rs : List Range} {c : ErrCode} {a : Word}
    (h : s.dataPlan d reads writes = .error c a rs) : False := by
  simp only [State.dataPlan] at h
  split at h
  · cases h
  · split at h <;> cases h

theorem kxnPlan_error {s : State} {z : Size} {c : ErrCode} {a : Word} {rs : List Range}
    (h : s.kxnPlan z = .error c a rs) : c ≠ .none := by
  simp only [State.kxnPlan] at h
  split at h
  · injection h with h1; simp [← h1]
  · split at h
    · cases h
    · split at h
      · rename_i hop
        injection h with h1; rw [← h1]; exact operandError_code hop
      · refine tablePhase_error (fun c a rs h => ?_) h
        split at h
        · rename_i he
          injection h with h1; rw [← h1]; exact entryError_code he
        · exact absurd h fun h => dataPlan_error h

theorem nxkPlan_error {s : State} {z : Size} {c : ErrCode} {a : Word} {rs : List Range}
    (h : s.nxkPlan z = .error c a rs) : c ≠ .none := by
  simp only [State.nxkPlan] at h
  split at h
  · injection h with h1; simp [← h1]
  · split at h
    · cases h
    · split at h
      · rename_i hop
        injection h with h1; rw [← h1]; exact operandError_code hop
      · refine tablePhase_error (fun c a rs h => ?_) h
        split at h
        · rename_i he
          injection h with h1; rw [← h1]; exact entryError_code he
        · exact absurd h fun h => dataPlan_error h

/-- An error plan has a code (R211: 1 to 5). -/
theorem plan_error {s : State} {k : Command} {c : ErrCode} {a : Word} {rs : List Range}
    (h : s.plan k = .error c a rs) : c ≠ .none := by
  cases k with
  | sq z al => exact bufferPlan_error h
  | d8 => cases h
  | p8x4 al => exact bufferPlan_error h
  | kxn z => exact kxnPlan_error h
  | nxk z => exact nxkPlan_error h

/-! ### Lengths, and stores against write sets -/

theorem dim_pos (n : Nat) : 0 < dim n := by
  induction n with
  | zero => decide
  | succ n ih => simp only [dim]; omega

/-- A size is eight times its row bytes. -/
theorem sizeBits_eq (z : Size) : sizeBits z = 8 * rowBytes z := by cases z <;> decide

theorem dim_level_eq (z : Size) : dim (level z) = 8 * rowBytes z := sizeBits_eq z

@[simp] theorem bfly8Rows_length (m : List (BitVec 8)) : (bfly8Rows m).length = 8 := by
  simp [bfly8Rows, rowsOfWord]

/-- The four quadrants of 2h rows have h rows each. -/
theorem quadrants_length {h : Nat} (m : List (BitVec (h + h))) (hm : m.length = h + h) :
    (quadrants m).l0.length = h ∧ (quadrants m).l1.length = h ∧
    (quadrants m).l2.length = h ∧ (quadrants m).l3.length = h := by
  simp [quadrants, hm]

/-- Four lanes of h rows join to 2h rows. -/
theorem joinQuadrants_length {h : Nat} (l : Lanes (List (BitVec h))) (h0 : l.l0.length = h)
    (h1 : l.l1.length = h) (h2 : l.l2.length = h) (h3 : l.l3.length = h) :
    (joinQuadrants l).length = h + h := by
  simp [joinQuadrants, h0, h1, h2, h3]

theorem sqt_zero (m : List (BitVec (dim 0))) : sqt 0 m = bfly8Rows m := rfl

theorem sqt_succ (n : Nat) (m : List (BitVec (dim (n + 1)))) :
    sqt (n + 1) m = joinQuadrants ((quadrants (h := dim n) m).swapMiddle.map (sqt n)) := rfl

/-- SQT keeps the number of rows. -/
theorem sqt_length (n : Nat) (m : List (BitVec (dim n))) (h : m.length = dim n) :
    (sqt n m).length = dim n := by
  induction n with
  | zero => exact bfly8Rows_length m
  | succ n ih =>
    obtain ⟨h0, h1, h2, h3⟩ := quadrants_length (h := dim n) m h
    rw [sqt_succ]
    exact joinQuadrants_length _ (ih _ h0) (ih _ h2) (ih _ h1) (ih _ h3)

/-- The range of a store. -/
def storeRange (st : Store) : Range := { base := st.1, len := st.2.length }

theorem word8Stores_range (s : State) : s.word8Stores.map storeRange = [bufferRange s.operands 8] := by
  simp [State.word8Stores, storeRange, bufferRange]

theorem packedStores_range (s : State) :
    s.packedStores.map storeRange = [bufferRange s.operands packedBytes] := by
  simp [State.packedStores, storeRange, bufferRange]

theorem squareStores_range (z : Size) (s : State) :
    (State.squareStores z s).map storeRange = [bufferRange s.operands (blockBytes z)] := by
  have hl := sqt_length (level z)
    (Memory.rows s.mem s.operands.arg0.toNat (dim (level z)) (rowBytes z) (sizeBits z)) (by simp [sizeBits])
  simp only [State.squareStores, storeRange, bufferRange, List.map_cons, List.map_nil, bytesOfRows_length, hl]
  rfl

theorem kxnStores_range (z : Size) (s : State) :
    (State.kxnStores z s).map storeRange =
      [{ base := s.operands.arg0.toNat, len := contiguousBytes z (blockCount s.operands) }] := by
  simp [State.kxnStores, storeRange, contiguousBytes, blockBytes, Nat.mul_assoc]

theorem nxkStores_range (z : Size) (s : State) :
    (State.nxkStores z s).map storeRange =
      rowRanges (stringBytes z (blockCount s.operands))
        (tableEntries s.mem s.operands.arg0.toNat (sizeBits z)) := by
  apply List.ext_getElem
  · simp [State.nxkStores, rowRanges]
  · intro i h1 h2
    simp [State.nxkStores, rowRanges, storeRange]

/-- A store's range membership from a list of store ranges. -/
theorem mem_of_map_storeRange {sts : List Store} {ws : List Range} (h : sts.map storeRange = ws)
    {st : Store} (hst : st ∈ sts) : storeRange st ∈ ws := h ▸ List.mem_map_of_mem hst

end Sys2Proof.Laws
end

