-- ==== Sys2Proof/Laws/Datapath.lean ====
section
/-! SUPPORT. Bit lemmas of the datapath's parts: a stage, the lanes of a vector, rows and words, quadrants, and
lists of blocks. -/

namespace Sys2Proof.Laws

open Sys2Proof Sys2Proof.Machine

/-- Bit p of a stage's output (R110): t_p and t_(p+s) exclusive-or-ed into x_p. -/
theorem bstage_bit {w : Nat} (x m : BitVec w) (s p : Nat) (hp : p < w) :
    (bstage x s m).getLsbD p =
      (x.getLsbD p ^^ ((x.getLsbD p ^^ (decide (s ≤ p) && x.getLsbD (p - s))) && m.getLsbD p) ^^
        ((x.getLsbD (p + s) ^^ x.getLsbD p) && m.getLsbD (p + s))) := by
  simp only [bstage, BitVec.getLsbD_xor, BitVec.getLsbD_and, BitVec.getLsbD_ushiftRight,
    BitVec.getLsbD_shiftLeft, Nat.add_comm s p]
  by_cases h : p + s < w
  · by_cases h2 : s ≤ p
    · simp [hp, h, h2, Nat.not_lt.mpr h2]
    · simp [hp, h, h2, Nat.lt_of_not_le h2]
  · have : m.getLsbD (p + s) = false := BitVec.getLsbD_of_ge _ _ (by omega)
    by_cases h2 : s ≤ p
    · simp [hp, this, h2, Nat.not_lt.mpr h2]
    · simp [hp, this, h2, Nat.lt_of_not_le h2]

/-- A lane of a vector made of four lanes (R114). -/
theorem lane_lanes4 (a b c d : Word) (l : Nat) (hl : l < 4) :
    lane (lanes4 a b c d) l = [a, b, c, d].getD l 0 := by
  apply BitVec.eq_of_getLsbD_eq
  intro i hi
  have hz : ∀ (x : Word) k, 64 ≤ k → x.getLsbD k = false := fun x k h => BitVec.getLsbD_of_ge _ _ h
  simp only [lane, lanes4, BitVec.getLsbD_extractLsb', BitVec.getLsbD_or, BitVec.getLsbD_shiftLeft,
    BitVec.getLsbD_setWidth, hi]
  interval_cases l
  · simp [hi, show i < 128 by omega, show i < 192 by omega, show i < 256 by omega]
  · simp [hi, show 64 + i < 128 by omega, show 64 + i < 192 by omega, show 64 + i < 256 by omega,
      show i < 256 by omega]
  · simp [hi, show 128 + i < 192 by omega, show 128 + i < 256 by omega, show ¬128 + i < 64 by omega,
      show 128 + i - 64 = 64 + i by omega, show i < 256 by omega, hz a (128 + i) (by omega)]
  · simp [hi, show 192 + i < 256 by omega, show ¬192 + i < 64 by omega, show ¬192 + i < 128 by omega,
      show 192 + i - 64 = 128 + i by omega, show 192 + i - 128 = 64 + i by omega, show i < 256 by omega,
      hz a (192 + i) (by omega), hz b (128 + i) (by omega)]

/-- Row i, column j of the matrix in a word (R9). -/
theorem rowsOfWord_bit (w : Word) (i j : Nat) (hi : i < 8) (hj : j < 8) :
    ((rowsOfWord w).getD i 0).getLsbD j = w.getLsbD (8 * i + j) := by
  have := getLsbD_bytesOfNat 8 w.toNat (8 * i + j) (by omega)
  rw [show (8 * i + j) / 8 = i by omega, show (8 * i + j) % 8 = j by omega] at this
  exact this

/-- Bit t of the word of 8 one-byte rows (R61). -/
theorem wordOfRows_bit (m : List (BitVec 8)) (t : Nat) (ht : t < 64) :
    (wordOfRows m).getLsbD t = (m.getD (t / 8) 0).getLsbD (t % 8) := by
  rw [wordOfRows, BitVec.getLsbD_ofNat, testBit_natOfBytes]
  simp [ht]

/-- The bits of the four quadrants (R140). -/
theorem quadrants_bit {h : Nat} (m : List (BitVec (h + h))) (hm : m.length = h + h) (i j : Nat) (hi : i < h)
    (hj : j < h) :
    ((quadrants m).l0.getD i 0).getLsbD j = (m.getD i 0).getLsbD j ∧
    ((quadrants m).l1.getD i 0).getLsbD j = (m.getD i 0).getLsbD (h + j) ∧
    ((quadrants m).l2.getD i 0).getLsbD j = (m.getD (h + i) 0).getLsbD j ∧
    ((quadrants m).l3.getD i 0).getLsbD j = (m.getD (h + i) 0).getLsbD (h + j) := by
  have e1 : i < m.length := by omega
  have e2 : h + i < m.length := by omega
  simp [quadrants, List.getD, hi, e1, e2, lowHalf, highHalf, hj]

/-- The bits of four quadrants put together (R141). -/
theorem joinQuadrants_bit {h : Nat} (l : Lanes (List (BitVec h))) (h0 : l.l0.length = h) (h1 : l.l1.length = h)
    (h2 : l.l2.length = h) (h3 : l.l3.length = h) (i j : Nat) (hi : i < h + h) :
    ((joinQuadrants l).getD i 0).getLsbD j =
      if i < h then
        (if j < h then (l.l0.getD i 0).getLsbD j else (l.l1.getD i 0).getLsbD (j - h))
      else
        (if j < h then (l.l2.getD (i - h) 0).getLsbD j else (l.l3.getD (i - h) 0).getLsbD (j - h)) := by
  have hl : (List.zipWith (fun (hi lo : BitVec h) => hi ++ lo) l.l1 l.l0).length = h := by simp [h0, h1]
  unfold joinQuadrants
  by_cases hi' : i < h
  · rw [List.getD_append _ _ _ _ (by omega)]
    simp only [hi', if_true]
    have : (List.zipWith (fun (hi lo : BitVec h) => hi ++ lo) l.l1 l.l0).getD i 0 =
        l.l1.getD i 0 ++ l.l0.getD i 0 := by simp [List.getD, hi', h0, h1]
    rw [this, BitVec.getLsbD_append]
  · rw [List.getD_append_right _ _ _ _ (by omega), hl]
    simp only [hi', if_false]
    have hlt : i - h < h := by omega
    have : (List.zipWith (fun (hi lo : BitVec h) => hi ++ lo) l.l3 l.l2).getD (i - h) 0 =
        l.l3.getD (i - h) 0 ++ l.l2.getD (i - h) 0 := by simp [List.getD, hlt, h2, h3]
    rw [this, BitVec.getLsbD_append]

/-- Element r of block i of a list of equal blocks. -/
theorem getD_flatten {α : Type} (k : Nat) (ls : List (List α)) (d : α) (h : ∀ l ∈ ls, l.length = k) (i r : Nat)
    (hr : r < k) (hi : i < ls.length) : ls.flatten.getD (i * k + r) d = (ls.getD i []).getD r d := by
  induction ls generalizing i with
  | nil => simp at hi
  | cons l ls ih =>
    have hl : l.length = k := h l (by simp)
    rw [List.flatten_cons]
    cases i with
    | zero => rw [List.getD_append _ _ _ _ (by omega)]; simp
    | succ i =>
      have hq : (i + 1) * k + r = k + (i * k + r) := by ring
      rw [List.getD_append_right _ _ _ _ (by omega), hl, show (i + 1) * k + r - k = i * k + r by omega,
        ih (fun l hl => h l (by simp [hl])) i (by simpa using hi)]
      simp

theorem flatten_length_of_equal {α : Type} (k : Nat) (ls : List (List α)) (h : ∀ l ∈ ls, l.length = k) :
    ls.flatten.length = ls.length * k := by
  induction ls with
  | nil => simp
  | cons l ls ih => simp [h l (by simp), ih (fun l hl => h l (by simp [hl]))]; ring

/-- Bit r of digit i. -/
theorem natOfDigits_bit {k : Nat} (ds : List (BitVec k)) (i r : Nat) (hr : r < k) :
    (natOfDigits ds).testBit (i * k + r) = (ds.getD i 0).getLsbD r := by
  induction ds generalizing i with
  | nil => simp [natOfDigits]
  | cons d ds ih =>
    rw [natOfDigits, testBit_add_mul_pow k _ _ _ d.isLt]
    cases i with
    | zero => simp [hr, BitVec.getLsbD]
    | succ i =>
      have : (i + 1) * k + r = k + (i * k + r) := by ring
      rw [if_neg (by omega), show (i + 1) * k + r - k = i * k + r by omega, ih]
      simp

/-- Groups of four consecutive items are the items in order (R174). -/
theorem flatMap_groups_of_four {α : Type} (f : Nat → α) (q : Nat) :
    (List.range q).flatMap (fun b => [f (4 * b), f (4 * b + 1), f (4 * b + 2), f (4 * b + 3)]) =
      (List.range (4 * q)).map f := by
  induction q with
  | zero => rfl
  | succ q ih =>
    rw [List.range_succ, List.flatMap_append, ih, show 4 * (q + 1) = 4 * q + 1 + 1 + 1 + 1 by ring]
    simp only [List.range_succ, List.map_append]
    simp

end Sys2Proof.Laws
end

