-- ==== Sys2Proof/Laws/Exec.lean ====
section
/-! SUPPORT. One inversion lemma for `exec`: every command is its plan performed with its stores, and what
follows when it gives a next state. -/

namespace Sys2Proof.Laws

open Sys2Proof Sys2Proof.Machine

/-- The stores of a command's data phase. -/
def storesOf : Instr → State → List Store
  | .transpose8x8 | .transpose8x8Aligned => State.word8Stores
  | .transpose16x16 | .transpose16x16Aligned => State.squareStores .s16
  | .transpose32x32 | .transpose32x32Aligned => State.squareStores .s32
  | .transpose64x64 | .transpose64x64Aligned => State.squareStores .s64
  | .transpose128x128 | .transpose128x128Aligned => State.squareStores .s128
  | .transpose8x8Direct => fun _ => []
  | .transpose8x8PackedX4 | .transpose8x8PackedX4Aligned => State.packedStores
  | .transpose8xN => State.kxnStores .s8
  | .transpose16xN => State.kxnStores .s16
  | .transpose32xN => State.kxnStores .s32
  | .transpose64xN => State.kxnStores .s64
  | .transpose128xN => State.kxnStores .s128
  | .transposeNx8 => State.nxkStores .s8
  | .transposeNx16 => State.nxkStores .s16
  | .transposeNx32 => State.nxkStores .s32
  | .transposeNx64 => State.nxkStores .s64
  | .transposeNx128 => State.nxkStores .s128

theorem blockBytes_s8 : blockBytes .s8 = 8 := by decide

/-- Every command but the by-value one performs its plan with its stores. -/
theorem exec_eq_perform (i : Instr) (s : State) (h : i ≠ .transpose8x8Direct) :
    exec i s = s.perform (s.plan i.command) (storesOf i) := by
  cases i <;> first | rfl | exact absurd rfl h

/-- The by-value command (R115). -/
theorem exec_direct (s : State) :
    exec .transpose8x8Direct s = .next { s.completeOk with data := bfly8 s.operands.data } := rfl

/-- The stores of a command that accesses memory are exactly its write set (R68). -/
theorem storesOf_range {i : Instr} {s : State} {rs ws : List Range}
    (h : s.plan i.command = .access rs ws) : (storesOf i s).map storeRange = ws := by
  cases i <;> simp only [Instr.command, State.plan] at h
  case transpose8x8Direct => cases h
  case transpose8x8 | transpose8x8Aligned =>
    rw [(bufferPlan_access h).2.1, blockBytes_s8]; exact word8Stores_range s
  case transpose8x8PackedX4 | transpose8x8PackedX4Aligned =>
    rw [(bufferPlan_access h).2.1]; exact packedStores_range s
  case transpose16x16 | transpose16x16Aligned | transpose32x32 | transpose32x32Aligned |
      transpose64x64 | transpose64x64Aligned | transpose128x128 | transpose128x128Aligned =>
    rw [(bufferPlan_access h).2.1]; exact squareStores_range _ s
  case transpose8xN | transpose16xN | transpose32xN | transpose64xN | transpose128xN =>
    rw [(kxnPlan_access h).2.1]; exact kxnStores_range _ s
  case transposeNx8 | transposeNx16 | transposeNx32 | transposeNx64 | transposeNx128 =>
    rw [(nxkPlan_access h).2.1]; exact nxkStores_range _ s

/-- The write set of a command that accesses memory lies in the address space (R72). -/
theorem plan_writes_ok {k : Command} {s : State} {rs ws : List Range} (h : s.plan k = .access rs ws) :
    ∀ w ∈ ws, w.base + w.len ≤ 2 ^ 64 := by
  cases k with
  | d8 => cases h
  | sq z al =>
    obtain ⟨-, rfl, hr, -⟩ := bufferPlan_access h
    simpa [rangeOk] using hr
  | p8x4 al =>
    obtain ⟨-, rfl, hr, -⟩ := bufferPlan_access h
    simpa [rangeOk] using hr
  | kxn z =>
    obtain ⟨-, rfl, -, hr, -⟩ := kxnPlan_access h
    simpa using hr
  | nxk z =>
    obtain ⟨-, rfl, -, hr, -⟩ := nxkPlan_access h
    intro w hw
    obtain ⟨q, hq, rfl⟩ := List.mem_map.mp hw
    exact hr q hq

/-- Everything a command can do when it gives a next state: complete by value, complete with an error,
complete without touching memory, hang, or commit its stores. -/
theorem exec_next {i : Instr} {s t : State} (h : exec i s = .next t) :
    (i = .transpose8x8Direct ∧ t = { s.completeOk with data := bfly8 s.operands.data }) ∨
    (i ≠ .transpose8x8Direct ∧
      ((∃ c a rs, s.plan i.command = .error c a rs ∧ t = s.completeError c a) ∨
       (s.plan i.command = .nothing ∧ t = s.completeOk) ∨
       (t = s ∧ ((∃ rs, s.plan i.command = .hang rs) ∨
          ∃ rs ws, s.plan i.command = .access rs ws ∧ busHits s.platform .silent (rs ++ ws) = true)) ∨
       (∃ rs ws, s.plan i.command = .access rs ws ∧ busHits s.platform .faulting (rs ++ ws) = false ∧
          busHits s.platform .silent (rs ++ ws) = false ∧ t = s.commit ws (storesOf i s)))) := by
  by_cases hi : i = .transpose8x8Direct
  · subst hi
    rw [exec_direct] at h
    injection h with h
    exact .inl ⟨rfl, h.symm⟩
  · rw [exec_eq_perform i s hi] at h
    exact .inr ⟨hi, perform_next h⟩

/-- A commit keeps the canonical form of memory. -/
theorem commit_wf {i : Instr} {s : State} {rs ws : List Range} (h : s.plan i.command = .access rs ws)
    (hm : Memory.wf s.mem = true) : Memory.wf (s.commit ws (storesOf i s)).mem = true :=
  writeAll_wf hm fun _ hst => plan_writes_ok h _ (mem_of_map_storeRange (storesOf_range h) hst)

/-- A commit leaves every byte outside the write set alone. -/
theorem commit_outside {i : Instr} {s : State} {rs ws : List Range} (h : s.plan i.command = .access rs ws)
    (x : Nat) (hx : ∀ w ∈ ws, inRange w x = false) :
    Memory.byte (s.commit ws (storesOf i s)).mem x = Memory.byte s.mem x :=
  byte_writeAll_outside s.mem _ x fun _ hst => hx _ (mem_of_map_storeRange (storesOf_range h) hst)

/-! ### Who moves -/

/-- A given turn is taken. -/
theorem step_turn {s : State} {t : Turn} {ts : List Turn} (h : s.turns = t :: ts) :
    step s = State.take { s with turns := ts } t := by
  simp [step, State.advance, h]

/-- The unit's turn while BUSY runs the latched word. -/
theorem unitMove_ok {s : State} {l : Latch} {i : Instr} (h : s.latch = some l) (hd : decode l.cmd = .ok i) :
    s.unitMove = exec i s := by
  simp [State.unitMove, h, hd]

/-- The unit's turn while BUSY with an illegal word. -/
theorem unitMove_illegal {s : State} {l : Latch} {e : Illegal} (h : s.latch = some l)
    (hd : decode l.cmd = .error e) : s.unitMove = .next (s.completeError .illegalCmd 0) := by
  simp [State.unitMove, h, hd]

/-- An IDLE unit with no turn given leaves the move to the host. -/
theorem step_idle {s : State} (hb : s.busy = false) (ht : s.turns = []) : step s = s.hostMove := by
  simp [step, State.advance, ht, hb]

end Sys2Proof.Laws
end

