-- ==== Sys2Proof/Laws/Sets.lean ====
section
/-! SUPPORT. The sets that the operand forms compute are those of R68, and what they depend on. -/

namespace Sys2Proof.Laws

open Sys2Proof Sys2Proof.Machine

theorem blockCount_eq (o : OperandRegs) : blockCount o = o.arg2.toNat % 2 ^ 32 := by
  simp [blockCount]

theorem blockBytes_eq (z : Size) : blockBytes z = sizeBits z * sizeBits z / 8 := by cases z <;> rfl

theorem stringBytes_eq (z : Size) (n : Nat) : stringBytes z n = n * sizeBits z / 8 := by
  cases z <;> simp only [stringBytes, rowBytes, sizeBits, level, dim] <;> omega

theorem contiguousBytes_eq (z : Size) (n : Nat) : contiguousBytes z n = n * sizeBits z * sizeBits z / 8 := by
  cases z <;> simp only [contiguousBytes, blockBytes, rowBytes, sizeBits, level, dim] <;> omega

theorem mem_rowRanges {m : Memory} {t k n : Nat} {r : Range} :
    r ∈ rowRanges n (tableEntries m t k) ↔ ∃ j < k, r = { base := (tableEntry m t j).toNat, len := n } := by
  simp [rowRanges, tableEntries, eq_comm]

theorem mem_rectangularSet {s : State} {z : Size} {t b : Nat} {r : Range} :
    r ∈ s.rectangularSet z t b ↔ 0 < blockCount s.operands ∧
      (r = { base := t, len := 8 * sizeBits z } ∨ r = { base := b, len := contiguousBytes z (blockCount s.operands) } ∨
        ∃ j < sizeBits z, r = { base := (tableEntry s.mem t j).toNat, len := stringBytes z (blockCount s.operands) }) := by
  unfold State.rectangularSet
  by_cases h : blockCount s.operands = 0
  · simp [h]
  · simp only [h, if_false, List.mem_cons, mem_rowRanges, tableBytes, pointerBytes, Nat.pos_of_ne_zero h, true_and]

/-- The read and write sets of a command are those that R68 gives for its operands. -/
theorem mem_accessSet {s : State} {c : Command} {r : Range} :
    r ∈ s.accessSet c ↔ inAccessSet s.mem s.operands c r := by
  cases c <;> simp only [State.accessSet, inAccessSet, mem_rectangularSet, bufferRange, packedBytes, blockBytes_eq,
    contiguousBytes_eq, stringBytes_eq, blockCount_eq, List.mem_singleton, List.not_mem_nil]

/-- The write set of a command is the one that R68 gives for its operands. -/
theorem mem_writeSet {s : State} {c : Command} {r : Range} :
    r ∈ s.writeSet c ↔ inWriteSet s.mem s.operands c r := by
  cases c <;> simp only [State.writeSet, inWriteSet, mem_rowRanges, bufferRange, packedBytes, blockBytes_eq,
    contiguousBytes_eq, stringBytes_eq, blockCount_eq, List.mem_singleton, List.not_mem_nil]

/-- What a BUSY unit is performing. -/
theorem runningCommand_eq_some {s : State} {c : Command} :
    s.runningCommand = some c ↔ ∃ l i, s.latch = some l ∧ decode l.cmd = .ok i ∧ i.command = c := by
  unfold State.runningCommand
  cases hl : s.latch with
  | none => simp
  | some l => cases hd : decode l.cmd <;> simp [hd]

theorem mem_runningSet {s : State} {r : Range} :
    r ∈ s.runningSet ↔ ∃ l i, s.latch = some l ∧ decode l.cmd = .ok i ∧ inAccessSet s.mem l.ops i.command r := by
  unfold State.runningSet
  constructor
  · cases hc : s.runningCommand with
    | none => simp
    | some c =>
      obtain ⟨l, i, hl, hd, rfl⟩ := runningCommand_eq_some.mp hc
      exact fun h => ⟨l, i, hl, hd, operands_of_latch hl ▸ mem_accessSet.mp h⟩
  · rintro ⟨l, i, hl, hd, h⟩
    rw [runningCommand_eq_some.mpr ⟨l, i, hl, hd, rfl⟩]
    exact mem_accessSet.mpr (operands_of_latch hl ▸ h)

theorem mem_runningWriteSet {s : State} {r : Range} :
    r ∈ s.runningWriteSet ↔ ∃ l i, s.latch = some l ∧ decode l.cmd = .ok i ∧ inWriteSet s.mem l.ops i.command r := by
  unfold State.runningWriteSet
  constructor
  · cases hc : s.runningCommand with
    | none => simp
    | some c =>
      obtain ⟨l, i, hl, hd, rfl⟩ := runningCommand_eq_some.mp hc
      exact fun h => ⟨l, i, hl, hd, operands_of_latch hl ▸ mem_writeSet.mp h⟩
  · rintro ⟨l, i, hl, hd, h⟩
    rw [runningCommand_eq_some.mpr ⟨l, i, hl, hd, rfl⟩]
    exact mem_writeSet.mpr (operands_of_latch hl ▸ h)

/-- An IDLE unit is performing nothing. -/
theorem runningSet_idle {s : State} (h : s.latch = none) : s.runningSet = [] := by
  simp [State.runningSet, State.runningCommand, h]

@[simp] theorem completeOk_runningSet (s : State) : s.completeOk.runningSet = [] := rfl
@[simp] theorem completeError_runningSet (s : State) (c : ErrCode) (a : Word) :
    (s.completeError c a).runningSet = [] := rfl
@[simp] theorem commit_runningSet (s : State) (ws : List Range) (sts : List Store) :
    (s.commit ws sts).runningSet = [] := rfl
@[simp] theorem resetRegisters_runningSet (s : State) : s.resetRegisters.runningSet = [] := rfl

/-- The ranges of a write set start inside the address space. -/
theorem base_lt_of_mem_runningWriteSet {s : State} {r : Range} (h : r ∈ s.runningWriteSet) : r.base < 2 ^ 64 := by
  obtain ⟨l, i, -, -, hw⟩ := mem_runningWriteSet.mp h
  cases i <;> simp only [Instr.command, inWriteSet] at hw <;>
    first | exact hw.elim | (rw [hw]; exact BitVec.isLt _) | (obtain ⟨_, -, hw⟩ := hw; rw [hw]; exact BitVec.isLt _)

theorem tableEntries_congr {m m' : Memory} {t k : Nat}
    (h : ∀ x, inRange { base := t, len := 8 * k } x = true → Memory.byte m' x = Memory.byte m x) :
    tableEntries m' t k = tableEntries m t k := by
  refine List.map_congr_left fun j hj => congrArg (BitVec.ofNat 64) (readNat_congr fun x lo hi => h x ?_)
  simp only [List.mem_range, pointerBytes] at hj lo hi
  simp only [inRange, Bool.and_eq_true, decide_eq_true_eq]
  omega

theorem rectangularSet_congr {s t : State} {z : Size} {a b : Nat} (ho : t.operands = s.operands)
    (h : ∀ r ∈ s.rectangularSet z a b, ∀ x, inRange r x = true → Memory.byte t.mem x = Memory.byte s.mem x) :
    t.rectangularSet z a b = s.rectangularSet z a b := by
  unfold State.rectangularSet at h ⊢
  rw [ho]
  by_cases hn : blockCount s.operands = 0
  · simp [hn]
  · simp only [hn, if_false] at h ⊢
    rw [tableEntries_congr (h _ (.head _))]

/-- The running command's sets depend on its word, its operands and the bytes of its pointer table. -/
theorem runningSet_congr {s t : State} (hl : t.latch = s.latch)
    (h : ∀ r ∈ s.runningSet, ∀ x, inRange r x = true → Memory.byte t.mem x = Memory.byte s.mem x) :
    t.runningSet = s.runningSet := by
  have hc : t.runningCommand = s.runningCommand := by simp only [State.runningCommand, hl]
  unfold State.runningSet at h ⊢
  rw [hc]
  cases hr : s.runningCommand with
  | none => rfl
  | some c =>
    obtain ⟨l, i, hs, -⟩ := runningCommand_eq_some.mp hr
    have ho : t.operands = s.operands := by rw [operands_of_latch hs, operands_of_latch (hl.trans hs)]
    rw [hr] at h
    cases c <;> simp only [State.accessSet, ho] at h ⊢ <;> exact rectangularSet_congr ho h

/-! ### The bytes of a range -/

theorem mem_addressesOf {r : Range} {x : Nat} : x ∈ addressesOf r ↔ inRange r x = true := by
  simp only [addressesOf, inRange, List.mem_map, List.mem_range, Bool.and_eq_true, decide_eq_true_eq]
  constructor
  · rintro ⟨i, hi, rfl⟩
    omega
  · exact fun h => ⟨x - r.base, by omega, by omega⟩

/-- Clipping a range to the address space drops the addresses past it and no other. -/
theorem inRange_inSpace {r : Range} {x : Nat} : inRange (inSpace r) x = true ↔ inRange r x = true ∧ x < 2 ^ 64 := by
  change (decide (r.base ≤ x) && decide (x < r.base + min r.len (2 ^ 64 - r.base))) = true ↔ _
  simp only [inRange, Bool.and_eq_true, decide_eq_true_eq]
  omega

theorem mem_outside {as : List Nat} {r : Range} {x : Nat} : x ∈ outside as r ↔ x ∈ as ∧ inRange r x = false := by
  simp [outside]

/-- What the unit writes becomes stale for the host on a non-coherent platform, and nothing else does. -/
theorem mem_markStale {s : State} {ws : List Range} {x : Nat} :
    x ∈ s.markStale ws ↔ x ∈ s.stale ∨ (s.platform.coherent = false ∧ ∃ w ∈ ws, inRange w x = true) := by
  unfold State.markStale
  cases s.platform.coherent <;> simp [mem_addressesOf]

end Sys2Proof.Laws
end

