-- ==== Sys2Proof/Laws/Moves.lean ====
section
/-! SUPPORT. Who moves, when a host access stops, and everything a move can do when it gives a next state. -/

namespace Sys2Proof.Laws

open Sys2Proof Sys2Proof.Machine

/-! ### Who moves -/

/-- With no turn given, where either can move, the free value says which. -/
theorem step_eitherNext {s : State} (h : s.eitherNext) :
    step s = if Config.hostMovesFirst s.free then State.hostMove { s with free := s.free + 1 }
      else State.unitMove { s with free := s.free + 1 } := by
  obtain ⟨ht, hb, op, ops, hi, hw⟩ := h
  cases op <;> first | exact absurd rfl hw | simp only [step, State.advance, ht, hb, hi, if_true]

/-- The host's move, where it is the host's. -/
theorem step_hostNext {s u : State} (h : s.hostNext u) : step s = u.hostMove := by
  obtain ⟨ts, ht, rfl⟩ | ⟨ht, hl, rfl⟩ | ⟨he, hf, rfl⟩ := h
  · exact step_turn ht
  · exact step_idle (busy_eq_false hl) ht
  · rw [step_eitherNext he, if_pos hf]

/-- The unit's move, where it is the unit's. -/
theorem step_unitNext {s u : State} (h : s.unitNext u) : step s = u.unitMove := by
  obtain ⟨ts, ht, rfl⟩ | ⟨ht, hb, hi, rfl⟩ | ⟨he, hf, rfl⟩ := h
  · exact step_turn ht
  · obtain hi | ⟨ops, hi⟩ := hi <;> simp [step, State.advance, ht, hb, hi]
  · rw [step_eitherNext he, if_neg (by simp [hf])]

/-- The state moved from differs in the turns and the counter of free values alone. -/
theorem hostNext_eq {s u : State} (h : s.hostNext u) : ∃ ts f, u = { s with turns := ts, free := f } := by
  obtain ⟨ts, -, rfl⟩ | ⟨-, -, rfl⟩ | ⟨-, -, rfl⟩ := h
  exacts [⟨ts, _, rfl⟩, ⟨_, _, rfl⟩, ⟨_, _, rfl⟩]

theorem unitNext_eq {s u : State} (h : s.unitNext u) : ∃ ts f, u = { s with turns := ts, free := f } := by
  obtain ⟨ts, -, rfl⟩ | ⟨-, -, -, rfl⟩ | ⟨-, -, rfl⟩ := h
  exacts [⟨ts, _, rfl⟩, ⟨_, _, rfl⟩, ⟨_, _, rfl⟩]

/-- Where either can move, one of the two does. -/
theorem next_of_eitherNext {s : State} (h : s.eitherNext) :
    s.hostNext { s with free := s.free + 1 } ∨ s.unitNext { s with free := s.free + 1 } := by
  cases hf : Config.hostMovesFirst s.free
  · exact .inr (.inr (.inr ⟨h, hf, rfl⟩))
  · exact .inl (.inr (.inr ⟨h, hf, rfl⟩))

/-- The host's next operation, but for a poll to be repeated. -/
theorem hostMove_cons {s : State} {op : HostOp} {ops : List HostOp} (hi : s.inputs = op :: ops)
    (hw : op = .wait → s.busy = false) : s.hostMove = State.hostOp { s with inputs := ops } op := by
  unfold State.hostMove
  rw [hi]
  cases op <;> first | rfl | exact if_neg (by simp [hw rfl])

/-- A poll that reads BUSY = 1 (R96). -/
theorem hostMove_poll {s : State} {ops : List HostOp} (hi : s.inputs = .wait :: ops) (hb : s.busy = true) :
    s.hostMove = .next s := by
  unfold State.hostMove
  rw [hi]
  exact if_pos hb

/-! ### When a host access stops -/

/-- A host access goes on where it is memory inside the address space, off the sets to be left alone. -/
theorem hostStop_eq_none {s : State} {r : Range} :
    s.hostStop r = none ↔ r.base + r.len ≤ 2 ^ 64 ∧ overlaps r (windowOf s.platform) = false ∧
      busHits s.platform .device [r] = false ∧ ∀ q ∈ s.unobserved, overlaps r q = false := by
  have hk : r.base + r.len ≤ 2 ^ 64 ↔ rangeOk r = true := decide_eq_true_iff.symm
  rw [hk]
  by_cases h1 : rangeOk r = true <;> by_cases h2 : overlaps r (windowOf s.platform) = true <;>
    by_cases h3 : busHits s.platform .device [r] = true <;> simp [State.hostStop, State.races, h1, h2, h3]

/-- The race of R74. -/
theorem hostStop_race {s : State} {r q : Range} (hq : q ∈ s.unobserved) (ho : overlaps r q = true)
    (hr : r.base + r.len ≤ 2 ^ 64) (hw : overlaps r (windowOf s.platform) = false)
    (hd : busHits s.platform .device [r] = false) : s.hostStop r = some (.fault .hostRace) := by
  have h : s.races r = true := List.any_eq_true.mpr ⟨q, hq, ho⟩
  unfold State.hostStop
  rw [if_neg (by simpa [rangeOk] using hr), if_neg (by simp [hw, hd]), if_pos h]

/-! ### Everything a move can do -/

theorem stop_ne_next {w : Stop} {t : State} : w.outcome ≠ .next t := by
  cases w <;> simp [Stop.outcome]

/-- A host operation that goes on, with what it asks: a read or write of a whole register; a load, a store or a
cache operation on memory that `hostStop` allows and that is coherent. -/
theorem hostOp_next {s t : State} {op : HostOp} (h : s.hostOp op = .next t) :
    (∃ off, ((op = .wait ∧ off = 0x10) ∨ ∃ w, op = .rd off w ∧ wholeRegister off w = true) ∧ t = s.readBy off) ∨
    (∃ off w v, op = .wr off w v ∧ wholeRegister off w = true ∧ t = s.writeReg (regAt off) v) ∨
    (∃ a n, op = .load a n ∧ s.hostStop { base := a.toNat, len := n } = none ∧
      touches s.stale { base := a.toNat, len := n } = false ∧ t = s.observe (.mem a (s.mem.read a.toNat n))) ∨
    (∃ a bs, op = .store a bs ∧ s.hostStop { base := a.toNat, len := bs.length } = none ∧
      touches s.stale { base := a.toNat, len := bs.length } = false ∧
      t = { s with
        mem := s.mem.write a.toNat bs
        dirty := if s.platform.coherent then s.dirty
          else s.dirty ++ addressesOf { base := a.toNat, len := bs.length } }) ∨
    (∃ a n, op = .clean a n ∧ s.hostStop { base := a.toNat, len := n } = none ∧
      t = { s with dirty := outside s.dirty { base := a.toNat, len := n } }) ∨
    (∃ a n, op = .invalidate a n ∧ s.hostStop { base := a.toNat, len := n } = none ∧
      touches s.dirty { base := a.toNat, len := n } = false ∧
      t = { s with stale := outside s.stale { base := a.toNat, len := n } }) := by
  cases op with
  | rd off w =>
    simp only [State.hostOp, State.hostRd] at h
    split at h <;> cases h
    exact .inl ⟨off, .inr ⟨w, rfl, ‹_›⟩, rfl⟩
  | wr off w v =>
    simp only [State.hostOp, State.hostWr] at h
    split at h <;> cases h
    exact .inr (.inl ⟨off, w, v, rfl, ‹_›, rfl⟩)
  | wait =>
    cases h
    exact .inl ⟨_, .inl ⟨rfl, rfl⟩, rfl⟩
  | load a n =>
    simp only [State.hostOp, State.hostLoad] at h
    split at h
    · exact absurd h stop_ne_next
    · split at h <;> cases h
      exact .inr (.inr (.inl ⟨a, n, rfl, ‹_›, by simp_all, rfl⟩))
  | store a bs =>
    simp only [State.hostOp, State.hostStore] at h
    split at h
    · exact absurd h stop_ne_next
    · split at h <;> cases h
      exact .inr (.inr (.inr (.inl ⟨a, bs, rfl, ‹_›, by simp_all, rfl⟩)))
  | clean a n =>
    simp only [State.hostOp, State.hostClean] at h
    split at h
    · exact absurd h stop_ne_next
    · cases h
      exact .inr (.inr (.inr (.inr (.inl ⟨a, n, rfl, ‹_›, rfl⟩))))
  | invalidate a n =>
    simp only [State.hostOp, State.hostInvalidate] at h
    split at h
    · exact absurd h stop_ne_next
    · split at h <;> cases h
      exact .inr (.inr (.inr (.inr (.inr ⟨a, n, rfl, ‹_›, by simp_all, rfl⟩))))

/-- The host's move that goes on: nothing, or its next operation. -/
theorem hostMove_next {s t : State} (h : s.hostMove = .next t) :
    t = s ∨ ∃ op ops, s.inputs = op :: ops ∧ State.hostOp { s with inputs := ops } op = .next t := by
  cases hi : s.inputs with
  | nil =>
    rw [State.hostMove, hi] at h
    injection h with h
    exact .inl h.symm
  | cons op ops =>
    by_cases hw : op = .wait → s.busy = false
    · exact .inr ⟨op, ops, rfl, hostMove_cons hi hw ▸ h⟩
    · simp only [Classical.not_imp, Bool.not_eq_false] at hw
      obtain ⟨rfl, hb⟩ := hw
      rw [hostMove_poll hi hb] at h
      injection h with h
      exact .inl h.symm

/-- The unit's move that goes on: nothing, the decoded command, or the error of an illegal word. -/
theorem unitMove_next {s t : State} (h : s.unitMove = .next t) :
    (s.latch = none ∧ t = s) ∨ (∃ l i, s.latch = some l ∧ decode l.cmd = .ok i ∧ exec i s = .next t) ∨
    (s.busy = true ∧ t = s.completeError .illegalCmd 0) := by
  cases hl : s.latch with
  | none =>
    rw [State.unitMove, hl] at h
    injection h with h
    exact .inl ⟨rfl, h.symm⟩
  | some l =>
    cases hd : decode l.cmd with
    | ok i => exact .inr (.inl ⟨l, i, rfl, hd, unitMove_ok hl hd ▸ h⟩)
    | error e =>
      rw [unitMove_illegal hl hd] at h
      injection h with h
      exact .inr (.inr ⟨busy_eq_true hl, h.symm⟩)

/-- The reset input that goes on: of an IDLE unit registers alone; of a BUSY one the abandoned write set too. -/
theorem resetMove_next {s t : State} (h : s.resetMove = .next t) :
    (s.busy = false ∧ t = s.resetRegisters) ∨
    (s.busy = true ∧ t = { s.resetRegisters with
      mem := s.mem.writeAll (abandonedStores s.draw (s.runningWriteSet.map inSpace))
      stale := s.markStale (s.runningWriteSet.map inSpace), unobserved := [], inputs := [] }) := by
  unfold State.resetMove at h
  split at h
  · rename_i hb
    split at h
    · exact absurd h stop_ne_next
    · injection h with h
      exact .inr ⟨hb, h.symm⟩
  · rename_i hb
    injection h with h
    exact .inl ⟨by simpa using hb, h.symm⟩

/-- A step is one move, from the state less the turn taken and the free value drawn. -/
theorem step_moves {s : State} :
    ∃ ts f, let s' := { s with turns := ts, free := f }
      step s = s'.unitMove ∨ step s = s'.hostMove ∨ (step s = s'.resetMove ∧ s.turns = .reset :: ts) := by
  unfold step State.advance
  split
  · rename_i t ts ht
    refine ⟨ts, s.free, ?_⟩
    cases t
    · exact .inl rfl
    · exact .inr (.inl rfl)
    · exact .inr (.inr ⟨rfl, ht⟩)
  · repeat' split
    · exact ⟨s.turns, s.free, .inl rfl⟩
    · exact ⟨s.turns, s.free, .inl rfl⟩
    · exact ⟨s.turns, s.free + 1, .inr (.inl rfl)⟩
    · exact ⟨s.turns, s.free + 1, .inl rfl⟩
    · exact ⟨s.turns, s.free, .inr (.inl rfl)⟩

end Sys2Proof.Laws
end

