-- ==== Sys2Proof/Laws/PerInstr.lean ====
section
/-! SUPPORT. The family `Encoding` of LAWS.json: for each instruction, that its word is a legal one, comes
back from the decoder in both layouts, and has nothing above bit 7. -/

namespace Sys2Proof.Laws.Encoding

/-- The word of i is legal (R93), the decoder reads i from it as a word and as a table word, and RSV is 0
(R90). -/
def Statement (i : Instr) : Prop :=
  i.wellFormed = true ∧ decode (encode i) = .ok i ∧ decodeTableWord 64 (encode i).toNat = some i ∧
    (encode i).toNat < 256

theorem transpose8x8 : Statement .transpose8x8 := by unfold Statement; decide

theorem transpose8x8Aligned : Statement .transpose8x8Aligned := by unfold Statement; decide

theorem transpose16x16 : Statement .transpose16x16 := by unfold Statement; decide

theorem transpose16x16Aligned : Statement .transpose16x16Aligned := by unfold Statement; decide

theorem transpose32x32 : Statement .transpose32x32 := by unfold Statement; decide

theorem transpose32x32Aligned : Statement .transpose32x32Aligned := by unfold Statement; decide

theorem transpose64x64 : Statement .transpose64x64 := by unfold Statement; decide

theorem transpose64x64Aligned : Statement .transpose64x64Aligned := by unfold Statement; decide

theorem transpose128x128 : Statement .transpose128x128 := by unfold Statement; decide

theorem transpose128x128Aligned : Statement .transpose128x128Aligned := by unfold Statement; decide

theorem transpose8x8Direct : Statement .transpose8x8Direct := by unfold Statement; decide

theorem transpose8x8PackedX4 : Statement .transpose8x8PackedX4 := by unfold Statement; decide

theorem transpose8x8PackedX4Aligned : Statement .transpose8x8PackedX4Aligned := by unfold Statement; decide

theorem transpose8xN : Statement .transpose8xN := by unfold Statement; decide

theorem transpose16xN : Statement .transpose16xN := by unfold Statement; decide

theorem transpose32xN : Statement .transpose32xN := by unfold Statement; decide

theorem transpose64xN : Statement .transpose64xN := by unfold Statement; decide

theorem transpose128xN : Statement .transpose128xN := by unfold Statement; decide

theorem transposeNx8 : Statement .transposeNx8 := by unfold Statement; decide

theorem transposeNx16 : Statement .transposeNx16 := by unfold Statement; decide

theorem transposeNx32 : Statement .transposeNx32 := by unfold Statement; decide

theorem transposeNx64 : Statement .transposeNx64 := by unfold Statement; decide

theorem transposeNx128 : Statement .transposeNx128 := by unfold Statement; decide

end Sys2Proof.Laws.Encoding
end

