-- ==== Sys2Proof/Laws/Rectangular.lean ====
section
/-! SUPPORT. The plans of the rectangular commands where the operand checks pass and the table is readable, in
the terms of Safety.lean; and how the checks on a list of ranges depend on the list. -/

namespace Sys2Proof.Laws

open Sys2Proof Sys2Proof.Machine

/-! ### The block count -/

theorem blockCount_of_lt {o : OperandRegs} (h : o.arg2.toNat < 2 ^ 32) : blockCount o = o.arg2.toNat := by
  simp only [blockCount, BitVec.extractLsb'_toNat, Nat.shiftRight_zero]
  omega

theorem countOutOfRange_of_lt {o : OperandRegs} (h : o.arg2.toNat < 2 ^ 32) : countOutOfRange o = false := by
  have : o.arg2.extractLsb' 32 32 = 0 := by
    apply BitVec.eq_of_toNat_eq
    rw [BitVec.extractLsb'_toNat, Nat.shiftRight_eq_div_pow, Nat.div_eq_of_lt h]
    rfl
  simp [countOutOfRange, this]

theorem countOutOfRange_of_ge {o : OperandRegs} (h : 2 ^ 32 ≤ o.arg2.toNat) : countOutOfRange o = true := by
  have : o.arg2.extractLsb' 32 32 ≠ 0 := by
    intro he
    have := congrArg BitVec.toNat he
    have hlt := o.arg2.isLt
    rw [BitVec.extractLsb'_toNat, Nat.shiftRight_eq_div_pow] at this
    simp only [BitVec.toNat_ofNat, BitVec.ofNat_eq_ofNat] at this
    omega
  simpa [countOutOfRange] using this

/-! ### Lists of ranges -/

theorem pairwiseDisjoint_iff (l : List Range) :
    pairwiseDisjoint l = true ↔ l.Pairwise fun a b => overlaps a b = false := by
  induction l with
  | nil => simp [pairwiseDisjoint]
  | cons a l ih => simp [pairwiseDisjoint, ih]

theorem pairwiseDisjoint_range (k : Nat) (f : Nat → Range) :
    pairwiseDisjoint ((List.range k).map f) = true ↔ ∀ i < k, ∀ j < i, overlaps (f j) (f i) = false := by
  rw [pairwiseDisjoint_iff, List.pairwise_map, List.pairwise_iff_getElem]
  simp only [List.length_range, List.getElem_range]
  exact ⟨fun h i hi j hj => h j i (by omega) hi hj, fun h i j _ hj hij => h j hj i hij⟩

/-- A bus that answers for a list of ranges answers for a part of it. -/
theorem busHits_mono {p : Platform} {k : RegionKind} {a b : List Range} (h : ∀ x ∈ a, x ∈ b)
    (hb : busHits p k b = false) : busHits p k a = false := by
  simp only [busHits, List.any_eq_false, Bool.and_eq_true, not_and] at *
  intro g hg hk ha
  obtain ⟨x, hx, hov⟩ := List.any_eq_true.mp ha
  exact hb g hg hk (List.any_eq_true.mpr ⟨x, h x hx, hov⟩)

/-- The bus sees a list of ranges as a set. -/
theorem busHits_congr {p : Platform} {k : RegionKind} {a b : List Range} (h : ∀ x, x ∈ a ↔ x ∈ b) :
    busHits p k a = busHits p k b := by
  have e : ∀ q : Range → Bool, a.any q = b.any q := fun q => by
    rw [Bool.eq_iff_iff]
    simp [h]
  simp [busHits, e]

/-- The violations of R225 see a list of ranges as a set. -/
theorem stopOn_congr {s : State} {a b : List Range} (h : ∀ x, x ∈ a ↔ x ∈ b) : s.stopOn a = s.stopOn b := by
  have e : ∀ q : Range → Bool, a.any q = b.any q := fun q => by
    rw [Bool.eq_iff_iff]
    simp [h]
  simp [State.stopOn, busHits, e]

/-- A list of ranges with no violation has none in a part of it. -/
theorem stopOn_mono {s : State} {a b : List Range} (h : ∀ x ∈ a, x ∈ b) (hb : s.stopOn b = none) :
    s.stopOn a = none := by
  have e : ∀ q : Range → Bool, a.any q = true → b.any q = true := fun q hq => by
    obtain ⟨x, hx, hq⟩ := List.any_eq_true.mp hq
    exact List.any_eq_true.mpr ⟨x, h x hx, hq⟩
  simp only [State.stopOn] at hb ⊢
  split at hb
  · cases hb
  · rename_i h1
    split at hb
    · cases hb
    · rename_i h2
      split at hb
      · cases hb
      · rename_i h3
        rw [if_neg, if_neg, if_neg]
        · intro hd
          simp only [Bool.and_eq_true, List.any_eq_true] at hd
          obtain ⟨hc, x, hx, r, hr, hin⟩ := hd
          exact h3 (by simp only [Bool.and_eq_true, List.any_eq_true]; exact ⟨hc, x, hx, r, h r hr, hin⟩)
        · exact fun hd => h2 (e _ hd)
        · intro hd
          exact h1 (by
            by_contra hc
            simp [busHits_mono h (by simpa using hc)] at hd)

/-- A part of a clear list is clear. -/
theorem clear_mono {s : State} {a b : List Range} (h : ∀ x ∈ a, x ∈ b) (hb : s.clear b) : s.clear a :=
  ⟨stopOn_mono h hb.1, busHits_mono h hb.2.1, busHits_mono h hb.2.2⟩

/-! ### Tables -/

theorem forall_tableEntries {m : Memory} {t k : Nat} {p : Word → Prop} :
    (∀ q ∈ tableEntries m t k, p q) ↔ ∀ j < k, p (tableEntry m t j) := by
  simp [tableEntries]

theorem rowRanges_tableEntries (m : Memory) (z : Size) (n t : Nat) :
    rowRanges (stringBytes z n) (tableEntries m t (sizeBits z)) =
      (List.range (sizeBits z)).map (rowRangeAt m z n t) := by
  simp [rowRanges, tableEntries, rowRangeAt, stringBytes]

/-- The reads and writes of either rectangular command, as the set of Safety.lean. -/
theorem mem_rectRanges {s : State} {z : Size} {n t b : Nat} (x : Range) :
    x ∈ s.rectRanges z n t b ↔
      x = tableRange z t ∨ x = contiguousRange z n b ∨ x ∈ (List.range (sizeBits z)).map (rowRangeAt s.mem z n t) := by
  simp [State.rectRanges]

/-! ### Plans -/

/-- `transpose_<k>xN` with checks 1 to 6 of R218 passed: check 7, then the data phase. -/
theorem kxnPlan_of_table {s : State} {z : Size} {n t b : Nat} (hn : s.operands.arg2.toNat = n)
    (ht' : s.operands.arg1.toNat = t) (hb' : s.operands.arg0.toNat = b) (h0 : 0 < n) (h32 : n < 2 ^ 32)
    (hb : b % rowBytes z = 0) (ht : t % 8 = 0) (hbl : b + n * blockBytes z ≤ 2 ^ 64)
    (htl : t + 8 * sizeBits z ≤ 2 ^ 64) (hc : s.clear [tableRange z t]) :
    s.kxnPlan z =
      match entryError (rowBytes z) (stringBytes z n) (tableEntries s.mem t (sizeBits z)) with
      | some (c, a) => .error c a [tableRange z t]
      | none =>
        s.dataPlan
          (pairwiseDisjoint ((List.range (sizeBits z)).map (rowRangeAt s.mem z n t)) &&
            ((List.range (sizeBits z)).map (rowRangeAt s.mem z n t)).all
              (fun r => !overlaps (contiguousRange z n b) r) &&
            !overlaps (tableRange z t) (contiguousRange z n b))
          (tableRange z t :: (List.range (sizeBits z)).map (rowRangeAt s.mem z n t)) [contiguousRange z n b] := by
  subst hn ht' hb'
  rw [← rowRanges_tableEntries]
  simp only [State.kxnPlan, blockCount_of_lt h32, countOutOfRange_of_lt h32]
  have ho : operandError s.operands.arg0 (rowBytes z) (contiguousBytes z s.operands.arg2.toNat) s.operands.arg1
      pointerBytes (tableBytes z) = none := operandError_of_ok hb ht hbl htl
  rw [if_neg Bool.false_ne_true, if_neg (by omega), ho]
  exact tablePhase_of_clear (table := tableRange z _) hc.1 hc.2.1 hc.2.2

/-- `transpose_Nx<k>` with checks 1 to 6 of R218 passed: check 7, then the data phase. -/
theorem nxkPlan_of_table {s : State} {z : Size} {n t b : Nat} (hn : s.operands.arg2.toNat = n)
    (ht' : s.operands.arg0.toNat = t) (hb' : s.operands.arg1.toNat = b) (h0 : 0 < n) (h32 : n < 2 ^ 32)
    (hb : b % rowBytes z = 0) (ht : t % 8 = 0) (hbl : b + n * blockBytes z ≤ 2 ^ 64)
    (htl : t + 8 * sizeBits z ≤ 2 ^ 64) (hc : s.clear [tableRange z t]) :
    s.nxkPlan z =
      match entryError (rowBytes z) (stringBytes z n) (tableEntries s.mem t (sizeBits z)) with
      | some (c, a) => .error c a [tableRange z t]
      | none =>
        s.dataPlan
          (pairwiseDisjoint ((List.range (sizeBits z)).map (rowRangeAt s.mem z n t)) &&
            ((List.range (sizeBits z)).map (rowRangeAt s.mem z n t)).all
              (fun r => !overlaps (contiguousRange z n b) r) &&
            ((List.range (sizeBits z)).map (rowRangeAt s.mem z n t)).all (fun r => !overlaps (tableRange z t) r))
          [tableRange z t, contiguousRange z n b] ((List.range (sizeBits z)).map (rowRangeAt s.mem z n t)) := by
  subst hn ht' hb'
  rw [← rowRanges_tableEntries]
  simp only [State.nxkPlan, blockCount_of_lt h32, countOutOfRange_of_lt h32]
  have ho : operandError s.operands.arg0 pointerBytes (tableBytes z) s.operands.arg1 (rowBytes z)
      (contiguousBytes z s.operands.arg2.toNat) = none := operandError_of_ok ht hb htl hbl
  rw [if_neg Bool.false_ne_true, if_neg (by omega), ho]
  exact tablePhase_of_clear (table := tableRange z _) hc.1 hc.2.1 hc.2.2

/-! ### Committing -/

theorem exec_kxn (s : State) (z : Size) :
    exec (Command.kxn z).instr s = s.perform (s.kxnPlan z) (State.kxnStores z) := by cases z <;> rfl

theorem exec_nxk (s : State) (z : Size) :
    exec (Command.nxk z).instr s = s.perform (s.nxkPlan z) (State.nxkStores z) := by cases z <;> rfl

/-- `transpose_<k>xN` on operands as R67, R72 and R179 ask, on memory the platform answers, commits its stores. -/
theorem exec_kxn_commits {s : State} {z : Size} {n t b : Nat} (hn : s.operands.arg2.toNat = n)
    (ht : s.operands.arg1.toNat = t) (hb : s.operands.arg0.toNat = b) (hok : s.rectOperandsOk z n t b)
    (hov : overlaps (tableRange z t) (contiguousRange z n b) = false) (hcl : s.clear (s.rectRanges z n t b)) :
    exec (Command.kxn z).instr s = .next (s.commit [contiguousRange z n b] (State.kxnStores z s)) := by
  obtain ⟨h0, h32, hba, hta, hbl, htl, ha, hr, hdis, hbuf⟩ := hok
  have hpl := kxnPlan_of_table hn ht hb h0 h32 hba hta hbl htl (clear_mono (by simp [State.rectRanges]) hcl)
  have hmem : ∀ x, x ∈ (tableRange z t :: (List.range (sizeBits z)).map (rowRangeAt s.mem z n t)) ++
      [contiguousRange z n b] ↔ x ∈ s.rectRanges z n t b := by
    intro x
    rw [mem_rectRanges]
    simp only [List.cons_append, List.mem_cons, List.mem_append, List.not_mem_nil, or_false]
    tauto
  have he : entryError (rowBytes z) (stringBytes z n) (tableEntries s.mem t (sizeBits z)) = none :=
    entryError_eq_none.mpr (forall_tableEntries.mpr fun j hj => ⟨ha j hj, hr j hj⟩)
  simp only [he, State.dataPlan, stopOn_congr hmem, hcl.1] at hpl
  rw [if_pos] at hpl
  · rw [exec_kxn, hpl]
    exact perform_access (by rw [busHits_congr hmem]; exact hcl.2.1) (by rw [busHits_congr hmem]; exact hcl.2.2)
  · simp only [Bool.and_eq_true, List.all_eq_true, List.mem_map, List.mem_range, Bool.not_eq_true']
    refine ⟨⟨(pairwiseDisjoint_range _ _).mpr hdis, ?_⟩, hov⟩
    rintro _ ⟨j, hj, rfl⟩
    exact hbuf j hj

/-- `transpose_Nx<k>` on operands as R67, R72 and R179 ask, on memory the platform answers, commits its stores. -/
theorem exec_nxk_commits {s : State} {z : Size} {n t b : Nat} (hn : s.operands.arg2.toNat = n)
    (ht : s.operands.arg0.toNat = t) (hb : s.operands.arg1.toNat = b) (hok : s.rectOperandsOk z n t b)
    (hov : ∀ j < sizeBits z, overlaps (tableRange z t) (rowRangeAt s.mem z n t j) = false)
    (hcl : s.clear (s.rectRanges z n t b)) :
    exec (Command.nxk z).instr s =
      .next (s.commit ((List.range (sizeBits z)).map (rowRangeAt s.mem z n t)) (State.nxkStores z s)) := by
  obtain ⟨h0, h32, hba, hta, hbl, htl, ha, hr, hdis, hbuf⟩ := hok
  have hpl := nxkPlan_of_table hn ht hb h0 h32 hba hta hbl htl (clear_mono (by simp [State.rectRanges]) hcl)
  have hmem : ∀ x, x ∈ [tableRange z t, contiguousRange z n b] ++
      (List.range (sizeBits z)).map (rowRangeAt s.mem z n t) ↔ x ∈ s.rectRanges z n t b := by
    intro x
    rw [mem_rectRanges]
    simp only [List.cons_append, List.mem_cons, List.nil_append]
  have he : entryError (rowBytes z) (stringBytes z n) (tableEntries s.mem t (sizeBits z)) = none :=
    entryError_eq_none.mpr (forall_tableEntries.mpr fun j hj => ⟨ha j hj, hr j hj⟩)
  simp only [he, State.dataPlan, stopOn_congr hmem, hcl.1] at hpl
  rw [if_pos] at hpl
  · rw [exec_nxk, hpl]
    exact perform_access (by rw [busHits_congr hmem]; exact hcl.2.1) (by rw [busHits_congr hmem]; exact hcl.2.2)
  · simp only [Bool.and_eq_true, List.all_eq_true, List.mem_map, List.mem_range, Bool.not_eq_true']
    refine ⟨⟨(pairwiseDisjoint_range _ _).mpr hdis, ?_⟩, ?_⟩ <;> rintro _ ⟨j, hj, rfl⟩
    · exact hbuf j hj
    · exact hov j hj

end Sys2Proof.Laws
end

