-- ==== Sys2Proof/Tests/Slice0.lean ====
section
/-! SUPPORT. Tests on single steps, with expected values from 95_test_vectors.md (the vector's id stands with
each), decoding of words written out from R90 and R99, the ill-formed terms that the checks refuse, and
the witnesses that meet the hypotheses of the obligations. -/

open Sys2Proof Sys2Proof.Machine

namespace Sys2Proof.Tests

/-! ### Small states -/

/-- The reset state with memory, operands and a command latched, the unit to move. -/
def ready (m : Memory) (a0 a1 a2 d w : Word) : State :=
  State.withFetchWord { State.reset with mem := m, arg0 := a0, arg1 := a1, arg2 := a2, data := d } 64 w.toNat

/-- The outcome is a next state with this STATUS word and this ERRADDR. -/
def ends (o : Host.Outcome State Fault Refusal) (status err : Word) : Bool :=
  match o with
  | .next t    => t.readReg .status == status && t.errAddr == err
  | .fault _   => false
  | .refused _ => false

/-- The outcome is a next state with DONE and no error, and these bytes at an address. -/
def leaves (o : Host.Outcome State Fault Refusal) (a : Nat) (bs : List Byte) : Bool :=
  match o with
  | .next t    => t.readReg .status == 2 && t.errAddr == 0 && t.mem.read a bs.length == bs
  | .fault _   => false
  | .refused _ => false

/-- The next state of an outcome, or the given one where it stops. -/
def nextOr (o : Host.Outcome State Fault Refusal) (d : State) : State :=
  match o with
  | .next t    => t
  | .fault _   => d
  | .refused _ => d

/-- The outcome is a next state. -/
def isNext (o : Host.Outcome State Fault Refusal) : Bool :=
  match o with
  | .next _    => true
  | .fault _   => false
  | .refused _ => false

theorem eq_next_of_isNext (o : Host.Outcome State Fault Refusal) (d : State) (h : isNext o = true) :
    o = .next (nextOr o d) := by
  cases o <;> simp_all [isNext, nextOr]

/-- A pointer table's cells: entry j is `base + stride * j`. -/
def table (base stride k : Nat) : List Byte :=
  (List.range k).flatMap fun j => bytesOfNat 8 (base + stride * j)

/-- Q1, input. -/
def q1In : List Byte :=
  [0x34, 0x12, 0x77, 0x33, 0xD8, 0x72, 0x57, 0xD0, 0xF4, 0x4B, 0xAF, 0xE5, 0x88, 0x9D, 0x7F, 0x73,
   0x94, 0x67, 0xC7, 0x79, 0x18, 0xAA, 0x87, 0xF8, 0x14, 0x65, 0xBF, 0xEF, 0x88, 0x98, 0x6F, 0x5F]

/-- Q1, output. -/
def q1Out : List Byte :=
  [0xAA, 0xAA, 0xAA, 0xAA, 0xBB, 0xBB, 0xE4, 0xE4, 0x9F, 0x35, 0xB3, 0xA0, 0x9E, 0x82, 0x74, 0x6B,
   0xF2, 0xB3, 0x97, 0xA5, 0x60, 0xB1, 0x50, 0xEE, 0xCF, 0xCA, 0xA6, 0x3F, 0xBC, 0xBB, 0x68, 0x6C]

/-- B26, input. -/
def b26In : List Byte :=
  [0xEF, 0xBE, 0xAD, 0xDE, 0x47, 0x42, 0x37, 0x13, 0xFF, 0x00, 0x00, 0x00, 0x00, 0x00, 0x00, 0x00,
   0x01, 0x02, 0x04, 0x08, 0x10, 0x20, 0x40, 0x80, 0x00, 0x00, 0x00, 0x00, 0xFF, 0xFF, 0xFF, 0xFF]

/-- B26, output. -/
def b26Out : List Byte :=
  [0xD5, 0xFB, 0x5F, 0x0F, 0xCA, 0x47, 0x39, 0x0F, 0x01, 0x01, 0x01, 0x01, 0x01, 0x01, 0x01, 0x01,
   0x01, 0x02, 0x04, 0x08, 0x10, 0x20, 0x40, 0x80, 0xF0, 0xF0, 0xF0, 0xF0, 0xF0, 0xF0, 0xF0, 0xF0]

/-- RV1, output. -/
def rv1Out : List Byte :=
  [0x00, 0x00, 0x00, 0x00, 0xAA, 0xCC, 0xF0, 0x00, 0xFF, 0x00, 0x00, 0x00, 0xAA, 0xCC, 0xF0, 0x00,
   0x00, 0xFF, 0x00, 0x00, 0xAA, 0xCC, 0xF0, 0x00, 0xFF, 0xFF, 0x00, 0x00, 0xAA, 0xCC, 0xF0, 0x00,
   0x00, 0x00, 0xFF, 0x00, 0xAA, 0xCC, 0xF0, 0x00]

/-- Q11, output rows. -/
def q11Out : List (BitVec 32) :=
  [0x00000000, 0x00000000, 0xAAAAAAAA, 0xCCCCCCCC, 0xF0F0F0F0, 0xFF00FF00, 0xFFFF0000, 0x00000000,
   0xFFFFFFFF, 0x00000000, 0xAAAAAAAA, 0xCCCCCCCC, 0xF0F0F0F0, 0xFF00FF00, 0xFFFF0000, 0x00000000,
   0x00000000, 0xFFFFFFFF, 0xAAAAAAAA, 0xCCCCCCCC, 0xF0F0F0F0, 0xFF00FF00, 0xFFFF0000, 0x00000000,
   0xFFFFFFFF, 0xFFFFFFFF, 0xAAAAAAAA, 0xCCCCCCCC, 0xF0F0F0F0, 0xFF00FF00, 0xFFFF0000, 0x00000000]

/-! ### The checks refuse ill-formed terms (R40, R72, R93) -/

theorem test_wf_command : CmdFields.legal { opc := 1, sz := 4, al := 1, rsv := 0 } = true := by decide
theorem test_illformed_reserved : CmdFields.legal { opc := 1, sz := 0, al := 0, rsv := 1 } = false := by decide
theorem test_illformed_square_size : CmdFields.legal { opc := 1, sz := 5, al := 0, rsv := 0 } = false := by decide
theorem test_illformed_direct_size : CmdFields.legal { opc := 2, sz := 1, al := 0, rsv := 0 } = false := by decide
theorem test_illformed_direct_aligned : CmdFields.legal { opc := 2, sz := 0, al := 1, rsv := 0 } = false := by decide
theorem test_illformed_packed_size : CmdFields.legal { opc := 3, sz := 1, al := 0, rsv := 0 } = false := by decide
theorem test_illformed_kxn_aligned : CmdFields.legal { opc := 4, sz := 0, al := 1, rsv := 0 } = false := by decide
theorem test_illformed_kxn_size : CmdFields.legal { opc := 4, sz := 5, al := 0, rsv := 0 } = false := by decide
theorem test_illformed_nxk_aligned : CmdFields.legal { opc := 5, sz := 0, al := 1, rsv := 0 } = false := by decide
theorem test_illformed_nxk_size : CmdFields.legal { opc := 5, sz := 7, al := 0, rsv := 0 } = false := by decide
theorem test_illformed_opcode : CmdFields.legal { opc := 0, sz := 0, al := 0, rsv := 0 } = false := by decide
theorem test_illformed_access : wholeRegister 0x10 4 = false ∧ wholeRegister 0x14 8 = false := by decide
theorem test_illformed_host_operation :
    HostOp.wellFormed (.rd 0x10 4) = false ∧ HostOp.wellFormed (.wr 0x1C 8 0) = false ∧
    HostOp.wellFormed (.load 0xFFFFFFFFFFFFFFFF 2) = false ∧
    HostOp.wellFormed (.store 0xFFFFFFFFFFFFFFFF [0, 0]) = false ∧
    HostOp.wellFormed (.clean 0xFFFFFFFFFFFFFFFF 2) = false ∧
    HostOp.wellFormed (.invalidate 0xFFFFFFFFFFFFFFFF 2) = false := by decide

/-! ### Decoding, from the words of R99 written as OPC | SZ << 4 | AL << 7 -/

theorem test_decode_transpose_8x8 : decode 0b0_000_0001 = .ok .transpose8x8 := by decide
theorem test_decode_transpose_8x8_aligned : decode 0b1_000_0001 = .ok .transpose8x8Aligned := by decide
theorem test_decode_transpose_16x16 : decode 0b0_001_0001 = .ok .transpose16x16 := by decide
theorem test_decode_transpose_16x16_aligned : decode 0b1_001_0001 = .ok .transpose16x16Aligned := by decide
theorem test_decode_transpose_32x32 : decode 0b0_010_0001 = .ok .transpose32x32 := by decide
theorem test_decode_transpose_32x32_aligned : decode 0b1_010_0001 = .ok .transpose32x32Aligned := by decide
theorem test_decode_transpose_64x64 : decode 0b0_011_0001 = .ok .transpose64x64 := by decide
theorem test_decode_transpose_64x64_aligned : decode 0b1_011_0001 = .ok .transpose64x64Aligned := by decide
theorem test_decode_transpose_128x128 : decode 0b0_100_0001 = .ok .transpose128x128 := by decide
theorem test_decode_transpose_128x128_aligned : decode 0b1_100_0001 = .ok .transpose128x128Aligned := by decide
theorem test_decode_transpose_8x8_direct : decode 0b0_000_0010 = .ok .transpose8x8Direct := by decide
theorem test_decode_transpose_8x8_packed_x4 : decode 0b0_000_0011 = .ok .transpose8x8PackedX4 := by decide
theorem test_decode_transpose_8x8_packed_x4_aligned : decode 0b1_000_0011 = .ok .transpose8x8PackedX4Aligned := by decide
theorem test_decode_transpose_8xN : decode 0b0_000_0100 = .ok .transpose8xN := by decide
theorem test_decode_transpose_16xN : decode 0b0_001_0100 = .ok .transpose16xN := by decide
theorem test_decode_transpose_32xN : decode 0b0_010_0100 = .ok .transpose32xN := by decide
theorem test_decode_transpose_64xN : decode 0b0_011_0100 = .ok .transpose64xN := by decide
theorem test_decode_transpose_128xN : decode 0b0_100_0100 = .ok .transpose128xN := by decide
theorem test_decode_transpose_Nx8 : decode 0b0_000_0101 = .ok .transposeNx8 := by decide
theorem test_decode_transpose_Nx16 : decode 0b0_001_0101 = .ok .transposeNx16 := by decide
theorem test_decode_transpose_Nx32 : decode 0b0_010_0101 = .ok .transposeNx32 := by decide
theorem test_decode_transpose_Nx64 : decode 0b0_011_0101 = .ok .transposeNx64 := by decide
theorem test_decode_transpose_Nx128 : decode 0b0_100_0101 = .ok .transposeNx128 := by decide

/-- 95_test_vectors.md §5: the ILLEGAL words. -/
theorem test_decode_illegal_words :
    ([0x00, 0x06, 0x0F, 0x51, 0xD1, 0x61, 0x71, 0x82, 0x12, 0x13, 0x93, 0x84, 0x85, 0x54, 0x101,
      0x8000000000000001].map (decodeTableWord 64)).all Option.isNone = true := by decide

theorem test_decode_why :
    decode 0x06 = .error .opcode ∧ decode 0x51 = .error .sizeCode ∧ decode 0x82 = .error .form ∧
    decode 0x101 = .error .reservedBits := by decide

/-- A command word has one length (R90). -/
theorem test_decode_short : decodeBytes [0x01, 0, 0, 0, 0, 0, 0] = .error .short := by decide

/-- 95_test_vectors.md §5: the two aliases it names. -/
theorem test_aliases :
    assembleName "transpose_32x32_inplace_aligned" = some 0xA1 ∧
    assembleName "transpose_8x8_packed_x4_inplace" = some 0x03 := by decide

/-- P1's encoding. -/
theorem test_encoding_p1 :
    encoding (Asm.direct 0x13374247DEADBEEF).expand = [(0x38, 0x13374247DEADBEEF), (0x18, 0x02)] := by decide

/-! ### 8×8 family -/

/-- §2.1: the values after each stage. -/
theorem test_stages :
    bstage 0x13374247DEADBEEF 7 mask1 = 0x133703C5DEADFF6D ∧
    bstage 0x133703C5DEADFF6D 14 mask2 = 0x00354FCDFF9F7BA5 ∧
    bstage 0x00354FCDFF9F7BA5 28 mask4 = (0x0F3947CA0F5FFBD5 : Word) := by decide

/-- B1, B5, B6, B10, B11, B14, B16. -/
theorem test_bfly8_vectors :
    bfly8 0x13374247DEADBEEF = 0x0F3947CA0F5FFBD5 ∧ bfly8 0x00000000000000FF = 0x0101010101010101 ∧
    bfly8 0x0000000000000002 = 0x0000000000000100 ∧ bfly8 0xFFFFFFFF00000000 = 0xF0F0F0F0F0F0F0F0 ∧
    bfly8 0xAAAAAAAAAAAAAAAA = 0xFF00FF00FF00FF00 ∧ bfly8 0x0123456789ABCDEF = 0x0F3355000F3355FF ∧
    bfly8 0x00000000000000F0 = 0x0101010100000000 := by decide

/-- B20. -/
theorem test_direct :
    (nextOr (step (ready [] 0 0 0 0x13374247DEADBEEF 0x02)) State.reset).data = 0x0F3947CA0F5FFBD5 ∧
    ends (step (ready [] 0 0 0 0x13374247DEADBEEF 0x02)) 0x2 0 = true := by decide

/-- B21: no alignment is needed. -/
theorem test_8x8 :
    leaves (step (ready (Memory.write [] 0x1003 [0xEF, 0xBE, 0xAD, 0xDE, 0x47, 0x42, 0x37, 0x13]) 0x1003 0 0 0 0x01))
      0x1003 ([0xD5, 0xFB, 0x5F, 0x0F, 0xCA, 0x47, 0x39, 0x0F]) = true := by decide

/-- B24: the range ends exactly at 2^64. -/
theorem test_8x8_top :
    leaves (step (ready ([(0xFFFFFFFFFFFFFFF8, 0xFF)]) 0xFFFFFFFFFFFFFFF8 0 0 0 0x01))
      0xFFFFFFFFFFFFFFF8 (List.replicate 8 0x01) = true := by decide

/-- B22. -/
theorem test_8x8_aligned :
    leaves (step (ready (Memory.write [] 0x1000 [0xEF, 0xBE, 0xAD, 0xDE, 0x47, 0x42, 0x37, 0x13]) 0x1000 0 0 0 0x81))
      0x1000 ([0xD5, 0xFB, 0x5F, 0x0F, 0xCA, 0x47, 0x39, 0x0F]) = true := by decide

/-- B23. -/
theorem test_8x8_aligned_misaligned :
    ends (step (ready ([]) 0x1008 0 0 0 0x81)) 0x304 0x1008 = true := by decide

/-- B25. -/
theorem test_8x8_range :
    ends (step (ready ([]) 0xFFFFFFFFFFFFFFF9 0 0 0 0x01)) 0x404 0xFFFFFFFFFFFFFFF9 = true := by decide

/-- B26. -/
theorem test_packed :
    leaves (step (ready (Memory.write [] 0x2004 b26In) 0x2004 0 0 0 0x03))
      0x2004 (b26Out) = true := by decide

/-- B29. -/
theorem test_packed_range :
    ends (step (ready ([]) 0xFFFFFFFFFFFFFFE8 0 0 0 0x03)) 0x404 0xFFFFFFFFFFFFFFE8 = true := by decide

/-- B27. -/
theorem test_packed_aligned :
    leaves (step (ready (Memory.write [] 0x2000 b26In) 0x2000 0 0 0 0x83))
      0x2000 (b26Out) = true := by decide

/-- B28. -/
theorem test_packed_aligned_misaligned :
    ends (step (ready ([]) 0x1 0 0 0 0x83)) 0x304 0x1 = true := by decide

/-! ### Square family -/

/-- Q8. -/
theorem test_16x16 :
    leaves (step (ready (Memory.write [] 0x1001 q1In) 0x1001 0 0 0 0x11))
      0x1001 (q1Out) = true := by decide

/-- Q8. -/
theorem test_16x16_aligned :
    leaves (step (ready (Memory.write [] 0x1000 q1In) 0x1000 0 0 0 0x91))
      0x1000 (q1Out) = true := by decide

/-- Q11. -/
theorem test_32x32 :
    leaves (step (ready (Memory.write [] 0x1010 ((List.range 128).map (BitVec.ofNat 8))) 0x1010 0 0 0 0x21))
      0x1010 (bytesOfRows 4 q11Out) = true := by decide +kernel

/-- Q12. -/
theorem test_32x32_aligned_misaligned :
    ends (step (ready ([]) 0x1010 0 0 0 0xA1)) 0x304 0x1010 = true := by decide

/-- Q13. -/
theorem test_32x32_aligned_range :
    ends (step (ready ([]) 0xFFFFFFFFFFFFFFE0 0 0 0 0xA1)) 0x404 0xFFFFFFFFFFFFFFE0 = true := by decide

/-- Q14: row 0 all ones makes every row 1. -/
theorem test_64x64 :
    leaves (step (ready (Memory.write [] 0x8001 (List.replicate 8 0xFF)) 0x8001 0 0 0 0x31))
      0x8001 ((List.replicate 64 (bytesOfNat 8 1)).flatten) = true := by decide +kernel

/-- R214 (a). -/
theorem test_64x64_aligned_misaligned :
    ends (step (ready ([]) 0x8010 0 0 0 0xB1)) 0x304 0x8010 = true := by decide

/-- S2: the all-zero matrix is a fixed point. -/
theorem test_128x128 :
    ends (step (ready [] 0x8000 0 0 0 0x41)) 0x2 0 = true ∧
    (nextOr (step (ready [] 0x8000 0 0 0 0x41)) (ready [] 1 0 0 0 1)).mem = [] := by decide +kernel

/-- R214 (a). -/
theorem test_128x128_aligned_misaligned :
    ends (step (ready ([]) 0x8010 0 0 0 0xC1)) 0x304 0x8010 = true := by decide

/-! ### Rectangular family -/

/-- RV1's source strings and their pointer table (P3's layout). -/
def rv1Mem : Memory :=
  Memory.writeAll [] ((List.range 8).map (fun j => (0x2000 + 0x10 * j, (List.range 5).map fun i => BitVec.ofNat 8 (16 * j + i)))
    ++ [(0x3000, table 0x2000 0x10 8)])

/-- RV3's source rows `1 << j` and their pointer table. -/
def rv3Mem : Memory :=
  Memory.writeAll [] ((List.range 16).map (fun j => (0x2000 + 2 * j, bytesOfNat 2 (2 ^ j))) ++ [(0x3000, table 0x2000 2 16)])

/-- RV2's two blocks and a destination table. -/
def rv2Mem : Memory :=
  Memory.writeAll [] [(0x4000, bytesOfNat 8 0x13374247DEADBEEF), (0x4008, bytesOfNat 8 0xFF), (0x3100, table 0x5000 0x10 8)]

/-- RV1. -/
theorem test_8xN :
    leaves (step (ready (rv1Mem) 0x4000 0x3000 5 0 0x04))
      0x4000 (rv1Out) = true := by decide

/-- RV3. -/
theorem test_16xN :
    leaves (step (ready (rv3Mem) 0x4000 0x3000 1 0 0x14))
      0x4000 ((List.range 16).flatMap fun j => bytesOfNat 2 (2 ^ j)) = true := by decide +kernel

/-- RV7. -/
theorem test_32xN :
    leaves (step (ready (Memory.writeAll [] ((List.range 32).map (fun j => (0x2000 + 8 * j, bytesOfNat 8 (2 ^ j + 2 ^ (32 + j)))) ++ [(0x3000, table 0x2000 8 32)])) 0x4000 0x3000 2 0 0x24))
      0x4000 ((List.range 64).flatMap fun r => bytesOfNat 4 (2 ^ (r % 32))) = true := by decide +kernel

/-- RV5. -/
theorem test_64xN :
    leaves (step (ready (Memory.writeAll [] [(0x2000, List.replicate 8 0xFF), (0x3000, table 0x2000 8 64)]) 0x4000 0x3000 1 0 0x34))
      0x4000 ((List.replicate 64 (bytesOfNat 8 1)).flatten) = true := by decide +kernel

/-- RV6: N = 0 makes no check and no access, whatever the operands. -/
theorem test_128xN_zero_blocks :
    ends (step (ready [] 0xFFFFFFFFFFFFFFFF 0xFFFFFFFFFFFFFFFF 0 0 0x44)) 0x2 0 = true := by decide

/-- RV2: strings 0 and 1. -/
theorem test_Nx8 :
    leaves (step (ready (rv2Mem) 0x3100 0x4000 2 0 0x05))
      0x5000 ([0xD5, 0x01] ++ List.replicate 14 0 ++ [0xFB, 0x01]) = true := by decide

/-- RV9. -/
theorem test_Nx16 :
    leaves (step (ready (Memory.writeAll [] [(0x4000, [0xFF, 0xFF]), (0x3000, table 0x5000 2 16)]) 0x3000 0x4000 1 0 0x15))
      0x5000 ((List.replicate 16 [(0x01 : Byte), 0x00]).flatten) = true := by decide +kernel

/-- RV8. -/
theorem test_Nx32 :
    leaves (step (ready (Memory.writeAll [] [(0x4000, (List.range 64).flatMap fun r => bytesOfNat 4 (2 ^ (r % 32))), (0x3000, table 0x5000 8 32)]) 0x3000 0x4000 2 0 0x25))
      0x5000 ((List.range 32).flatMap fun j => bytesOfNat 8 (2 ^ j + 2 ^ (32 + j))) = true := by decide +kernel

/-- R214 (d): entry 0 is no multiple of 8, found before any data access. -/
theorem test_Nx64_entry_misaligned :
    ends (step (ready (Memory.write [] 0x3000 (table 0x5004 8 64)) 0x3000 0x4000 1 0 0x35)) 0x304 0x5004 = true := by decide

/-- E8. -/
theorem test_Nx128_range :
    ends (step (ready ([]) 0x3000 0xFFFFFC0000000000 0xFFFFFFFF 0 0x45)) 0x404 0xFFFFFC0000000000 = true := by decide

/-- E1: N_RANGE before N = 0. -/
theorem test_kxn_count :
    ends (step (ready ([]) 0 0 0x100000000 0 0x04)) 0x204 0 = true := by decide

/-- E4: ARG0 is checked before ARG1. -/
theorem test_kxn_buffer_first :
    ends (step (ready ([]) 0x4001 0x3004 1 0 0x14)) 0x304 0x4001 = true := by decide

/-- E3. -/
theorem test_kxn_table_alignment :
    ends (step (ready ([]) 0x4000 0x3004 1 0 0x14)) 0x304 0x3004 = true := by decide

/-- E5. -/
theorem test_nxk_table_first :
    ends (step (ready ([]) 0x3003 0x4001 1 0 0x15)) 0x304 0x3003 = true := by decide

/-- E6. -/
theorem test_kxn_range :
    ends (step (ready ([]) 0xFFFFFFFFFFFFFFF0 0x3000 1 0 0x14)) 0x404 0xFFFFFFFFFFFFFFF0 = true := by decide

/-- E9: entry 5 is misaligned, found after the table read; nothing is written. -/
theorem test_entry_misaligned :
    let m := Memory.writeAll [] [(0x7000, table 0x1000 0x100 32), (0x7028, bytesOfNat 8 0x1002)]
    ends (step (ready m 0x8000 0x7000 2 0 0x24)) 0x304 0x1002 = true ∧
    (nextOr (step (ready m 0x8000 0x7000 2 0 0x24)) State.reset).mem = m := by decide +kernel

/-! ### Registers, errors, the interrupt line -/

/-- One host operation on a state. -/
def hostDoes (s : State) (op : HostOp) : State := nextOr (step { s with inputs := [op], turns := [.host] }) s

/-- Each ILLEGAL word of §5 completes with STATUS = 0x104 and ERRADDR = 0; DATA is unchanged. -/
theorem test_illegal_word :
    ends (step (ready [] 0 0 0 0x55 0x06)) 0x104 0 = true ∧
    (nextOr (step (ready [] 0 0 0 0x55 0x06)) State.reset).data = 0x55 := by decide

/-- E10, E11: ENG is hardwired to 0 without the wide-vector engine. -/
theorem test_ctrl :
    (hostDoes State.reset (wr .ctrl 3)).readReg .ctrl = 0x2 ∧
    (hostDoes { State.reset with platform := { Platform.atReset with hasVec := true } } (wr .ctrl 1)).readReg .ctrl = 0x1 := by
  decide

/-- E12, E13. -/
theorem test_cap :
    State.reset.readReg .cap = 0x401F ∧ capWord { Platform.atReset with hasVec := true } = 0x411F := by decide

/-- E14: the write of 0x4 clears ERR and ERRCODE and keeps ERRADDR. -/
theorem test_status_clear :
    let s := nextOr (step (ready [] 0x1010 0 0 0 0xA1)) State.reset
    s.readReg .status = 0x304 ∧ (hostDoes s (wr .status 4)).readReg .status = 0 ∧
    (hostDoes s (wr .status 4)).errAddr = 0x1010 := by decide

/-- E15. -/
theorem test_irq :
    let s := hostDoes (nextOr (step (ready [] 0 0 0 0 0x02)) State.reset) (wr .ctrl 2)
    s.readReg .status = 0x2 ∧ s.irq = true ∧ (hostDoes s (wr .status 2)).irq = false := by decide

/-- E16. -/
theorem test_drop :
    let s := hostDoes (ready [] 0 0 0 0 0x02) (wr .arg0 5)
    s.arg0 = 0 ∧ s.readReg .status = 0x9 := by decide

/-- E17, R42. -/
theorem test_reset : State.reset.readReg .status = 0 ∧ State.reset.readReg .cmd = 0 := by decide

/-- R40: a 4-byte access is refused. -/
theorem test_subword :
    step { State.reset with inputs := [.rd 0x10 4] } = .refused .registerAccessWidth := by rfl

/-- R250: reset during BUSY leaves the registers at their reset values. -/
theorem test_reset_input :
    let s := nextOr (step { (ready [] 0x1000 0 0 7 0x02) with turns := [.reset] }) (ready [] 0 0 0 1 1)
    s.busy = false ∧ s.arg0 = 0 ∧ s.data = 0 ∧ s.readReg .status = 0 := by decide

/-! ### Witnesses: concrete states that meet the hypotheses of the obligations -/

/-- The outcome is this fault. -/
def faults (o : Host.Outcome State Fault Refusal) (f : Fault) : Bool :=
  match o with
  | .next _    => false
  | .fault g   => g == f
  | .refused _ => false

/-- A BUSY unit with a command and the host's operations to come; no turn given. -/
def busyWith (m : Memory) (a0 a1 a2 w : Word) (ops : List HostOp) (ts : List Turn) : State :=
  { ready m a0 a1 a2 0 w with inputs := ops, turns := ts }

/-- An IDLE unit with the host's operations to come; no turn given. -/
def idleWith (ops : List HostOp) : State := { State.reset with inputs := ops }

/-- A unit that has completed `transpose_8x8` on the buffer at 0x8000, with the host's operations to come. The host
has not observed the completion. -/
def doneWith (ops : List HostOp) : State :=
  { State.completeOk (busyWith [] 0x8000 0 0 0x01 ops []) with turns := [] }

theorem busyWith_hostNext (m : Memory) (a0 a1 a2 w : Word) (ops : List HostOp) (ts : List Turn) :
    ∃ u, (busyWith m a0 a1 a2 w ops (.host :: ts)).hostNext u := ⟨_, .inl ⟨ts, rfl, rfl⟩⟩

theorem idleWith_hostNext (ops : List HostOp) : ∃ u, (idleWith ops).hostNext u := ⟨_, .inr (.inl ⟨rfl, rfl, rfl⟩)⟩

theorem doneWith_hostNext (ops : List HostOp) : ∃ u, (doneWith ops).hostNext u := ⟨_, .inr (.inl ⟨rfl, rfl, rfl⟩)⟩

/-- A given turn, and no turn given where the host has nothing to do or waits. -/
theorem busyWith_unitNext (m : Memory) (a0 a1 a2 w : Word) (ops : List HostOp) (ts : List Turn) :
    (∃ u, (busyWith m a0 a1 a2 w ops (.unit :: ts)).unitNext u) ∧ (∃ u, (busyWith m a0 a1 a2 w [] []).unitNext u) ∧
    (∃ u, (busyWith m a0 a1 a2 w (.wait :: ops) []).unitNext u) :=
  ⟨⟨_, .inl ⟨ts, rfl, rfl⟩⟩, ⟨_, .inr (.inl ⟨rfl, rfl, .inl rfl, rfl⟩)⟩, ⟨_, .inr (.inl ⟨rfl, rfl, .inr ⟨ops, rfl⟩, rfl⟩)⟩⟩

/-- The schedule with no turn given and another operation pending: one of the two moves. Which is a free value, so
neither alone has a witness. -/
theorem busyWith_eitherNext (m : Memory) (a0 a1 a2 w : Word) (op : HostOp) (ops : List HostOp) (h : op ≠ .wait) :
    let s := busyWith m a0 a1 a2 w (op :: ops) []
    s.hostNext { s with free := s.free + 1 } ∨ s.unitNext { s with free := s.free + 1 } :=
  Laws.next_of_eitherNext ⟨rfl, rfl, op, ops, rfl, h⟩

/-- The latch of `ready`. -/
def latchOf (a0 a1 a2 w : Word) : Latch := { cmd := w, ops := { arg0 := a0, arg1 := a1, arg2 := a2, data := 0 }, draw := 0 }

theorem witness_LegalWords : decode 0x45 = .ok .transposeNx128 ∧ decode 0x01 = .ok .transpose8x8 := by decide

theorem witness_DecodeInvertsEncode :
    decode 0xC1 = .ok .transpose128x128Aligned ∧ (fieldsOf 0xC1).legal = true ∧ (fieldsOf 0x45).legal = true := by decide

theorem witness_StepRunsTheLatchedCommand :
    (∀ p ∈ [([HostOp.rd 0x10 8], [Turn.unit]), ([], []), ([.wait], [])],
      (busyWith [] 0 0 0 0x02 p.1 p.2).latch = some (latchOf 0 0 0 0x02)) ∧ decode 0x02 = .ok .transpose8x8Direct ∧
    (∃ u, (busyWith [] 0 0 0 0x02 [.rd 0x10 8] [.unit]).unitNext u) ∧ (∃ u, (busyWith [] 0 0 0 0x02 [] []).unitNext u) ∧
    (∃ u, (busyWith [] 0 0 0 0x02 [.wait] []).unitNext u) :=
  have nexts := busyWith_unitNext [] 0 0 0 0x02 [.rd 0x10 8] []
  ⟨by decide, by decide, nexts.1, nexts.2.1, (busyWith_unitNext [] 0 0 0 0x02 [] []).2.2⟩

/-- The word 0 and a word with only bit 63 above a legal one, the ends of the illegal words, in the three
schedules. -/
theorem witness_IllegalWordCompletesWithError :
    ∀ w ∈ [(0 : Word), 0x8000000000000001], (∀ i, w ≠ encode i) ∧
      (busyWith [] 0 0 0 w [.rd 0x10 8] [.unit]).latch = some (latchOf 0 0 0 w) ∧
      (∃ u, (busyWith [] 0 0 0 w [.rd 0x10 8] [.unit]).unitNext u) ∧
      (busyWith [] 0 0 0 w [] []).latch = some (latchOf 0 0 0 w) ∧ (∃ u, (busyWith [] 0 0 0 w [] []).unitNext u) ∧
      (busyWith [] 0 0 0 w [.wait] []).latch = some (latchOf 0 0 0 w) ∧ (∃ u, (busyWith [] 0 0 0 w [.wait] []).unitNext u) := by
  simp only [List.mem_cons, List.not_mem_nil, or_false, forall_eq_or_imp, forall_eq]
  have nexts := fun w => busyWith_unitNext [] 0 0 0 w [.rd 0x10 8] []
  have waits := fun w => (busyWith_unitNext [] 0 0 0 w [] []).2.2
  refine ⟨⟨fun i => ?_, by decide, (nexts _).1, by decide, (nexts _).2.1, by decide, waits _⟩,
    ⟨fun i => ?_, by decide, (nexts _).1, by decide, (nexts _).2.1, by decide, waits _⟩⟩ <;>
  cases i <;> decide

/-- With the host's turn given and with none. -/
theorem witness_CmdWriteIsAccepted :
    (idleWith [.wr 0x18 8 0x01]).latch = none ∧ (idleWith [.wr 0x18 8 0x01]).inputs = [.wr 0x18 8 0x01] ∧
    (∃ u, (idleWith [.wr 0x18 8 0x01]).hostNext u) ∧ (∃ u, State.hostNext { idleWith [.wr 0x18 8 0x01] with turns := [.host] } u) :=
  ⟨rfl, rfl, idleWith_hostNext _, _, .inl ⟨[], rfl, rfl⟩⟩

/-- One offset for each branch: dropped (the lowest and the highest), STATUS, and ignored (CAP, ERRADDR, the last
reserved offset). -/
theorem witness_BusyWritesAreDropped :
    ∀ off ∈ [(0x08 : BitVec 8), 0x38, 0x10, 0x00, 0x40, 0xF8],
      (busyWith [] 0 0 0 0x02 [.wr off 8 6] [.host]).latch = some (latchOf 0 0 0 0x02) ∧ off.toNat % 8 = 0 ∧
      (busyWith [] 0 0 0 0x02 [.wr off 8 6] [.host]).inputs = [.wr off 8 6] := by decide

theorem witness_BusyWritesAreDropped_next (off : BitVec 8) :
    ∃ u, (busyWith [] 0 0 0 0x02 [.wr off 8 6] [.host]).hostNext u := busyWith_hostNext _ _ _ _ _ _ _

/-- One offset for each branch; with no turn given, and with the host's. -/
theorem witness_IdleWritesTakeEffect :
    (∀ off ∈ [(0x18 : BitVec 8), 0x08, 0x10, 0x20, 0x28, 0x30, 0x38, 0x00, 0x40, 0xF8],
      (idleWith [.wr off 8 7]).latch = none ∧ off.toNat % 8 = 0 ∧ (idleWith [.wr off 8 7]).inputs = [.wr off 8 7]) ∧
    ∀ off, (∃ u, (idleWith [.wr off 8 7]).hostNext u) ∧ (∃ u, State.hostNext { idleWith [.wr off 8 7] with turns := [.host] } u) :=
  ⟨by decide, fun _ => ⟨idleWith_hostNext _, _, .inl ⟨[], rfl, rfl⟩⟩⟩

/-- One offset for each clause, BUSY and IDLE; 0x48 and 0xF8 are the first and the last reserved offsets. The
completion that the IDLE unit has recorded is not observed yet. -/
theorem witness_ReadsHaveNoSideEffect :
    (∀ off ∈ [(0x18 : BitVec 8), 0x48, 0xF8, 0x20, 0x28, 0x30, 0x38, 0x40, 0x00, 0x08, 0x10],
      off.toNat % 8 = 0 ∧ (busyWith [] 0 0 0 0x02 [.rd off 8] [.host]).inputs = [.rd off 8] ∧
      (doneWith [.rd off 8]).inputs = [.rd off 8]) ∧
    (∀ off, (∃ u, (busyWith [] 0 0 0 0x02 [.rd off 8] [.host]).hostNext u) ∧ (∃ u, (doneWith [.rd off 8]).hostNext u)) ∧
    (doneWith []).latch = none ∧ (doneWith []).status.done = true ∧ (doneWith []).unobserved ≠ [] :=
  ⟨by decide, fun _ => ⟨busyWith_hostNext _ _ _ _ _ _ _, doneWith_hostNext _⟩, by decide⟩

/-- The clauses of the read statement do not meet: the offsets they name are different, and the only clause by a
range starts above them. -/
theorem witness_ReadsHaveNoSideEffect_apart : (0x40 : BitVec 8).toNat = 0x40 ∧ (0x48 : BitVec 8).toNat > 0x40 := by decide

/-- A poll while BUSY, one after a completion, and one with nothing to observe. -/
theorem witness_WaitPollsUntilIdle :
    (busyWith [] 0x8000 0 0 0x01 [.wait] [.host]).busy = true ∧
    (busyWith [] 0x8000 0 0 0x01 [.wait] [.host]).inputs = [.wait] ∧
    (∃ u, (busyWith [] 0x8000 0 0 0x01 [.wait] [.host]).hostNext u) ∧
    (doneWith [.wait]).busy = false ∧ (doneWith [.wait]).inputs = [.wait] ∧ (∃ u, (doneWith [.wait]).hostNext u) ∧
    ((doneWith [.wait]).status.done || (doneWith [.wait]).status.err) = true ∧
    (idleWith [.wait]).busy = false ∧ (∃ u, (idleWith [.wait]).hostNext u) ∧
    ((idleWith [.wait]).status.done || (idleWith [.wait]).status.err) = false :=
  ⟨rfl, rfl, busyWith_hostNext _ _ _ _ _ _ _, rfl, rfl, doneWith_hostNext _, rfl, rfl, idleWith_hostNext _, rfl⟩

/-- A 4-byte access, and an 8-byte access off its alignment, reading and writing, BUSY and IDLE. -/
theorem witness_SubwordRegisterAccessIsRefused :
    (∀ p ∈ [((0x10 : BitVec 8), 4), (0x14, 8), (0x01, 16)], ¬(p.2 = 8 ∧ p.1.toNat % 8 = 0) ∧
      (busyWith [] 0 0 0 0x02 [.rd p.1 p.2] [.host]).inputs = [.rd p.1 p.2] ∧
      (idleWith [.wr p.1 p.2 0]).inputs = [.wr p.1 p.2 0]) ∧
    ∀ op, (∃ u, (busyWith [] 0 0 0 0x02 [op] [.host]).hostNext u) ∧ (∃ u, (idleWith [op]).hostNext u) :=
  ⟨by decide, fun _ => ⟨busyWith_hostNext _ _ _ _ _ _ _, idleWith_hostNext _⟩⟩

theorem witness_InterruptLine :
    (6 : Word).getLsbD 1 = true ∧ (6 : Word).getLsbD 2 = true ∧ State.reset.busy = false ∧
    (1 : Word).getLsbD 1 = false := by decide

theorem witness_HostWriteAndCompletionInEitherOrder_either :
    (busyWith [] 0 0 0 0x02 [.load 0x9000 1] []).latch = some (latchOf 0 0 0 0x02) ∧
    (busyWith [] 0 0 0 0x02 [.load 0x9000 1] []).turns = [] ∧
    (busyWith [] 0 0 0 0x02 [.load 0x9000 1] []).inputs = [.load 0x9000 1] ∧ HostOp.load 0x9000 1 ≠ .wait := by decide

theorem witness_HostWriteAndCompletionInEitherOrder :
    ∀ off ∈ [(0x08 : BitVec 8), 0x18, 0x20, 0x28, 0x30, 0x38],
      (busyWith [] 0 0 0 0x02 [.wr off 8 5] []).latch = some (latchOf 0 0 0 0x02) ∧
      decode 0x02 = .ok .transpose8x8Direct ∧
      (busyWith [] 0 0 0 0x02 [.wr off 8 5] []).inputs = [.wr off 8 5] ∧
      (busyWith [] 0 0 0 0x02 [.wr off 8 5] []).turns = [] ∧
      isNext (exec .transpose8x8Direct (busyWith [] 0 0 0 0x02 [.wr off 8 5] [])) = true ∧
      (nextOr (exec .transpose8x8Direct (busyWith [] 0 0 0 0x02 [.wr off 8 5] [])) State.reset).latch = none := by decide

theorem witness_IdleUnitDoesNothing :
    State.reset.ended ∧ State.reset.turns = [] ∧ { State.reset with turns := [.unit] }.busy = false ∧
    { State.reset with turns := [.unit] }.turns = [.unit] := by decide

/-- The reset input on a BUSY unit, whose command's checks would pass (0x1000) or fail (0x1001 misaligned), and on an
IDLE one; with a byte on either side of the command's write set. -/
theorem witness_ResetInput :
    (busyWith [] 0x1000 0 0 0x81 [] [.reset]).turns = [.reset] ∧
    isNext (step (busyWith [] 0x1000 0 0 0x81 [] [.reset])) = true ∧
    isNext (step (busyWith [] 0x1001 0 0 0x81 [] [.reset])) = true ∧
    { State.reset with turns := [.reset] }.latch = none ∧
    isNext (step { State.reset with turns := [.reset] }) = true ∧
    (∀ l i r, (busyWith [] 0x1000 0 0 0x81 [] [.reset]).latch = some l → decode l.cmd = .ok i →
      inWriteSet [] l.ops i.command r → inRange r 0xFFF = false ∧ inRange r 0x1008 = false ∧ inRange r 0x1000 = true) := by
  refine ⟨rfl, by decide, by decide, rfl, by decide, ?_⟩
  intro l i r hl hd hw
  obtain rfl : latchOf 0x1000 0 0 0x81 = l := Option.some.inj hl
  obtain rfl : Instr.transpose8x8Aligned = i := by
    have : decode (latchOf 0x1000 0 0 0x81).cmd = .ok .transpose8x8Aligned := by decide
    rw [this] at hd
    exact Except.ok.inj hd
  obtain rfl : r = { base := 0x1000, len := 8 } := hw
  decide

theorem witness_ResetInputCompletes :
    (busyWith [] 0x1000 0 0 0x01 [] [.reset]).turns = [.reset] ∧
    ∀ w rs, (busyWith [] 0x1000 0 0 0x01 [] [.reset]).runningPlan ≠ .stop w rs := by
  refine ⟨rfl, fun w rs h => ?_⟩
  have : (busyWith [] 0x1000 0 0 0x01 [] [.reset]).runningPlan =
      .access [{ base := 0x1000, len := 8 }] [{ base := 0x1000, len := 8 }] := by decide
  rw [this] at h
  cases h

/-- The first stage's mask: no position is both p and p + 7. -/
theorem witness_StageExchangesBitPairs :
    0 < 7 ∧ (∀ p, mask1.getLsbD p = true → 7 ≤ p) ∧ (∀ p, mask1.getLsbD p = true → mask1.getLsbD (p + 7) = false) := by
  have small : (∀ p < 64, mask1.getLsbD p = true → 7 ≤ p) ∧
      (∀ p < 64, mask1.getLsbD p = true → mask1.getLsbD (p + 7) = false) := by decide +kernel
  have lt : ∀ p, mask1.getLsbD p = true → p < 64 := fun p h => BitVec.lt_of_getLsbD h
  exact ⟨by decide, fun p h => small.1 p (lt p h) h, fun p h => small.2 p (lt p h) h⟩

theorem witness_QuadrantRecursion :
    (List.replicate (dim 0) (0 : BitVec (dim 0))).length = dim 0 ∧
    (List.replicate (dim 4) (0 : BitVec (dim 4))).length = dim 4 := by simp

/-- N = 5: one super-block and one remainder block; N = 0. -/
theorem witness_ShufflePaths :
    (List.replicate (dim 0) (0 : BitVec (5 * dim 0))).length = dim 0 ∧
    (List.replicate (5 * dim 0) (0 : BitVec (dim 0))).length = 5 * dim 0 ∧
    (List.replicate (0 * dim 0) (0 : BitVec (dim 0))).length = 0 * dim 0 := by simp

/-- The last buffer of 8 bytes, and the last aligned one. -/
theorem witness_EightByEightCommandsTranspose :
    (0xFFFFFFFFFFFFFFF8 : Word).toNat + 8 ≤ 2 ^ 64 ∧
    (ready [] 0xFFFFFFFFFFFFFFF8 0 0 0 0x01).clear [{ base := 0xFFFFFFFFFFFFFFF8, len := 8 }] ∧
    (0xFFFFFFFFFFFFFFE0 : Word).toNat % 32 = 0 ∧
    (ready [] 0xFFFFFFFFFFFFFFE0 0 0 0 0x81).clear [{ base := 0xFFFFFFFFFFFFFFE0, len := 8 }] := by decide

/-- The last buffer of 32 bytes, which is aligned. -/
theorem witness_PackedCommandsTransposeEachWord :
    (0xFFFFFFFFFFFFFFE0 : Word).toNat + 32 ≤ 2 ^ 64 ∧ (0xFFFFFFFFFFFFFFE0 : Word).toNat % 32 = 0 ∧
    (ready [] 0xFFFFFFFFFFFFFFE0 0 0 0 0x83).clear [{ base := 0xFFFFFFFFFFFFFFE0, len := 32 }] := by decide

/-- The last buffer of each size; each is aligned. -/
theorem witness_SquareCommandsTranspose :
    ∀ p ∈ [(0xFFFFFFFFFFFFFFE0, 16), (0xFFFFFFFFFFFFFF80, 32), (0xFFFFFFFFFFFFFE00, 64), (0xFFFFFFFFFFFFF800, 128)],
      p.1 + p.2 * p.2 / 8 ≤ 2 ^ 64 ∧ p.1 % 32 = 0 ∧
      (ready [] (BitVec.ofNat 64 p.1) 0 0 0 0x11).clear [{ base := p.1, len := p.2 * p.2 / 8 }] := by decide

/-- A table of 8 rows, 2^32 bytes apart, and the largest block count: N = 2^32 − 1. -/
def wideMem : Memory := Memory.write [] 0x3000 (table 0x100000000000 0x100000000 8)

theorem witness_KxnCommandsTranspose :
    let s := ready wideMem 0x200000000000 0x3000 0xFFFFFFFF 0 0x04
    let n := 0xFFFFFFFF
    s.operands.arg2.toNat = n ∧ s.rectOperandsOk .s8 n 0x3000 0x200000000000 ∧
    overlaps (tableRange .s8 0x3000) (contiguousRange .s8 n 0x200000000000) = false ∧
    s.clear (s.rectRanges .s8 n 0x3000 0x200000000000) := by decide +kernel

theorem witness_NxkCommandsTranspose :
    let s := ready wideMem 0x3000 0x200000000000 0xFFFFFFFF 0 0x05
    let n := 0xFFFFFFFF
    s.operands.arg2.toNat = n ∧ s.rectOperandsOk .s8 n 0x3000 0x200000000000 ∧
    (∀ j < 8, overlaps (tableRange .s8 0x3000) (rowRangeAt s.mem .s8 n 0x3000 j) = false) ∧
    s.clear (s.rectRanges .s8 n 0x3000 0x200000000000) := by decide +kernel

theorem witness_ZeroBlocksIsANoOp :
    (ready [] 0xFFFFFFFFFFFFFFFF 0xFFFFFFFFFFFFFFFF 0 0 0x45).operands.arg2 = 0 ∧
    (0x100000000 : Word).extractLsb' 0 32 = 0 ∧ (0x100000000 : Word).extractLsb' 32 32 ≠ 0 := by decide

/-- The smallest and the largest misaligned addresses. -/
theorem witness_MisalignedBufferIsAnError :
    (ready [] 1 0 0 0 0x81).operands.arg0.toNat % 32 ≠ 0 ∧
    (ready [] 0xFFFFFFFFFFFFFFFF 0 0 0 0xC1).operands.arg0.toNat % 32 ≠ 0 := by decide

theorem witness_AlignedAndPlainAgree : (ready [] 0xFFFFFFFFFFFFFFE0 0 0 0 0x81).operands.arg0.toNat % 32 = 0 := by decide

/-- The first wrapping address of each length. -/
theorem witness_WrappingBufferIsAnError :
    ∀ p ∈ [(0xFFFFFFFFFFFFFFF9, 8, false), (0xFFFFFFFFFFFFFFE1, 32, false), (0xFFFFFFFFFFFFFF81, 128, false),
        (0xFFFFFFFFFFFFFFA0, 128, true), (0xFFFFFFFFFFFFFE01, 512, false), (0xFFFFFFFFFFFFFE20, 512, true),
        (0xFFFFFFFFFFFFF801, 2048, false), (0xFFFFFFFFFFFFF820, 2048, true)],
      (p.2.2 = true → (BitVec.ofNat 64 p.1).toNat % 32 = 0) ∧ (BitVec.ofNat 64 p.1).toNat + p.2.1 > 2 ^ 64 := by decide

theorem witness_BlockCountOutOfRangeIsAnError : (0x100000000 : Word).toNat ≥ 2 ^ 32 := by decide

/-- One state for each of the four clauses, k×16 with N = 1 (E2, E3, E6) and its table at the end of memory. -/
theorem witness_RectangularOperandChecksInOrder :
    0 < 1 ∧ 1 < 2 ^ 32 ∧ (0x4001 : Word).toNat % rowBytes .s16 ≠ 0 ∧
    ((0x4000 : Word).toNat % rowBytes .s16 = 0 ∧ (0x3004 : Word).toNat % 8 ≠ 0) ∧
    ((0xFFFFFFFFFFFFFFE2 : Word).toNat % rowBytes .s16 = 0 ∧ (0x3000 : Word).toNat % 8 = 0 ∧
      (0xFFFFFFFFFFFFFFE2 : Word).toNat + 1 * blockBytes .s16 > 2 ^ 64) ∧
    ((0xFFFFFFFFFFFFFFE0 : Word).toNat + 1 * blockBytes .s16 ≤ 2 ^ 64 ∧
      (0xFFFFFFFFFFFFFF88 : Word).toNat % 8 = 0 ∧ (0xFFFFFFFFFFFFFF88 : Word).toNat + 8 * sizeBits .s16 > 2 ^ 64) := by
  decide

/-- E9's kind of table for k = 16: the last entry misaligned, and the first entry with a row past 2^64. -/
theorem witness_FirstBadTableEntryIsReported :
    let m := Memory.writeAll [] [(0x7000, table 0x1000 0x100 16), (0x7078, bytesOfNat 8 0x1001)]
    let s := ready m 0x8000 0x7000 1 0 0x14
    let m' := Memory.write [] 0x7000 (bytesOfNat 8 0xFFFFFFFFFFFFFFFE)
    let s' := ready m' 0x8000 0x7000 2 0 0x14
    (0x8000 % rowBytes .s16 = 0 ∧ 0x7000 % 8 = 0 ∧ 0x8000 + 1 * blockBytes .s16 ≤ 2 ^ 64 ∧
      0x7000 + 8 * sizeBits .s16 ≤ 2 ^ 64 ∧ s.clear [tableRange .s16 0x7000]) ∧
    (∀ i < 15, (tableEntry m 0x7000 i).toNat % rowBytes .s16 = 0 ∧
      (tableEntry m 0x7000 i).toNat + 1 * rowBytes .s16 ≤ 2 ^ 64) ∧
    (tableEntry m 0x7000 15).toNat % rowBytes .s16 ≠ 0 ∧
    s'.clear [tableRange .s16 0x7000] ∧ (tableEntry m' 0x7000 0).toNat % rowBytes .s16 = 0 ∧
    (tableEntry m' 0x7000 0).toNat + 2 * rowBytes .s16 > 2 ^ 64 := by decide +kernel

/-- A state on a platform with one more region that is not normal memory. -/
def onRegion (s : State) (base len : Nat) (k : RegionKind) : State :=
  { s with platform := { s.platform with regions := { range := { base := base, len := len }, kind := k } :: s.platform.regions } }

/-- The last byte of the table is in a faulting region. -/
theorem witness_TableBusErrorIsReported :
    let s := onRegion (ready [] 0x8000 0x7000 1 0 0x04) 0x703F 1 .faulting
    s.operands.arg2.toNat = 1 ∧ 0x8000 % rowBytes .s8 = 0 ∧ 0x7000 % 8 = 0 ∧
    s.stopOn [tableRange .s8 0x7000] = none ∧ busHits s.platform .faulting [tableRange .s8 0x7000] = true ∧
    busHits s.platform .silent [tableRange .s8 0x7000] = false := by decide

/-- One state for each clause: the last byte of a buffer, the first byte of a table, a table with a silent and a
faulting byte, and the last row's byte, for both directions. -/
theorem witness_UnansweredAccessLeavesTheUnitStuck_buffer :
    let s := onRegion (ready [] 0x8000 0 0 0 0x81) 0x8007 1 .silent
    let buf : Range := { base := 0x8000, len := 8 }
    0x8000 % 32 = 0 ∧ s.stopOn [buf] = none ∧ busHits s.platform .faulting [buf] = false ∧
    busHits s.platform .silent [buf] = true := by decide

theorem witness_UnansweredAccessLeavesTheUnitStuck_table :
    let s := onRegion (ready [] 0x8000 0x7000 1 0 0x04) 0x7000 1 .silent
    let m := onRegion s 0x703F 1 .faulting
    s.operands.arg2.toNat = 1 ∧ 0x8000 % rowBytes .s8 = 0 ∧ 0x7000 % 8 = 0 ∧
    s.stopOn [tableRange .s8 0x7000] = none ∧ busHits s.platform .silent [tableRange .s8 0x7000] = true ∧
    busHits s.platform .faulting [tableRange .s8 0x7000] = false ∧
    m.stopOn [tableRange .s8 0x7000] = none ∧ busHits m.platform .silent [tableRange .s8 0x7000] = true ∧
    busHits m.platform .faulting [tableRange .s8 0x7000] = true := by decide

/-- A non-coherent platform with one byte that the host has not cleaned. -/
def notCleaned (s : State) (a : Nat) : State :=
  { s with platform := { s.platform with coherent := false }, dirty := [a] }

/-- One state for each of the four clauses, at the last byte of an 8-byte buffer. -/
theorem witness_BufferViolationsStop :
    let buf : Range := { base := 0x8000, len := 8 }
    let s := ready [] 0x8000 0 0 0 0x01
    busHits (onRegion s 0x8007 1 .device).platform .device [buf] = true ∧
    (busHits s.platform .device [{ base := 0x3FFFFFFFFFFFFFF9, len := 8 }] = false ∧
      overlaps { base := 0x3FFFFFFFFFFFFFF9, len := 8 } (windowOf s.platform) = true) ∧
    (busHits (notCleaned s 0x8007).platform .device [buf] = false ∧
      overlaps buf (windowOf (notCleaned s 0x8007).platform) = false ∧
      (notCleaned s 0x8007).platform.coherent = false ∧ (∃ x ∈ (notCleaned s 0x8007).dirty, inRange buf x = true)) ∧
    ((onRegion s 0x8007 1 .faulting).stopOn [buf] = none ∧
      busHits (onRegion s 0x8007 1 .faulting).platform .faulting [buf] = true) := by decide

/-- A table of 8 rows whose strings start `stride` bytes apart. -/
def rowsApart (base stride : Nat) : Memory := Memory.write [] 0x3000 (table base stride 8)

/-- One state for each of the four overlaps, N = 2: rows that share their last byte, a buffer on a row, a k×N table
on its buffer, an N×k table on a row. -/
theorem witness_OverlappingRectangularRangesFault :
    let s1 := ready (rowsApart 0x1000 1) 0x4000 0x3000 2 0 0x04
    let s2 := ready (rowsApart 0x1000 2) 0x100F 0x3000 2 0 0x04
    let s3 := ready (rowsApart 0x1000 2) 0x303F 0x3000 2 0 0x04
    let s4 := ready (rowsApart 0x2FF0 3) 0x3000 0x4000 2 0 0x05
    (overlaps (rowRangeAt s1.mem .s8 2 0x3000 0) (rowRangeAt s1.mem .s8 2 0x3000 1) = true ∧
      s1.clear (s1.rectRanges .s8 2 0x3000 0x4000)) ∧
    (overlaps (contiguousRange .s8 2 0x100F) (rowRangeAt s2.mem .s8 2 0x3000 7) = true ∧
      s2.clear (s2.rectRanges .s8 2 0x3000 0x100F)) ∧
    (overlaps (tableRange .s8 0x3000) (contiguousRange .s8 2 0x303F) = true ∧
      s3.clear (s3.rectRanges .s8 2 0x3000 0x303F)) ∧
    (overlaps (tableRange .s8 0x3000) (rowRangeAt s4.mem .s8 2 0x3000 6) = true ∧
      s4.clear (s4.rectRanges .s8 2 0x3000 0x4000)) ∧
    (∀ s ∈ [s1, s2, s3, s4], ∀ j < 8, (rowRangeAt s.mem .s8 2 0x3000 j).base % rowBytes .s8 = 0 ∧
      (rowRangeAt s.mem .s8 2 0x3000 j).base + 2 * rowBytes .s8 ≤ 2 ^ 64) := by decide +kernel

/-- A k×N and an N×k command with N = 1, whose table stands at 0x3000, whose buffer at 0x4000. -/
def kx8 : State := ready (rowsApart 0x1000 1) 0x4000 0x3000 1 0 0x04
def nx8 : State := ready (rowsApart 0x1000 1) 0x3000 0x4000 1 0 0x05

/-- The data phase, both directions: the last row's byte is never answered. -/
theorem witness_UnansweredAccessLeavesTheUnitStuck_rectangular :
    ∀ s ∈ [onRegion kx8 0x1007 1 .silent, onRegion nx8 0x1007 1 .silent],
      s.rectOperandsOk .s8 1 0x3000 0x4000 ∧
      overlaps (tableRange .s8 0x3000) (contiguousRange .s8 1 0x4000) = false ∧
      (∀ j < 8, overlaps (tableRange .s8 0x3000) (rowRangeAt s.mem .s8 1 0x3000 j) = false) ∧
      s.stopOn (s.rectRanges .s8 1 0x3000 0x4000) = none ∧
      busHits s.platform .faulting (s.rectRanges .s8 1 0x3000 0x4000) = false ∧
      busHits s.platform .silent (s.rectRanges .s8 1 0x3000 0x4000) = true := by decide +kernel

/-- The table's three clauses, both directions: its last byte on a device, on the register window's first byte, not
cleaned. -/
theorem witness_RectangularViolationsStop_table :
    let table := tableRange .s8 0x3000
    ∀ s ∈ [kx8, nx8],
      (s.operands.arg2.toNat = 1 ∧ 0x4000 % rowBytes .s8 = 0) ∧
      busHits (onRegion s 0x303F 1 .device).platform .device [table] = true ∧
      (busHits s.platform .device [tableRange .s8 0x3FFFFFFFFFFFFFC8] = false ∧
        overlaps (tableRange .s8 0x3FFFFFFFFFFFFFC8) (windowOf s.platform) = true) ∧
      (busHits (notCleaned s 0x303F).platform .device [table] = false ∧
        overlaps table (windowOf (notCleaned s 0x303F).platform) = false ∧
        (notCleaned s 0x303F).platform.coherent = false ∧ (∃ x ∈ (notCleaned s 0x303F).dirty, inRange table x = true)) := by
  decide +kernel

/-- The data phase's four clauses, both directions, N = 1: the last row's byte on a device, on the register window's
first byte, not cleaned, and answered with an error. -/
theorem witness_RectangularViolationsStop :
    let table := tableRange .s8 0x3000
    ∀ p ∈ [(kx8, ready (rowsApart 0x3FFFFFFFFFFFFFF9 1) 0x4000 0x3000 1 0 0x04),
        (nx8, ready (rowsApart 0x3FFFFFFFFFFFFFF9 1) 0x3000 0x4000 1 0 0x05)],
      let s := p.1
      let w := p.2
      let rs := s.rectRanges .s8 1 0x3000 0x4000
      s.rectOperandsOk .s8 1 0x3000 0x4000 ∧ w.rectOperandsOk .s8 1 0x3000 0x4000 ∧
      overlaps table (contiguousRange .s8 1 0x4000) = false ∧
      (∀ j < 8, overlaps table (rowRangeAt s.mem .s8 1 0x3000 j) = false) ∧
      (∀ j < 8, overlaps table (rowRangeAt w.mem .s8 1 0x3000 j) = false) ∧
      ((onRegion s 0x1007 1 .device).clear [table] ∧
        busHits (onRegion s 0x1007 1 .device).platform .device rs = true) ∧
      (w.clear [table] ∧ busHits w.platform .device (w.rectRanges .s8 1 0x3000 0x4000) = false ∧
        (w.rectRanges .s8 1 0x3000 0x4000).any (overlaps (windowOf w.platform)) = true) ∧
      ((notCleaned s 0x1007).clear [table] ∧
        rs.any (overlaps (windowOf s.platform)) = false ∧ (∃ r ∈ rs, inRange r 0x1007 = true)) ∧
      ((onRegion s 0x1007 1 .faulting).clear [table] ∧ (onRegion s 0x1007 1 .faulting).stopOn rs = none ∧
        busHits (onRegion s 0x1007 1 .faulting).platform .faulting rs = true) := by decide +kernel

/-- What R225 (b) allows: a k×N table that is its own first source row, and an N×k table that is its source buffer;
with the last row's byte on a device. -/
theorem witness_RectangularViolationsStop_legalOverlap :
    let s := onRegion (ready (rowsApart 0x3000 0x100) 0x4000 0x3000 1 0 0x04) 0x3700 1 .device
    let u := onRegion (ready (rowsApart 0x5000 0x100) 0x3000 0x3000 1 0 0x05) 0x5700 1 .device
    (s.rectOperandsOk .s8 1 0x3000 0x4000 ∧ overlaps (tableRange .s8 0x3000) (rowRangeAt s.mem .s8 1 0x3000 0) = true ∧
      overlaps (tableRange .s8 0x3000) (contiguousRange .s8 1 0x4000) = false ∧ s.clear [tableRange .s8 0x3000] ∧
      busHits s.platform .device (s.rectRanges .s8 1 0x3000 0x4000) = true) ∧
    (u.rectOperandsOk .s8 1 0x3000 0x3000 ∧ overlaps (tableRange .s8 0x3000) (contiguousRange .s8 1 0x3000) = true ∧
      (∀ j < 8, overlaps (tableRange .s8 0x3000) (rowRangeAt u.mem .s8 1 0x3000 j) = false) ∧
      u.clear [tableRange .s8 0x3000] ∧ busHits u.platform .device (u.rectRanges .s8 1 0x3000 0x3000) = true) := by
  decide +kernel

/-- A load of the last byte of a square command's buffer and a store to its first: BUSY, and IDLE after a completion
that the host has not observed. -/
theorem witness_HostAccessToRunningSetsIsARace :
    let buf : Range := { base := 0x8000, len := 8 }
    (∀ s ∈ [busyWith [] 0x8000 0 0 0x01 [.load 0x8007 1] [.host], doneWith [.load 0x8007 1]],
      buf ∈ s.unobserved ∧ overlaps { base := 0x8007, len := 1 } buf = true ∧ s.inputs = [.load 0x8007 1] ∧
      overlaps { base := 0x8007, len := 1 } (windowOf s.platform) = false ∧
      busHits s.platform .device [{ base := 0x8007, len := 1 }] = false) ∧
    (∀ s ∈ [busyWith [] 0x8000 0 0 0x01 [.store 0x8000 [1]] [.host], doneWith [.store 0x8000 [1]]],
      buf ∈ s.unobserved ∧ overlaps { base := 0x8000, len := 1 } buf = true ∧ s.inputs = [.store 0x8000 [1]]) ∧
    (∀ op ∈ [HostOp.clean 0x8007 1, .invalidate 0x8007 1],
      buf ∈ (doneWith [op]).unobserved ∧ (doneWith [op]).inputs = [op]) := by decide

/-- The two states' schedules, for whatever operation. -/
theorem witness_HostAccessToRunningSetsIsARace_next (op : HostOp) :
    (∃ u, (busyWith [] 0x8000 0 0 0x01 [op] [.host]).hostNext u) ∧ (∃ u, (doneWith [op]).hostNext u) :=
  ⟨busyWith_hostNext _ _ _ _ _ _ _, doneWith_hostNext _⟩

/-- R74, R254: the unit completes, and the host loads a byte of the buffer before it has read STATUS. -/
theorem test_load_before_observation :
    let s := nextOr (step (busyWith [] 0x8000 0 0 0x01 [.load 0x8007 1] [.unit])) State.reset
    s.readReg .status = 2 ∧ faults (step s) .hostRace = true := by decide

/-- R76, R254: after a read of STATUS that returns DONE = 1 the same load goes on; after one that returns BUSY = 1 it
is a race still. -/
theorem test_load_after_observation :
    let s := nextOr (step (doneWith [.rd 0x10 8, .load 0x8007 1])) State.reset
    let u := nextOr (step (busyWith [] 0x8000 0 0 0x01 [.rd 0x10 8, .load 0x8007 1] [.host, .host])) State.reset
    s.observed = [.reg 0x10 2] ∧ isNext (step s) = true ∧
    u.observed = [.reg 0x10 1] ∧ faults (step u) .hostRace = true := by decide

/-- While BUSY a host access off the running command's sets goes on. -/
theorem test_host_access_elsewhere :
    isNext (step (busyWith [] 0x8000 0 0 0x01 [.load 0x8008 1] [.host])) = true := by decide

/-- The step that empties the sets, and two that keep them. -/
theorem witness_SetsAreGuardedUntilObserved :
    isNext (step (doneWith [.rd 0x10 8])) = true ∧ isNext (step (doneWith [.rd 0x08 8])) = true ∧
    isNext (step (busyWith [] 0x8000 0 0 0x01 [] [.reset])) = true := by decide

/-- A non-coherent platform with one byte that the host has not invalidated. -/
def notInvalidated (s : State) (a : Nat) : State :=
  { s with platform := { s.platform with coherent := false }, stale := [a] }

/-- A load, a store and an invalidate of one byte: stale, or waiting to be cleaned. -/
theorem witness_HostLoadReadsMemory_notCoherent :
    let q : Range := { base := 0x8007, len := 1 }
    ∀ op ∈ [HostOp.load 0x8007 1, .store 0x8007 [1], .invalidate 0x8007 1, .clean 0x8007 1],
      ∀ s ∈ [notInvalidated (idleWith [op]) 0x8007, notCleaned (idleWith [op]) 0x8007],
        s.inputs = [op] ∧ overlaps q (windowOf s.platform) = false ∧ busHits s.platform .device [q] = false ∧
        (∀ r ∈ s.unobserved, overlaps q r = false) ∧ s.platform.coherent = false ∧
        ((∃ x ∈ s.stale, inRange q x = true) ∨ (∃ x ∈ s.dirty, inRange q x = true)) := by decide

theorem witness_HostLoadReadsMemory_next (op : HostOp) :
    (∃ u, (notInvalidated (idleWith [op]) 0x8007).hostNext u) ∧ (∃ u, (notCleaned (idleWith [op]) 0x8007).hostNext u) :=
  ⟨⟨_, .inr (.inl ⟨rfl, rfl, rfl⟩)⟩, ⟨_, .inr (.inl ⟨rfl, rfl, rfl⟩)⟩⟩

/-- R225 (f): a load of a byte that the unit wrote faults until the host invalidates it. -/
theorem test_load_of_stale_byte :
    faults (step (notInvalidated (idleWith [.load 0x8007 1]) 0x8007)) .notCoherent = true ∧
    (nextOr (step (notInvalidated (idleWith [.invalidate 0x8007 1]) 0x8007)) State.reset).stale = [] := by decide

/-- R256: on a non-coherent platform a stored byte waits to be cleaned, and a clean releases it. -/
theorem test_store_waits_for_clean :
    (nextOr (step (notInvalidated (idleWith [.store 0x9000 [1, 2]]) 0x8007)) State.reset).dirty = [0x9000, 0x9001] ∧
    (nextOr (step (notCleaned (idleWith [.clean 0x8007 1]) 0x8007)) State.reset).dirty = [] := by decide

/-- R256: what a command writes on a non-coherent platform is stale for the host. -/
theorem test_command_makes_stale :
    (nextOr (step (notInvalidated (ready [] 0x9000 0 0 0 0x01) 0x8007)) State.reset).stale =
      0x8007 :: (List.range 8).map (0x9000 + ·) := by decide

/-- The byte after the running command's buffer; the last byte of memory, the unit IDLE; and a byte of the buffer
after the completion is observed. -/
theorem witness_HostLoadReadsMemory :
    let q : Range := { base := 0x8008, len := 1 }
    let s := busyWith [] 0x8000 0 0 0x01 [.load 0x8008 1] [.host]
    let top : Range := { base := 0xFFFFFFFFFFFFFFFF, len := 1 }
    let u := idleWith [.load 0xFFFFFFFFFFFFFFFF 1]
    let seen := nextOr (step (doneWith [.rd 0x10 8, .load 0x8007 1])) State.reset
    (s.inputs = [.load 0x8008 1] ∧ overlaps q (windowOf s.platform) = false ∧
      busHits s.platform .device [q] = false ∧ (∀ r ∈ s.unobserved, overlaps q r = false) ∧
      (∀ x ∈ s.stale, inRange q x = false)) ∧
    (u.inputs = [.load 0xFFFFFFFFFFFFFFFF 1] ∧ (0xFFFFFFFFFFFFFFFF : Word).toNat + 1 ≤ 2 ^ 64 ∧
      overlaps top (windowOf u.platform) = false ∧ (∀ r ∈ u.unobserved, overlaps top r = false)) ∧
    (seen.inputs = [.load 0x8007 1] ∧ seen.turns = [] ∧ seen.latch = none ∧ seen.unobserved = []) := by decide

/-- A store that ends at the top of the address space, the unit IDLE; and one just below the running command's
buffer. -/
theorem witness_HostStoreWritesItsBytes :
    let s := idleWith [.store 0xFFFFFFFFFFFFFFFE [0xAB, 0xCD]]
    let top : Range := { base := 0xFFFFFFFFFFFFFFFE, len := 2 }
    let u := busyWith [] 0x8000 0 0 0x01 [.store 0x7FFE [0xAB, 0xCD]] [.host]
    let q : Range := { base := 0x7FFE, len := 2 }
    (s.inputs = [.store 0xFFFFFFFFFFFFFFFE [0xAB, 0xCD]] ∧ (0xFFFFFFFFFFFFFFFE : Word).toNat + 2 ≤ 2 ^ 64 ∧
      overlaps top (windowOf s.platform) = false ∧ busHits s.platform .device [top] = false ∧
      (∀ r ∈ s.unobserved, overlaps top r = false) ∧ (∀ x ∈ s.stale, inRange top x = false)) ∧
    (u.inputs = [.store 0x7FFE [0xAB, 0xCD]] ∧ overlaps q (windowOf u.platform) = false ∧
      busHits u.platform .device [q] = false ∧ (∀ r ∈ u.unobserved, overlaps q r = false) ∧
      (∀ x ∈ u.stale, inRange q x = false)) := by decide

/-- One next state for each class of command: `CommandsKeepTheRegisters`, `CommandsWriteOnlyTheirWriteSet`. -/
theorem witness_CommandsKeepTheRegisters :
    isNext (exec .transpose8x8Direct (ready [] 0 0 0 0 0x02)) = true ∧
    isNext (exec .transpose16x16 (ready [] 0x1001 0 0 0 0x11)) = true ∧
    isNext (exec .transpose8x8PackedX4 (ready [] 0x1001 0 0 0 0x03)) = true ∧
    isNext (exec .transpose8xN (ready rv1Mem 0x4000 0x3000 5 0 0x04)) = true ∧
    isNext (exec .transposeNx8 (ready rv2Mem 0x3100 0x4000 2 0 0x05)) = true := by decide

theorem witness_ErrorsArePrecise :
    let s := ready [] 0x1008 0 0 0 0x81
    isNext (exec .transpose8x8Aligned s) = true ∧ s.status.err = false ∧
    (nextOr (exec .transpose8x8Aligned s) s).status.err = true := by decide

/-- The state after acceptance of a word meets the invariant and is BUSY, whatever canonical memory and operands. -/
theorem ready_inv (m : Memory) (a0 a1 a2 w : Word) (hm : Memory.wf m = true) : (ready m a0 a1 a2 0 w).Inv where
  memWf := hm
  doneErr := fun h => Bool.false_ne_true h.1
  errCodeNone := fun _ => rfl
  errCodeSome := fun h => absurd h Bool.false_ne_true
  engHardwired := fun _ => rfl
  busyClear := fun _ => ⟨rfl, rfl, rfl⟩
  latchHeld := fun _ h => Option.some.inj h ▸ rfl
  runningGuarded := fun _ h => h
  coherentClean := fun _ => ⟨rfl, rfl⟩

/-- The sets of a square, a k×N and an N×k command: the buffer, and the table, the buffer and the last row. -/
theorem witness_HostAccessToRunningSetsIsARace_sets :
    ((ready [] 0x8000 0 0 0 0x01).Inv ∧ (ready [] 0x8000 0 0 0 0x01).latch = some (latchOf 0x8000 0 0 0x01) ∧
      decode 0x01 = .ok .transpose8x8 ∧
      inAccessSet [] (latchOf 0x8000 0 0 0x01).ops Instr.transpose8x8.command { base := 0x8000, len := 8 }) ∧
    (kx8.Inv ∧ kx8.latch = some (latchOf 0x4000 0x3000 1 0x04) ∧ decode 0x04 = .ok .transpose8xN ∧
      ∀ r ∈ [({ base := 0x3000, len := 64 } : Range), { base := 0x4000, len := 8 }, { base := 0x1007, len := 1 }],
        inAccessSet kx8.mem (latchOf 0x4000 0x3000 1 0x04).ops Instr.transpose8xN.command r) ∧
    (nx8.Inv ∧ nx8.latch = some (latchOf 0x3000 0x4000 1 0x05) ∧ decode 0x05 = .ok .transposeNx8 ∧
      ∀ r ∈ [({ base := 0x3000, len := 64 } : Range), { base := 0x4000, len := 8 }, { base := 0x1007, len := 1 }],
        inAccessSet nx8.mem (latchOf 0x3000 0x4000 1 0x05).ops Instr.transposeNx8.command r) := by
  simp only [List.mem_cons, List.not_mem_nil, or_false, forall_eq_or_imp, forall_eq]
  refine ⟨⟨ready_inv _ _ _ _ _ rfl, by decide, by decide, rfl⟩,
    ⟨ready_inv _ _ _ _ _ (by decide +kernel), by decide, by decide, ?_⟩,
    ⟨ready_inv _ _ _ _ _ (by decide +kernel), by decide, by decide, ?_⟩⟩ <;>
  exact ⟨⟨by decide, .inl (by decide)⟩, ⟨by decide, .inr (.inl (by decide))⟩,
    ⟨by decide, .inr (.inr ⟨7, by decide +kernel⟩)⟩⟩

theorem witness_CompletionRecordsOneOutcome :
    (ready [] 0x1000 0 0 0 0x01).Inv ∧ (ready [] 0x1000 0 0 0 0x01).busy = true ∧
    isNext (exec .transpose8x8 (ready [] 0x1000 0 0 0 0x01)) = true :=
  ⟨ready_inv _ _ _ _ _ rfl, rfl, by decide⟩

/-- Two memories that agree on the pointer table and differ in the rows. -/
theorem witness_AccessSetIsDataOblivious :
    let s := ready (rowsApart 0x1000 1) 0x4000 0x3000 1 0 0x04
    let s' := { s with mem := Memory.write s.mem 0x1000 [1] }
    s'.platform = s.platform ∧ s'.dirty = s.dirty ∧ s'.operands = s.operands ∧ s'.draw = s.draw ∧
    (∀ x < 64, Memory.byte s'.mem (0x3000 + x) = Memory.byte s.mem (0x3000 + x)) ∧ s'.mem ≠ s.mem := by decide +kernel

/-- B1's word, twice. -/
theorem witness_SquareCommandsAreInvolutions :
    let s := ready (Memory.write [] 0x1003 [0xEF, 0xBE, 0xAD, 0xDE, 0x47, 0x42, 0x37, 0x13]) 0x1003 0 0 0 0x01
    let s' := { s with mem := (nextOr (exec .transpose8x8 s) s).mem }
    isNext (exec .transpose8x8 s) = true ∧ s'.operands.arg0 = s.operands.arg0 ∧
    isNext (exec .transpose8x8 s') = true ∧ s'.mem ≠ s.mem := by decide

/-- RV2 with N = 1, and back into a buffer at 0x6000. -/
theorem witness_RectangularRoundTrip :
    let s := ready rv2Mem 0x3100 0x4000 1 0 0x05
    let t := nextOr (exec .transposeNx8 s) s
    let s' := ready t.mem 0x6000 0x3100 1 0 0x04
    s.rectOperandsOk .s8 1 0x3100 0x4000 ∧
    (∀ j < 8, overlaps (tableRange .s8 0x3100) (rowRangeAt s.mem .s8 1 0x3100 j) = false) ∧
    s.clear (s.rectRanges .s8 1 0x3100 0x4000) ∧ isNext (exec .transposeNx8 s) = true ∧
    s'.operands.arg1 = s.operands.arg0 ∧ s'.operands.arg2 = s.operands.arg2 ∧
    s'.rectOperandsOk .s8 1 0x3100 0x6000 ∧
    overlaps (tableRange .s8 0x3100) (contiguousRange .s8 1 0x6000) = false ∧
    s'.clear (s'.rectRanges .s8 1 0x3100 0x6000) ∧ isNext (exec .transpose8xN s') = true := by decide +kernel

theorem witness_StepKeepsTheInvariant :
    (ready [] 0x1000 0 0 0 0x01).Inv ∧ isNext (step (ready [] 0x1000 0 0 0 0x01)) = true :=
  ⟨ready_inv _ _ _ _ _ rfl, by decide⟩

end Sys2Proof.Tests
end

section
/-! PROOF. What a command's plan depends on (R11, R68), and that CTRL.ENG is no part of it (R3, R23). -/

namespace Sys2Proof.Proofs

open Sys2Proof Sys2Proof.Machine Sys2Proof.Laws

/-! ### What a plan depends on -/

section PlanDependsOn

variable {s s' : State} (hp : s'.platform = s.platform) (hd : s'.dirty = s.dirty)

include hp hd

/-- The violations of R225 are judged by the platform's map and the uncleaned bytes. -/
theorem stopOn_eq_of_platform_dirty (rs : List Range) : s'.stopOn rs = s.stopOn rs := by
  simp only [State.stopOn, hp, hd]

theorem dataPlan_eq_of_platform_dirty (d : Bool) (reads writes : List Range) :
    s'.dataPlan d reads writes = s.dataPlan d reads writes := by
  simp only [State.dataPlan, stopOn_eq_of_platform_dirty hp hd]

theorem tablePhase_eq_of_draw (hw : s'.draw = s.draw) (table : Range) (rest : Plan) :
    s'.tablePhase table rest = s.tablePhase table rest := by
  simp only [State.tablePhase, stopOn_eq_of_platform_dirty hp hd, hp, hw]

variable (ho : s'.operands = s.operands)

include ho

theorem bufferPlan_eq_of_operands (len : Nat) (al : Bool) : s'.bufferPlan len al = s.bufferPlan len al := by
  simp only [State.bufferPlan, stopOn_eq_of_platform_dirty hp hd, ho]

variable (hw : s'.draw = s.draw)

include hw

/-- A `transpose_<k>xN` plan looks at no byte of memory but those of the pointer table at ARG1. -/
theorem kxnPlan_eq_of_table {z : Size}
    (ht : ∀ x, inRange (tableRange z s.operands.arg1.toNat) x = true → Memory.byte s'.mem x = Memory.byte s.mem x) :
    s'.kxnPlan z = s.kxnPlan z := by
  have hentries : tableEntries s'.mem s.operands.arg1.toNat (sizeBits z) =
      tableEntries s.mem s.operands.arg1.toNat (sizeBits z) := tableEntries_congr ht
  simp only [State.kxnPlan, ho, hentries, dataPlan_eq_of_platform_dirty hp hd, tablePhase_eq_of_draw hp hd hw]

/-- A `transpose_Nx<k>` plan looks at no byte of memory but those of the pointer table at ARG0. -/
theorem nxkPlan_eq_of_table {z : Size}
    (ht : ∀ x, inRange (tableRange z s.operands.arg0.toNat) x = true → Memory.byte s'.mem x = Memory.byte s.mem x) :
    s'.nxkPlan z = s.nxkPlan z := by
  have hentries : tableEntries s'.mem s.operands.arg0.toNat (sizeBits z) =
      tableEntries s.mem s.operands.arg0.toNat (sizeBits z) := tableEntries_congr ht
  simp only [State.nxkPlan, ho, hentries, dataPlan_eq_of_platform_dirty hp hd, tablePhase_eq_of_draw hp hd hw]

end PlanDependsOn

/-- Settles O56: class by class, only a rectangular plan reads memory, and it reads its pointer table alone. -/
theorem accessSetIsDataOblivious : Obligations.AccessSetIsDataOblivious := by
  intro i s s' hp hd ho hw hkxn hnxk
  cases hc : i.command with
  | sq z al => exact bufferPlan_eq_of_operands hp hd ho (blockBytes z) al
  | d8 => rfl
  | p8x4 al => exact bufferPlan_eq_of_operands hp hd ho packedBytes al
  | kxn z => exact kxnPlan_eq_of_table hp hd ho hw (hkxn z hc)
  | nxk z => exact nxkPlan_eq_of_table hp hd ho hw (hnxk z hc)

/-! ### The engine bit -/

/-- The state with CTRL.ENG set to b (R23). -/
def withEng (b : Bool) (s : State) : State := { s with ctrl := { s.ctrl with eng := b } }

/-- An outcome with its next state, if it has one, changed by f. -/
def mapNext (f : State → State) : Host.Outcome State Fault Refusal → Host.Outcome State Fault Refusal
  | .next t    => .next (f t)
  | .fault r   => .fault r
  | .refused r => .refused r

@[simp] theorem withEng_platform (b : Bool) (s : State) : (withEng b s).platform = s.platform := rfl

/-- A commit does not look at ENG. -/
theorem withEng_commit (b : Bool) (s : State) (ws : List Range) (sts : List Store) :
    (withEng b s).commit ws sts = withEng b (s.commit ws sts) := rfl

theorem withEng_plan (b : Bool) (s : State) (i : Instr) : (withEng b s).plan i.command = s.plan i.command :=
  accessSetIsDataOblivious i s (withEng b s) rfl rfl rfl rfl (fun _ _ _ _ => rfl) (fun _ _ _ _ => rfl)

theorem storesOf_withEng (b : Bool) (s : State) (i : Instr) : storesOf i (withEng b s) = storesOf i s := by
  cases i <;> rfl

/-- A plan performed with stores that do not look at ENG gives the same outcome, but for ENG itself. -/
theorem perform_withEng {b : Bool} {s : State} {stores : State → List Store} (p : Plan)
    (hst : stores (withEng b s) = stores s) :
    (withEng b s).perform p stores = mapNext (withEng b) (s.perform p stores) := by
  cases p with
  | error code addr _ => rfl
  | nothing => rfl
  | hang _ => rfl
  | stop w _ => cases w <;> rfl
  | access rs ws =>
    simp only [State.perform, withEng_platform, withEng_commit, hst]
    split
    · rfl
    · split <;> rfl

theorem exec_withEng (i : Instr) (s : State) (b : Bool) :
    exec i (withEng b s) = mapNext (withEng b) (exec i s) := by
  by_cases hi : i = .transpose8x8Direct
  · subst hi
    rfl
  · rw [exec_eq_perform i _ hi, exec_eq_perform i s hi, withEng_plan]
    exact perform_withEng _ (storesOf_withEng b s i)

/-- Settles O29: neither a command's plan, nor its stores, nor its completion looks at ENG. -/
theorem engineChangesNoResult : Obligations.EngineChangesNoResult := by
  intro i s b
  refine (exec_withEng i s b).trans ?_
  cases exec i s <;> rfl

end Sys2Proof.Proofs
end

section
/-! PROOF. The host's accesses to system memory that nothing stops (R20, R75, R76, R256). -/

namespace Sys2Proof.Proofs

open Sys2Proof Sys2Proof.Machine Sys2Proof.Laws

theorem touches_eq_true {as : List Nat} {r : Range} : touches as r = true ↔ ∃ x ∈ as, inRange r x = true := by
  simp [touches]

theorem touches_eq_false {as : List Nat} {r : Range} : touches as r = false ↔ ∀ x ∈ as, inRange r x = false := by
  simp [touches]

/-- In each schedule in which the host moves, its next operation is performed from u, unless it is a wait. -/
theorem step_hostOp {s u : State} {op : HostOp} {ops : List HostOp} (h : s.hostNext u)
    (hi : s.inputs = op :: ops) (hw : op ≠ .wait) : step s = State.hostOp { u with inputs := ops } op := by
  have hu : u.inputs = op :: ops := by
    obtain ⟨ts, f, rfl⟩ := hostNext_eq h
    exact hi
  rw [step_hostNext h, hostMove_cons hu fun e => absurd e hw]

/-! ### A host access that `hostStop` lets go on -/

section Allowed

variable {s : State} {a : Word}

theorem hostLoad_of_allowed {n : Nat} (h : s.hostStop { base := a.toNat, len := n } = none) :
    s.hostLoad a n =
      if touches s.stale { base := a.toNat, len := n } then .fault .notCoherent
      else .next { s with observed := s.observed ++ [.mem a (s.mem.read a.toNat n)] } := by
  simp only [State.hostLoad, h]
  rfl

theorem hostStore_of_allowed {bs : List Byte} (h : s.hostStop { base := a.toNat, len := bs.length } = none) :
    s.hostStore a bs =
      if touches s.stale { base := a.toNat, len := bs.length } then .fault .notCoherent
      else .next { s with
        mem := s.mem.write a.toNat bs
        dirty := if s.platform.coherent then s.dirty
          else s.dirty ++ addressesOf { base := a.toNat, len := bs.length } } := by
  simp only [State.hostStore, h]

theorem hostClean_of_allowed {n : Nat} (h : s.hostStop { base := a.toNat, len := n } = none) :
    s.hostClean a n = .next { s with dirty := outside s.dirty { base := a.toNat, len := n } } := by
  simp only [State.hostClean, h]

theorem hostInvalidate_of_allowed {n : Nat} (h : s.hostStop { base := a.toNat, len := n } = none) :
    s.hostInvalidate a n =
      if touches s.dirty { base := a.toNat, len := n } then .fault .notCoherent
      else .next { s with stale := outside s.stale { base := a.toNat, len := n } } := by
  simp only [State.hostInvalidate, h]

end Allowed

/-! ### The step that performs it -/

section StepAllowed

variable {s u : State} {a : Word} {ops : List HostOp} (hn : s.hostNext u)

include hn

theorem step_load {n : Nat} (hi : s.inputs = .load a n :: ops)
    (h : s.hostStop { base := a.toNat, len := n } = none) :
    step s =
      if touches s.stale { base := a.toNat, len := n } then .fault .notCoherent
      else .next { u with inputs := ops, observed := s.observed ++ [.mem a (s.mem.read a.toNat n)] } := by
  rw [step_hostOp hn hi (by simp)]
  obtain ⟨ts, f, rfl⟩ := hostNext_eq hn
  exact hostLoad_of_allowed h

theorem step_store {bs : List Byte} (hi : s.inputs = .store a bs :: ops)
    (h : s.hostStop { base := a.toNat, len := bs.length } = none) :
    step s =
      if touches s.stale { base := a.toNat, len := bs.length } then .fault .notCoherent
      else .next { u with
        inputs := ops
        mem := s.mem.write a.toNat bs
        dirty := if s.platform.coherent then s.dirty
          else s.dirty ++ addressesOf { base := a.toNat, len := bs.length } } := by
  rw [step_hostOp hn hi (by simp)]
  obtain ⟨ts, f, rfl⟩ := hostNext_eq hn
  exact hostStore_of_allowed h

theorem step_clean {n : Nat} (hi : s.inputs = .clean a n :: ops)
    (h : s.hostStop { base := a.toNat, len := n } = none) :
    step s = .next { u with inputs := ops, dirty := outside s.dirty { base := a.toNat, len := n } } := by
  rw [step_hostOp hn hi (by simp)]
  obtain ⟨ts, f, rfl⟩ := hostNext_eq hn
  exact hostClean_of_allowed h

theorem step_invalidate {n : Nat} (hi : s.inputs = .invalidate a n :: ops)
    (h : s.hostStop { base := a.toNat, len := n } = none) :
    step s =
      if touches s.dirty { base := a.toNat, len := n } then .fault .notCoherent
      else .next { u with inputs := ops, stale := outside s.stale { base := a.toNat, len := n } } := by
  rw [step_hostOp hn hi (by simp)]
  obtain ⟨ts, f, rfl⟩ := hostNext_eq hn
  exact hostInvalidate_of_allowed h

end StepAllowed

/-- Settles O50: a load and an invalidate that nothing stops, by whether a byte of the range is stale, or waits to be
cleaned. -/
theorem hostLoadReadsMemory : Obligations.HostLoadReadsMemory := by
  intro s u a n ops q hn hlen hwin hdev hsets
  have hgo : s.hostStop q = none := hostStop_eq_none.mpr ⟨hlen, hwin, hdev, hsets⟩
  constructor
  · intro hi
    rw [step_load hn hi hgo]
    constructor
    · intro hfresh
      exact ⟨s.mem.read a.toNat n, read_length _ _ _, fun i h => getD_read _ _ _ _ h,
        if_neg (ne_true_of_eq_false (touches_eq_false.mpr hfresh))⟩
    · exact fun hstale => if_pos (touches_eq_true.mpr hstale)
  · intro hi
    rw [step_invalidate hn hi hgo]
    constructor
    · intro hclean
      exact ⟨outside s.stale q, fun x => mem_outside,
        if_neg (ne_true_of_eq_false (touches_eq_false.mpr hclean))⟩
    · exact fun hdirty => if_pos (touches_eq_true.mpr hdirty)

/-- Settles O51: a store that nothing stops, by whether a byte of the range is stale, and a clean. -/
theorem hostStoreWritesItsBytes : Obligations.HostStoreWritesItsBytes := by
  intro s u a ops hn
  constructor
  · intro bs q hi hlen hwin hdev hsets
    rw [step_store hn hi (hostStop_eq_none.mpr ⟨hlen, hwin, hdev, hsets⟩)]
    constructor
    · intro hfresh
      refine ⟨s.mem.write a.toNat bs, _, if_neg (ne_true_of_eq_false (touches_eq_false.mpr hfresh)), ?_, ?_,
        fun hc => if_pos hc, fun hc => if_neg (ne_true_of_eq_false hc)⟩
      · intro i h
        rw [byte_write, if_pos (by omega), Nat.add_sub_cancel_left]
      · exact fun x hx => byte_write_outside _ _ _ x (hx q (List.mem_singleton_self q))
    · exact fun hstale => if_pos (touches_eq_true.mpr hstale)
  · intro n q hi hlen hwin hdev hsets
    exact ⟨outside s.dirty q, fun x => mem_outside,
      step_clean hn hi (hostStop_eq_none.mpr ⟨hlen, hwin, hdev, hsets⟩)⟩

end Sys2Proof.Proofs
end

section
/-! PROOF. Every step keeps the invariant: one lemma per move of the unit, the host and the reset input. -/

namespace Sys2Proof.Proofs

open Sys2Proof Sys2Proof.Machine Sys2Proof.Laws

/-! ### STATUS -/

/-- What the invariant asks of STATUS, BUSY or IDLE: at most one outcome, and an error code exactly with ERR (R24,
R211). -/
def StatusWf (t : Status) : Prop :=
  ¬(t.done = true ∧ t.err = true) ∧ (t.err = false → t.errCode = .none) ∧ (t.err = true → t.errCode ≠ .none)

theorem statusWf_of_inv {s : State} (hs : s.Inv) : StatusWf s.status :=
  ⟨hs.doneErr, hs.errCodeNone, hs.errCodeSome⟩

theorem statusWf_done {t : Status} (h : StatusWf t) (he : t.err = false) : StatusWf { t with done := true } :=
  ⟨by simp [he], h.2⟩

theorem statusWf_error {t : Status} {c : ErrCode} (hd : t.done = false) (hc : c ≠ .none) :
    StatusWf { t with err := true, errCode := c } :=
  ⟨by simp [hd], by simp [hc]⟩

/-- Clearing ERR clears its code with it (R24). -/
theorem statusWf_clear {t : Status} (h : StatusWf t) (v : Word) : StatusWf (t.clear v) := by
  obtain ⟨hex, hnone, hsome⟩ := h
  have hex' : ¬((t.clear v).done = true ∧ (t.clear v).err = true) := fun ⟨hd, he⟩ =>
    hex ⟨(Bool.and_eq_true_iff.mp hd).1, (Bool.and_eq_true_iff.mp he).1⟩
  cases hv : v.getLsbD 2
  · exact ⟨hex', by simpa only [Status.clear, hv, Bool.not_false, Bool.and_true] using ⟨hnone, hsome⟩⟩
  · exact ⟨hex', by simp only [Status.clear, hv]; simp⟩

/-! ### States with nothing latched, and changes that keep what is latched -/

/-- Of an IDLE unit the invariant asks nothing about a command. -/
theorem inv_of_idle {t : State} (hl : t.latch = none) (hm : Memory.wf t.mem = true) (ht : StatusWf t.status)
    (heng : t.platform.hasVec = false → t.ctrl.eng = false)
    (hclean : t.platform.coherent = true → t.dirty = [] ∧ t.stale = []) : t.Inv where
  memWf := hm
  doneErr := ht.1
  errCodeNone := ht.2.1
  errCodeSome := ht.2.2
  engHardwired := heng
  busyClear hb := by simp [State.busy, hl] at hb
  latchHeld l h := by simp [hl] at h
  runningGuarded r hr := by simp [runningSet_idle hl] at hr
  coherentClean := hclean

/-- The invariant says nothing of the turns, the free values, the host's operations and what it has read. -/
theorem inv_with_schedule {s : State} (hs : s.Inv) (ts : List Turn) (f : Nat) (ops : List HostOp)
    (os : List Observation) : State.Inv { s with turns := ts, free := f, inputs := ops, observed := os } :=
  { hs with }

theorem inv_with_status {s : State} (hs : s.Inv) {t : Status} (ht : StatusWf t)
    (hb : s.busy = true → t.done = false ∧ t.err = false) : State.Inv { s with status := t } :=
  { hs with
    doneErr := ht.1
    errCodeNone := ht.2.1
    errCodeSome := ht.2.2
    busyClear := fun h => ⟨(hb h).1, (hb h).2, (hs.busyClear h).2.2⟩ }

/-! ### The unit's move -/

theorem markStale_eq_nil {s : State} (hs : s.Inv) (hc : s.platform.coherent = true) (ws : List Range) :
    s.markStale ws = [] := (if_pos hc).trans (hs.coherentClean hc).2

/-- A command that goes on from a BUSY unit keeps the invariant. -/
theorem exec_inv {i : Instr} {s t : State} (hs : s.Inv) (hb : s.busy = true) (h : exec i s = .next t) : t.Inv := by
  obtain ⟨hdone, herr, -⟩ := hs.busyClear hb
  have hok : StatusWf { s.status with done := true } := statusWf_done (statusWf_of_inv hs) herr
  obtain ⟨-, rfl⟩ | ⟨-, ⟨c, a, rs, hp, rfl⟩ | ⟨-, rfl⟩ | ⟨rfl, -⟩ | ⟨rs, ws, hp, -, -, rfl⟩⟩ := exec_next h
  · exact inv_of_idle rfl hs.memWf hok hs.engHardwired hs.coherentClean
  · exact inv_of_idle rfl hs.memWf (statusWf_error hdone (plan_error hp)) hs.engHardwired hs.coherentClean
  · exact inv_of_idle rfl hs.memWf hok hs.engHardwired hs.coherentClean
  · exact hs
  · refine inv_of_idle rfl (commit_wf hp hs.memWf) hok hs.engHardwired fun hc => ?_
    exact ⟨(hs.coherentClean hc).1, markStale_eq_nil hs hc ws⟩

theorem unitMove_inv {s t : State} (hs : s.Inv) (h : s.unitMove = .next t) : t.Inv := by
  obtain ⟨-, rfl⟩ | ⟨l, i, hl, -, hx⟩ | ⟨hb, rfl⟩ := unitMove_next h
  · exact hs
  · exact exec_inv hs (busy_eq_true hl) hx
  · exact inv_of_idle rfl hs.memWf (statusWf_error (hs.busyClear hb).1 (by decide)) hs.engHardwired hs.coherentClean

/-! ### The host's move -/

/-- Acceptance latches the registers as they stand and guards the command's sets (R37, R254). -/
theorem issue_inv {s : State} (hs : s.Inv) (v : Word) : (s.issue v).Inv where
  memWf := hs.memWf
  doneErr := by simp
  errCodeNone := by simp
  errCodeSome := by simp
  engHardwired := hs.engHardwired
  busyClear := by simp
  latchHeld l h := by
    injection h with h
    exact h ▸ rfl
  runningGuarded r hr := List.mem_append_right _ hr
  coherentClean := hs.coherentClean

theorem writeRegBusy_inv {s : State} (hs : s.Inv) (hb : s.busy = true) (v : Word) (r : Reg) :
    (s.writeRegBusy v r).Inv := by
  obtain ⟨hdone, herr, -⟩ := hs.busyClear hb
  have hdrop : s.dropWrite.Inv :=
    inv_with_status hs (t := { s.status with drop := true }) (statusWf_of_inv hs) fun _ => ⟨hdone, herr⟩
  cases r
  case status =>
    exact inv_with_status hs (statusWf_clear (statusWf_of_inv hs) v) fun _ => by simp [Status.clear, hdone, herr]
  case ctrl | cmd | arg0 | arg1 | arg2 | data => exact hdrop
  case cap | errAddr | reserved => exact hs

/-- ENG is hardwired to 0 where HAS_VEC = 0 (R23). -/
theorem ctrlOfWrite_eng_of_no_vec {p : Platform} (v : Word) (h : p.hasVec = false) : (ctrlOfWrite p v).eng = false := by
  simp [ctrlOfWrite, h]

theorem writeRegIdle_inv {s : State} (hs : s.Inv) (hl : s.latch = none) (v : Word) (r : Reg) :
    (s.writeRegIdle v r).Inv := by
  have hst := statusWf_of_inv hs
  cases r
  case cmd => exact issue_inv hs v
  case ctrl => exact inv_of_idle hl hs.memWf hst (ctrlOfWrite_eng_of_no_vec v) hs.coherentClean
  case status => exact inv_of_idle hl hs.memWf (statusWf_clear hst v) hs.engHardwired hs.coherentClean
  case arg0 | arg1 | arg2 | data => exact inv_of_idle hl hs.memWf hst hs.engHardwired hs.coherentClean
  case cap | errAddr | reserved => exact hs

theorem writeReg_inv {s : State} (hs : s.Inv) (r : Reg) (v : Word) : (s.writeReg r v).Inv := by
  unfold State.writeReg
  split
  · exact writeRegBusy_inv hs ‹_› v r
  · exact writeRegIdle_inv hs (by simpa [State.busy] using ‹¬s.busy = true›) v r

/-- A read frees the guarded sets only where the unit is IDLE, with nothing running (R76). -/
theorem readBy_inv {s : State} (hs : s.Inv) (off : BitVec 8) : (s.readBy off).Inv := by
  rw [readBy_eq]
  refine { hs with runningGuarded := fun r hr => ?_ }
  split
  · rename_i hseen
    have hl : s.latch = none := by simpa [State.completionVisible, State.busy] using (Bool.and_eq_true_iff.mp hseen.2).1
    exact absurd (runningSet_idle hl ▸ hr : r ∈ []) List.not_mem_nil
  · exact hs.runningGuarded r hr

/-- Ranges that do not overlap share no address. -/
theorem inRange_eq_false_of_overlaps {r q : Range} {x : Nat} (h : overlaps r q = false) (hq : inRange q x = true) :
    inRange r x = false := by
  by_contra hr
  simp only [inRange, overlaps, Bool.and_eq_true, Bool.and_eq_false_iff, decide_eq_true_eq,
    decide_eq_false_iff_not] at h hq hr
  omega

/-- A write off the running command's sets changes none of them, not even those that its pointer table names. -/
theorem mem_runningSet_of_write {s t : State} {a : Nat} {bs : List Byte} {r : Range} (hr : r ∈ t.runningSet)
    (hl : t.latch = s.latch) (hm : t.mem = s.mem.write a bs)
    (hoff : ∀ q ∈ s.runningSet, overlaps { base := a, len := bs.length } q = false) : r ∈ s.runningSet := by
  rwa [← runningSet_congr hl fun q hq x hx => ?_]
  rw [hm]
  exact byte_write_outside _ _ _ x (inRange_eq_false_of_overlaps (hoff q hq) hx)

/-- A store that nothing stops lies off the guarded sets (R74). -/
theorem store_inv {s : State} (hs : s.Inv) {a : Word} {bs : List Byte}
    (h : s.hostStop { base := a.toNat, len := bs.length } = none) :
    State.Inv { s with
      mem := s.mem.write a.toNat bs
      dirty := if s.platform.coherent then s.dirty
        else s.dirty ++ addressesOf { base := a.toNat, len := bs.length } } := by
  obtain ⟨hspace, -, -, hoff⟩ := hostStop_eq_none.mp h
  exact { hs with
    memWf := write_wf hs.memWf hspace
    runningGuarded := fun r hr => hs.runningGuarded r 
      (mem_runningSet_of_write hr rfl rfl fun q hq => hoff q (hs.runningGuarded q hq))
    coherentClean := fun hc => ⟨(if_pos hc).trans (hs.coherentClean hc).1, (hs.coherentClean hc).2⟩ }

/-- Cleaning and invalidating only shorten the records, which are empty on a coherent platform (R79). -/
theorem inv_with_outside {s : State} (hs : s.Inv) (r : Range) :
    State.Inv { s with dirty := outside s.dirty r } ∧ State.Inv { s with stale := outside s.stale r } := by
  constructor <;> refine { hs with coherentClean := fun hc => ?_ } <;>
    simp [outside, hs.coherentClean hc]

theorem hostOp_inv {s t : State} (hs : s.Inv) {op : HostOp} (h : s.hostOp op = .next t) : t.Inv := by
  obtain ⟨off, -, rfl⟩ | ⟨off, w, v, -, -, rfl⟩ | ⟨a, n, -, -, -, rfl⟩ | ⟨a, bs, -, hgo, -, rfl⟩ |
    ⟨a, n, -, -, rfl⟩ | ⟨a, n, -, -, -, rfl⟩ := hostOp_next h
  · exact readBy_inv hs off
  · exact writeReg_inv hs _ v
  · exact inv_with_schedule hs _ _ _ _
  · exact store_inv hs hgo
  · exact (inv_with_outside hs _).1
  · exact (inv_with_outside hs _).2

theorem hostMove_inv {s t : State} (hs : s.Inv) (h : s.hostMove = .next t) : t.Inv := by
  obtain rfl | ⟨op, ops, -, hop⟩ := hostMove_next h
  · exact hs
  · exact hostOp_inv (inv_with_schedule hs _ _ ops _) hop

/-! ### The reset input -/

/-- The bytes an abandoned command leaves unspecified are exactly the ranges given (R250). -/
theorem abandonedStores_range (d : Nat) (ws : List Range) : (abandonedStores d ws).map storeRange = ws := by
  simp [abandonedStores, storeRange, addressesOf, Function.comp_def]

/-- A write set clipped to the address space lies in it. -/
theorem inSpace_runningWriteSet_ok {s : State} {r : Range} (h : r ∈ s.runningWriteSet.map inSpace) :
    r.base + r.len ≤ 2 ^ 64 := by
  obtain ⟨q, hq, rfl⟩ := List.mem_map.mp h
  have hbase := base_lt_of_mem_runningWriteSet hq
  change q.base + min q.len (2 ^ 64 - q.base) ≤ 2 ^ 64
  omega

theorem resetMove_inv {s t : State} (hs : s.Inv) (h : s.resetMove = .next t) : t.Inv := by
  have hst : StatusWf s.resetRegisters.status := by simp [StatusWf]
  obtain ⟨-, rfl⟩ | ⟨-, rfl⟩ := resetMove_next h
  · exact inv_of_idle rfl hs.memWf hst (fun _ => rfl) hs.coherentClean
  · refine inv_of_idle rfl (writeAll_wf hs.memWf fun st hst => ?_) hst (fun _ => rfl) fun hc => ?_
    · exact inSpace_runningWriteSet_ok (mem_of_map_storeRange (abandonedStores_range _ _) hst)
    · exact ⟨(hs.coherentClean hc).1, markStale_eq_nil hs hc _⟩

/-! ### The invariant -/

/-- Settles O59. -/
theorem invariantHoldsAtReset : Obligations.InvariantHoldsAtReset :=
  inv_of_idle rfl rfl (by simp [StatusWf, State.reset]) (fun _ => rfl) (fun _ => ⟨rfl, rfl⟩)

/-- Settles O60: each of the three movers keeps the invariant, and the turn taken and the free value drawn are no part
of it. -/
theorem stepKeepsTheInvariant : Obligations.StepKeepsTheInvariant := by
  intro s s' hs h
  obtain ⟨ts, f, hmove⟩ := step_moves (s := s)
  have hu := inv_with_schedule hs ts f s.inputs s.observed
  rw [h] at hmove
  obtain hm | hm | ⟨hm, -⟩ := hmove
  · exact unitMove_inv hu hm.symm
  · exact hostMove_inv hu hm.symm
  · exact resetMove_inv hu hm.symm

/-- Settles O55: by the ways a command can go on; an error plan has a code, and ERRADDR is 0 while BUSY. -/
theorem completionRecordsOneOutcome : Obligations.CompletionRecordsOneOutcome := by
  intro i s t hs hb h
  obtain ⟨hdone, herr, haddr⟩ := hs.busyClear hb
  have hcode := hs.errCodeNone herr
  obtain ⟨-, rfl⟩ | ⟨-, ⟨c, a, rs, hp, rfl⟩ | ⟨-, rfl⟩ | ⟨rfl, -⟩ | ⟨rs, ws, -, -, -, rfl⟩⟩ := exec_next h
  case inr.inr.inr.inl => exact .inl rfl
  case inr.inl => exact .inr ⟨rfl, by simp [hdone], by simp [plan_error hp], by simp [hdone]⟩
  all_goals exact .inr ⟨rfl, by simp [herr], by simp [herr, hcode], fun _ => haddr⟩

/-- Settles O52: by the ways a command can go on, none of which reaches these fields. -/
theorem commandsKeepTheRegisters : Obligations.CommandsKeepTheRegisters := by
  intro i s t h
  obtain ⟨rfl, rfl⟩ | ⟨-, ⟨c, a, rs, -, rfl⟩ | ⟨-, rfl⟩ | ⟨rfl, -⟩ | ⟨rs, ws, -, -, -, rfl⟩⟩ := exec_next h
  all_goals simp

end Sys2Proof.Proofs
end

section
/-! PROOF. The host's reads and writes of the register window (R21 to R24, R37 to R42), the words it reads there, and
the steps that take them. -/

namespace Sys2Proof.Proofs

open Sys2Proof Sys2Proof.Machine Sys2Proof.Laws

/-! ### Fields of a register word -/

/-- Bit i of a field's word. -/
theorem getLsbD_fieldAt {w : Nat} (v : BitVec w) (lo i : Nat) :
    (fieldAt v lo).getLsbD i = (decide (i < 64) && decide (lo ≤ i) && v.getLsbD (i - lo)) := by
  by_cases hlo : lo ≤ i
  · by_cases hi : i < 64 <;> simp [fieldAt, hlo, hi]
  · simp [fieldAt, hlo]

/-- A flag's word holds the flag, and 0 elsewhere. -/
@[simp] theorem getElem_flagAt (b : Bool) (lo i : Nat) (hi : i < 64) :
    (flagAt b lo)[i] = (decide (i = lo) && b) := by
  rw [← BitVec.getLsbD_eq_getElem, flagAt, getLsbD_fieldAt, BitVec.getLsbD_ofBool]
  by_cases hlo : i = lo
  · simp [hlo ▸ hi, hlo]
  · by_cases hle : lo ≤ i <;> simp [hlo, hle]
    omega

@[simp] theorem getElem_fieldAt {w : Nat} (v : BitVec w) (lo i : Nat) (hi : i < 64) :
    (fieldAt v lo)[i] = (decide (lo ≤ i) && v.getLsbD (i - lo)) := by
  rw [← BitVec.getLsbD_eq_getElem, getLsbD_fieldAt, decide_eq_true hi, Bool.true_and]

/-- A field reads back. -/
@[simp] theorem extractLsb'_fieldAt_self {w : Nat} (v : BitVec w) (lo : Nat) (h : lo + w ≤ 64) :
    (fieldAt v lo).extractLsb' lo w = v := by
  ext i hi
  rw [BitVec.getElem_extractLsb', getLsbD_fieldAt, Nat.add_sub_cancel_left, BitVec.getLsbD_eq_getElem hi]
  simp [show lo + i < 64 by omega]

/-- Off the field its word is 0. -/
@[simp] theorem extractLsb'_fieldAt_off {w : Nat} (v : BitVec w) (lo a n : Nat) (h : a + n ≤ lo ∨ lo + w ≤ a) :
    (fieldAt v lo).extractLsb' a n = 0 := by
  ext i hi
  rw [BitVec.getElem_extractLsb', getLsbD_fieldAt]
  obtain hbelow | habove := h
  · simp [show ¬lo ≤ a + i by omega]
  · simp [BitVec.getLsbD_of_ge v (a + i - lo) (by omega)]

@[simp] theorem extractLsb'_flagAt_off (b : Bool) (lo a n : Nat) (h : a + n ≤ lo ∨ lo + 1 ≤ a) :
    (flagAt b lo).extractLsb' a n = 0 := extractLsb'_fieldAt_off _ _ _ _ h

/-- Settles O13: each field alone reaches its bits. -/
theorem statusAndCtrlFields : Obligations.StatusAndCtrlFields := by
  intro b t c
  have hcode : (statusWord b t).extractLsb' 8 4 = t.errCode.code := by simp [statusWord, BitVec.extractLsb'_or]
  refine ⟨?_, ?_, ?_, ?_, ?_, hcode.trans (by cases t.errCode <;> rfl), ?_, ?_, ?_, ?_⟩ <;>
    simp [statusWord, Ctrl.word, BitVec.extractLsb'_or]

/-- Settles O12: each field alone reaches its bits, and ID_VALUE is off the low word. -/
theorem capFields : Obligations.CapFields := by
  intro p
  have hlow : (capWord p).extractLsb' 0 32 = if p.hasVec then 0x0000411F else 0x0000401F := by
    simp only [capWord, BitVec.extractLsb'_or, extractLsb'_fieldAt_off p.idValue 32 0 32 (by decide)]
    cases p.hasVec <;> rfl
  refine ⟨?_, ?_, ?_, ?_, ?_, ?_, ?_, hlow, ?_⟩
  case refine_8 =>
    rintro s v rfl
    exact ⟨rfl, by unfold State.writeReg; split <;> rfl⟩
  all_goals simp [capWord, BitVec.extractLsb'_or]

/-- Settles O17. -/
theorem resetRegisterValues : Obligations.ResetRegisterValues := by
  refine ⟨?_, ?_, ?_, ?_, ?_, ?_, ?_, ?_, ?_, ?_⟩ <;> decide

/-! ### Offsets -/

/-- Each register stands at its offset alone (R21). -/
theorem offset_eq_iff (off : BitVec 8) :
    (off = 0x00 ↔ regAt off = .cap) ∧ (off = 0x08 ↔ regAt off = .ctrl) ∧ (off = 0x10 ↔ regAt off = .status) ∧
    (off = 0x18 ↔ regAt off = .cmd) ∧ (off = 0x20 ↔ regAt off = .arg0) ∧ (off = 0x28 ↔ regAt off = .arg1) ∧
    (off = 0x30 ↔ regAt off = .arg2) ∧ (off = 0x38 ↔ regAt off = .data) ∧ (off = 0x40 ↔ regAt off = .errAddr) := by
  simp only [← BitVec.toNat_inj]
  unfold regAt
  split <;> simp_all

theorem regAt_of_gt {off : BitVec 8} (h : off.toNat > 0x40) : regAt off = .reserved := by
  unfold regAt
  split <;> first | rfl | omega

/-! ### Steps of the unit and of the host's register accesses -/

/-- Settles O5. -/
theorem stepRunsTheLatchedCommand : Obligations.StepRunsTheLatchedCommand := by
  intro s u l i hl hd hn
  obtain ⟨ts, f, rfl⟩ := unitNext_eq hn
  exact (step_unitNext hn).trans (unitMove_ok hl hd)

theorem wholeRegister_iff {off : BitVec 8} {width : Nat} :
    wholeRegister off width = true ↔ width = 8 ∧ off.toNat % 8 = 0 := by
  simp [wholeRegister]

/-- Settles O14. -/
theorem subwordRegisterAccessIsRefused : Obligations.SubwordRegisterAccessIsRefused := by
  intro s off width v ops u hsub hn
  have hpart : ¬wholeRegister off width = true := wholeRegister_iff.not.mpr hsub
  constructor <;> intro hi <;> rw [step_hostOp hn hi (by simp)]
  · exact if_neg hpart
  · exact if_neg hpart

section WholeRegister

variable {s u : State} {off : BitVec 8} {ops : List HostOp} (hn : s.hostNext u) (hoff : off.toNat % 8 = 0)

include hn hoff

theorem step_rd (hi : s.inputs = .rd off 8 :: ops) : step s = .next (State.readBy { u with inputs := ops } off) :=
  (step_hostOp hn hi (by simp)).trans (if_pos (wholeRegister_iff.mpr ⟨rfl, hoff⟩))

theorem step_wr {v : Word} (hi : s.inputs = .wr off 8 v :: ops) :
    step s = .next (State.writeReg { u with inputs := ops } (regAt off) v) :=
  (step_hostOp hn hi (by simp)).trans (if_pos (wholeRegister_iff.mpr ⟨rfl, hoff⟩))

theorem step_wr_of_busy {v : Word} (hi : s.inputs = .wr off 8 v :: ops) (hb : s.busy = true) :
    step s = .next (State.writeRegBusy { u with inputs := ops } v (regAt off)) := by
  obtain ⟨ts, f, rfl⟩ := hostNext_eq hn
  exact (step_wr hn hoff hi).trans (congrArg _ (if_pos hb))

theorem step_wr_of_idle {v : Word} (hi : s.inputs = .wr off 8 v :: ops) (hb : s.busy = false) :
    step s = .next (State.writeRegIdle { u with inputs := ops } v (regAt off)) := by
  obtain ⟨ts, f, rfl⟩ := hostNext_eq hn
  exact (step_wr hn hoff hi).trans (congrArg _ (if_neg (ne_true_of_eq_false hb)))

end WholeRegister

/-- The host moves from an IDLE unit by its given turn or with none given, so no free value is drawn. -/
theorem hostNext_of_idle {s u : State} (hb : s.busy = false) (h : s.hostNext u) : ∃ ts, u = { s with turns := ts } := by
  obtain ⟨ts, -, rfl⟩ | ⟨-, -, rfl⟩ | ⟨⟨-, hbusy, -⟩, -⟩ := h
  · exact ⟨ts, rfl⟩
  · exact ⟨_, rfl⟩
  · exact absurd hbusy (ne_true_of_eq_false hb)

/-- Settles O8: by the register at the offset. -/
theorem busyWritesAreDropped : Obligations.BusyWritesAreDropped := by
  intro s l off v ops u hl hoff hn hi
  rw [step_wr_of_busy hn hoff hi (busy_eq_true hl)]
  obtain ⟨ts, f, rfl⟩ := hostNext_eq hn
  simp only [List.mem_cons, List.not_mem_nil, offset_eq_iff off]
  cases regAt off <;> rfl

/-- Settles O9: by the register at the offset. -/
theorem idleWritesTakeEffect : Obligations.IdleWritesTakeEffect := by
  intro s off v ops u hl hoff hn hi
  rw [step_wr_of_idle hn hoff hi (busy_eq_false hl)]
  obtain ⟨ts, rfl⟩ := hostNext_of_idle (busy_eq_false hl) hn
  simp only [offset_eq_iff off]
  cases regAt off <;> rfl

/-- Settles O7: the write to CMD's offset, and R68's sets for the operands that it latches. -/
theorem cmdWriteIsAccepted : Obligations.CmdWriteIsAccepted := by
  intro s v ops u hl hn hi
  refine ⟨idleWritesTakeEffect s 0x18 v ops u hl rfl hn hi, fun r => ?_⟩
  rw [issue_unobserved, List.mem_append, mem_runningSet]
  simp

theorem completionVisible_iff {s : State} :
    s.completionVisible = true ↔ s.latch = none ∧ (s.status.done || s.status.err) = true := by
  simp [State.completionVisible, State.busy]

/-- Settles O10: the value is that of the register at the offset. -/
theorem readsHaveNoSideEffect : Obligations.ReadsHaveNoSideEffect := by
  intro s off ops u hoff hn hi
  have hstep := step_rd hn hoff hi
  obtain ⟨ts, f, rfl⟩ := hostNext_eq hn
  rw [readBy_eq] at hstep
  simp only [completionVisible_iff] at hstep
  simp only [offset_eq_iff off]
  have hgt := fun h => congrArg s.readReg (regAt_of_gt (off := off) h)
  refine ⟨s.readReg (regAt off), hstep, ?_, hgt, ?_, ?_, ?_, ?_, ?_, ?_, ?_, ?_⟩ <;>
    exact fun h => congrArg s.readReg h

/-! ### The reset input -/

/-- The bytes of an abandoned write set, as R68 gives it, inside the address space. -/
theorem exists_inSpace_runningWriteSet {s : State} {x : Nat} :
    (∃ w ∈ s.runningWriteSet.map inSpace, inRange w x = true) ↔ x < 2 ^ 64 ∧
      ∃ l i r, s.latch = some l ∧ decode l.cmd = .ok i ∧ inWriteSet s.mem l.ops i.command r ∧ inRange r x = true := by
  constructor
  · rintro ⟨w, hw, hx⟩
    obtain ⟨r, hr, rfl⟩ := List.mem_map.mp hw
    obtain ⟨hrx, hlt⟩ := inRange_inSpace.mp hx
    obtain ⟨l, i, hl, hd, hset⟩ := mem_runningWriteSet.mp hr
    exact ⟨hlt, l, i, r, hl, hd, hset, hrx⟩
  · rintro ⟨hlt, l, i, r, hl, hd, hset, hrx⟩
    exact ⟨inSpace r, List.mem_map_of_mem (mem_runningWriteSet.mpr ⟨l, i, hl, hd, hset⟩),
      inRange_inSpace.mpr ⟨hrx, hlt⟩⟩

/-- Settles O19: of an IDLE unit the reset changes registers alone; of a BUSY one it writes the abandoned write set,
and marks it stale. -/
theorem resetInput : Obligations.ResetInput := by
  intro s t ts ht h
  rw [step_turn ht] at h
  obtain ⟨hb, rfl⟩ | ⟨hb, rfl⟩ := resetMove_next h
  · have hl : s.latch = none := by simpa [State.busy] using hb
    exact ⟨rfl, rfl, rfl, rfl, rfl, rfl, rfl, rfl, rfl, rfl, fun _ _ => rfl, fun _ => rfl, rfl, fun x => by simp [hl]⟩
  · refine ⟨rfl, rfl, rfl, rfl, rfl, rfl, rfl, rfl, rfl, rfl, fun x hx => ?_, fun hl => ?_, rfl, fun x => ?_⟩
    · refine byte_writeAll_outside s.mem _ x fun st hst => Bool.eq_false_of_not_eq_true fun hin => ?_
      have hw := mem_of_map_storeRange (abandonedStores_range _ _) hst
      obtain ⟨-, l, i, r, hl, hd, hset, hrx⟩ := exists_inSpace_runningWriteSet.mp ⟨_, hw, hin⟩
      exact ne_true_of_eq_false (hx l i r hl hd hset) hrx
    · simp [State.busy, hl] at hb
    · exact mem_markStale.trans (or_congr_right (and_congr_right fun _ => exists_inSpace_runningWriteSet))

end Sys2Proof.Proofs
end

section
/-! PROOF. The errors of the square and packed commands (R66, R72), the race of a host access with a command's sets
(R74), and what a command leaves alone outside its write set (R68). -/

namespace Sys2Proof.Proofs

open Sys2Proof Sys2Proof.Machine Sys2Proof.Laws

/-! ### The plan of a square or packed command -/

section BufferPlan

variable {s : State} {len : Nat}

/-- Of a buffer at a multiple of 32, the `_aligned` bit asks nothing more (R66). -/
theorem bufferPlan_aligned (h : s.operands.arg0.toNat % 32 = 0) (al : Bool) :
    s.bufferPlan len al = s.bufferPlan len false := by
  simp [State.bufferPlan, bufferRange, alignedBoundary, h]

theorem bufferPlan_misaligned (h : s.operands.arg0.toNat % 32 ≠ 0) :
    s.bufferPlan len true = .error .misaligned s.operands.arg0 [] := by
  simp [State.bufferPlan, bufferRange, alignedBoundary, h]

theorem bufferPlan_wrapping {al : Bool} (ha : al = true → s.operands.arg0.toNat % 32 = 0)
    (h : s.operands.arg0.toNat + len > 2 ^ 64) : s.bufferPlan len al = .error .addrRange s.operands.arg0 [] := by
  have hplain : s.bufferPlan len al = s.bufferPlan len false := by
    cases al with
    | false => rfl
    | true => exact bufferPlan_aligned (ha rfl) true
  have hrange : rangeOk (bufferRange s.operands len) = false := decide_eq_false (Nat.not_le.mpr h)
  rw [hplain]
  simp [State.bufferPlan, hrange]

end BufferPlan

/-- The bytes of the buffer of a square or packed command, and its `_aligned` bit; the other commands have none. -/
def bufferForm : Command → Option (Nat × Bool)
  | .sq z al => some (blockBytes z, al)
  | .p8x4 al => some (packedBytes, al)
  | .d8      => none
  | .kxn _   => none
  | .nxk _   => none

theorem plan_of_bufferForm {c : Command} {len : Nat} {al : Bool} (h : bufferForm c = some (len, al)) (s : State) :
    s.plan c = s.bufferPlan len al := by
  cases c with
  | sq z b => cases h; rfl
  | p8x4 b => cases h; rfl
  | d8 => cases h
  | kxn z => cases h
  | nxk z => cases h

theorem exec_of_bufferForm {i : Instr} {s : State} {len : Nat} {al : Bool}
    (h : bufferForm i.command = some (len, al)) : exec i s = s.perform (s.bufferPlan len al) (storesOf i) := by
  have hi : i ≠ .transpose8x8Direct := by rintro rfl; cases h
  rw [exec_eq_perform i s hi, plan_of_bufferForm h s]

/-- A command whose checks fail completes with the error, having touched what it read to find it (R219). -/
theorem exec_of_plan_error {i : Instr} {s : State} {c : ErrCode} {a : Word} {rs : List Range}
    (h : s.plan i.command = .error c a rs) : exec i s = .next (s.failed c a) ∧ (s.plan i.command).touched = rs := by
  have hi : i ≠ .transpose8x8Direct := by rintro rfl; cases h
  rw [exec_eq_perform i s hi, h]
  exact ⟨rfl, rfl⟩

/-- Settles O37: MISALIGNED is the first check of an `_aligned` command. -/
theorem misalignedBufferIsAnError : Obligations.MisalignedBufferIsAnError := by
  intro s i hi hmis
  have hform : ∃ len, bufferForm i.command = some (len, true) := by fin_cases hi <;> exact ⟨_, rfl⟩
  obtain ⟨len, hlen⟩ := hform
  exact exec_of_plan_error ((plan_of_bufferForm hlen s).trans (bufferPlan_misaligned hmis))

/-- Settles O38: the two forms have one buffer and one data phase, and differ in the alignment check alone. -/
theorem alignedAndPlainAgree : Obligations.AlignedAndPlainAgree := by
  intro s p hp hal
  have hforms : ∃ len, bufferForm p.1.command = some (len, true) ∧ bufferForm p.2.command = some (len, false) ∧
      storesOf p.1 = storesOf p.2 := by
    fin_cases hp <;> exact ⟨_, rfl, rfl, rfl⟩
  obtain ⟨len, haligned, hplain, hstores⟩ := hforms
  rw [exec_of_bufferForm haligned, exec_of_bufferForm hplain, hstores, bufferPlan_aligned hal]

/-- Settles O39: ADDR_RANGE is the check after the alignment. -/
theorem wrappingBufferIsAnError : Obligations.WrappingBufferIsAnError := by
  intro s p hp hal hwrap
  have hform : bufferForm p.1.command = some p.2 := by fin_cases hp <;> rfl
  exact exec_of_plan_error ((plan_of_bufferForm hform s).trans (bufferPlan_wrapping hal hwrap))

/-! ### A host access that `hostStop` stops -/

/-- The range of system memory that a host operation accesses; cache maintenance counts as access (log entry 13). -/
def hostRange : HostOp → Option Range
  | .load a n       => some { base := a.toNat, len := n }
  | .store a bs     => some { base := a.toNat, len := bs.length }
  | .clean a n      => some { base := a.toNat, len := n }
  | .invalidate a n => some { base := a.toNat, len := n }
  | .rd _ _         => none
  | .wr _ _ _       => none
  | .wait           => none

theorem hostOp_of_hostStop {s : State} {op : HostOp} {q : Range} {w : Stop} (hq : hostRange op = some q)
    (h : s.hostStop q = some w) : s.hostOp op = w.outcome := by
  cases op with
  | load a n => cases hq; simp only [State.hostOp, State.hostLoad, h]
  | store a bs => cases hq; simp only [State.hostOp, State.hostStore, h]
  | clean a n => cases hq; simp only [State.hostOp, State.hostClean, h]
  | invalidate a n => cases hq; simp only [State.hostOp, State.hostInvalidate, h]
  | rd off width => cases hq
  | wr off width v => cases hq
  | wait => cases hq

/-- In each schedule in which the host moves, its access to memory that `hostStop` stops is the step's outcome. -/
theorem step_of_hostStop {s u : State} {op : HostOp} {ops : List HostOp} {q : Range} {w : Stop} (hn : s.hostNext u)
    (hi : s.inputs = op :: ops) (hq : hostRange op = some q) (h : s.hostStop q = some w) : step s = w.outcome := by
  have hw : op ≠ .wait := by rintro rfl; cases hq
  rw [step_hostOp hn hi hw]
  obtain ⟨ts, f, rfl⟩ := hostNext_eq hn
  exact hostOp_of_hostStop hq h

/-- Settles O48: the four accesses meet one test of the race, and the invariant guards the running command's sets. -/
theorem hostAccessToRunningSetsIsARace : Obligations.HostAccessToRunningSetsIsARace := by
  constructor
  · intro s u a bs ops r q hn hr hlen hshare hwin hdev
    have hrace : s.hostStop q = some (.fault .hostRace) := hostStop_race hr hshare hlen hwin hdev
    refine ⟨?_, ?_, ?_, ?_⟩ <;> exact fun hi => step_of_hostStop hn hi rfl hrace
  · intro s l i r hs hl hd hset
    exact hs.runningGuarded r (mem_runningSet.mpr ⟨l, i, hl, hd, hset⟩)

/-! ### The write set of a command -/

/-- A plan that accesses memory writes the whole write set of R68. -/
theorem plan_access_writes {s : State} {c : Command} {rs ws : List Range} (h : s.plan c = .access rs ws) :
    ws = s.writeSet c := by
  cases c with
  | sq z al => exact (bufferPlan_access h).2.1
  | d8 => cases h
  | p8x4 al => exact (bufferPlan_access h).2.1
  | kxn z => exact (kxnPlan_access h).2.1
  | nxk z => exact (nxkPlan_access h).2.1

theorem inWriteSet_of_mem_plan_writes {s : State} {c : Command} {w : Range} (h : w ∈ (s.plan c).writes) :
    inWriteSet s.mem s.operands c w := by
  cases hp : s.plan c with
  | access rs ws =>
    rw [hp] at h
    exact mem_writeSet.mp (plan_access_writes hp ▸ h)
  | error _ _ _ => rw [hp] at h; cases h
  | nothing => rw [hp] at h; cases h
  | hang _ => rw [hp] at h; cases h
  | stop _ _ => rw [hp] at h; cases h

/-- What a command that goes on does to memory: it completes with nothing written and no write set, it is stuck, or it
commits its stores. -/
theorem exec_next_writes {i : Instr} {s t : State} (h : exec i s = .next t) :
    ((s.plan i.command).writes = [] ∧ t.mem = s.mem ∧ t.stale = s.stale) ∨ t = s ∨
    (∃ rs ws, s.plan i.command = .access rs ws ∧ t = s.commit ws (storesOf i s)) := by
  obtain ⟨rfl, rfl⟩ | ⟨-, ⟨c, a, rs, hp, rfl⟩ | ⟨hp, rfl⟩ | ⟨rfl, -⟩ | ⟨rs, ws, hp, -, -, rfl⟩⟩ := exec_next h
  · exact .inl ⟨rfl, rfl, rfl⟩
  · exact .inl ⟨by rw [hp]; rfl, rfl, rfl⟩
  · exact .inl ⟨by rw [hp]; rfl, rfl, rfl⟩
  · exact .inr (.inl rfl)
  · exact .inr (.inr ⟨rs, ws, hp, rfl⟩)

/-- Settles O53: only a commit writes, and it writes the write set and marks it stale. -/
theorem commandsWriteOnlyTheirWriteSet : Obligations.CommandsWriteOnlyTheirWriteSet := by
  intro i s t h
  suffices hframe : unchangedOutside s.mem t.mem (s.plan i.command).writes ∧ (t ≠ s → ∀ x, x ∈ t.stale ↔
      x ∈ s.stale ∨ (s.platform.coherent = false ∧ ∃ w ∈ (s.plan i.command).writes, inRange w x = true)) by
    refine ⟨hframe.1, fun w hw => inWriteSet_of_mem_plan_writes hw, fun x => ?_⟩
    by_cases hts : t = s
    · simp [hts]
    · simp [hts, hframe.2 hts x]
  obtain ⟨hws, hm, hst⟩ | rfl | ⟨rs, ws, hp, rfl⟩ := exec_next_writes h
  · exact ⟨fun x _ => by rw [hm], fun _ x => by simp [hws, hst]⟩
  · exact ⟨fun _ _ => rfl, fun hne => absurd rfl hne⟩
  · rw [hp]
    exact ⟨commit_outside hp, fun _ _ => mem_markStale⟩

end Sys2Proof.Proofs
end

section
/-! PROOF. The decoder and the encoder (R90 to R95, R99), the register writes of a mnemonic (R96, R97), and the poll of
a wait (R96). -/

namespace Sys2Proof.Proofs

open Sys2Proof Sys2Proof.Machine Sys2Proof.Laws

/-! ### The fields of a command word -/

theorem wordOf_eq_fieldAt (f : CmdFields) :
    wordOf f = fieldAt f.opc 0 ||| fieldAt f.sz 4 ||| fieldAt f.al 7 ||| fieldAt f.rsv 8 := by
  simp [wordOf, fieldAt]

/-- A field cut out of a word and placed back holds the word's bits there, and 0 elsewhere. -/
theorem getLsbD_fieldAt_extractLsb' (v : Word) (lo w i : Nat) :
    (fieldAt (v.extractLsb' lo w) lo).getLsbD i = (decide (lo ≤ i ∧ i < lo + w) && v.getLsbD i) := by
  rw [getLsbD_fieldAt, BitVec.getLsbD_extractLsb']
  by_cases hlo : lo ≤ i
  · by_cases hi : i < 64
    · simp [hi, hlo, Nat.sub_lt_iff_lt_add' hlo]
    · simp [hi, BitVec.getLsbD_of_ge v i (by omega)]
  · simp [hlo]

/-- The four fields hold all the bits of the word (R90). -/
@[simp] theorem wordOf_fieldsOf (v : Word) : wordOf (fieldsOf v) = v := by
  apply BitVec.eq_of_getLsbD_eq
  intro i hi
  have hfield : ((i < 4 ∨ 4 ≤ i ∧ i < 7) ∨ 7 ≤ i ∧ i < 8) ∨ 8 ≤ i ∧ i < 64 := by omega
  simp only [wordOf_eq_fieldAt, fieldsOf, BitVec.getLsbD_or, getLsbD_fieldAt_extractLsb', ← Bool.and_or_distrib_right,
    ← Bool.decide_or]
  simp [hfield]

/-- Each field reads back as it was placed (R90, R95). -/
@[simp] theorem fieldsOf_wordOf (f : CmdFields) : fieldsOf (wordOf f) = f := by
  simp [fieldsOf, wordOf_eq_fieldAt, BitVec.extractLsb'_or]

theorem fieldsOf_eq_iff {v : Word} {f : CmdFields} : fieldsOf v = f ↔ v = wordOf f :=
  ⟨fun h => h ▸ (wordOf_fieldsOf v).symm, fun h => h ▸ fieldsOf_wordOf f⟩

theorem sizeOfCode_eq_some_iff {sz : BitVec 3} {z : Size} : sizeOfCode sz.toNat = some z ↔ sz = z.code := by
  revert sz
  cases z <;> decide

/-- The SZ codes that are not reserved are those of the sizes (R90). -/
theorem exists_code_of_le {sz : BitVec 3} (h : sz.toNat ≤ 4) : ∃ z : Size, sz = z.code := by
  have hsome : ∀ sz : BitVec 3, sz.toNat ≤ 4 → (sizeOfCode sz.toNat).isSome = true := by decide
  obtain ⟨z, hz⟩ := Option.isSome_iff_exists.mp (hsome sz h)
  exact ⟨z, sizeOfCode_eq_some_iff.mp hz⟩

/-- The AL bit of an `_aligned` command or of a plain one. -/
theorem alignedBit_eq (al : BitVec 1) : al = if (al == 1) = true then 1 else 0 := by
  revert al
  decide

theorem alignedBit_eq_zero {al : BitVec 1} (h : (al == 1) = false) : al = 0 :=
  (alignedBit_eq al).trans (if_neg (ne_true_of_eq_false h))

/-! ### The commands and the rows of R99 -/

@[simp] theorem instr_command (i : Instr) : i.command.instr = i := by cases i <;> rfl

@[simp] theorem command_instr (c : Command) : c.instr.command = c := by
  cases c with
  | sq z al => cases z <;> cases al <;> rfl
  | d8 => rfl
  | p8x4 al => cases al <;> rfl
  | kxn z => cases z <;> rfl
  | nxk z => cases z <;> rfl

theorem mem_allInstrs (i : Instr) : i ∈ allInstrs := by cases i <;> decide

/-! ### Which fields decode (R93) -/

theorem decodeFields_fields (i : Instr) : decodeFields i.fields = .ok i.command := by cases i <;> rfl

theorem fields_legal (i : Instr) : i.fields.legal = true := by cases i <;> rfl

/-- The fields that decode are the command's own: by the class of OPC, the forms that a class does not have being
errors. -/
theorem fields_of_decodeFields {f : CmdFields} {c : Command} (h : decodeFields f = .ok c) : f = c.fields := by
  obtain ⟨opc, sz, al, rsv⟩ := f
  simp only [decodeFields] at h
  split at h
  · cases h
  next hrsv =>
  obtain rfl : rsv = 0 := by simpa using hrsv
  split at h
  · cases h
  next z hz =>
  obtain rfl : sz = z.code := sizeOfCode_eq_some_iff.mp hz
  split at h
  case h_1 hopc =>
    obtain rfl : opc = 1 := BitVec.eq_of_toNat_eq hopc
    cases h
    exact congrArg (CmdFields.mk _ _ · _) (alignedBit_eq al)
  case h_2 hopc =>
    obtain rfl : opc = 2 := BitVec.eq_of_toNat_eq hopc
    split at h <;> cases h
    next hform =>
    obtain ⟨rfl, hal⟩ := hform
    obtain rfl := alignedBit_eq_zero hal
    rfl
  case h_3 hopc =>
    obtain rfl : opc = 3 := BitVec.eq_of_toNat_eq hopc
    split at h <;> cases h
    next hz8 =>
    subst hz8
    exact congrArg (CmdFields.mk _ _ · _) (alignedBit_eq al)
  case h_4 hopc =>
    obtain rfl : opc = 4 := BitVec.eq_of_toNat_eq hopc
    split at h <;> cases h
    next hal =>
    obtain rfl := alignedBit_eq_zero hal
    rfl
  case h_5 hopc =>
    obtain rfl : opc = 5 := BitVec.eq_of_toNat_eq hopc
    split at h <;> cases h
    next hal =>
    obtain rfl := alignedBit_eq_zero hal
    rfl
  case h_6 => cases h

/-- A legal combination is that of a command: by the class of OPC. -/
theorem exists_fields_of_legal {f : CmdFields} (h : f.legal = true) : ∃ c : Command, f = c.fields := by
  obtain ⟨opc, sz, al, rsv⟩ := f
  simp only [CmdFields.legal, Bool.and_eq_true, Bool.or_eq_true, beq_iff_eq, decide_eq_true_eq] at h
  obtain ⟨rfl, (((⟨rfl, hsz⟩ | ⟨⟨rfl, rfl⟩, rfl⟩) | ⟨rfl, rfl⟩) | ⟨⟨rfl, hsz⟩, rfl⟩) | ⟨⟨rfl, hsz⟩, rfl⟩⟩ := h
  · obtain ⟨z, rfl⟩ := exists_code_of_le hsz
    exact ⟨.sq z (al == 1), congrArg (CmdFields.mk _ _ · _) (alignedBit_eq al)⟩
  · exact ⟨.d8, rfl⟩
  · exact ⟨.p8x4 (al == 1), congrArg (CmdFields.mk _ _ · _) (alignedBit_eq al)⟩
  · obtain ⟨z, rfl⟩ := exists_code_of_le hsz
    exact ⟨.kxn z, rfl⟩
  · obtain ⟨z, rfl⟩ := exists_code_of_le hsz
    exact ⟨.nxk z, rfl⟩

/-! ### Decode and encode -/

/-- Exactly the words of the 23 instructions decode, each to its instruction. -/
theorem decode_eq_ok_iff {v : Word} {i : Instr} : decode v = .ok i ↔ v = encode i := by
  constructor
  · intro h
    unfold decode at h
    split at h
    · next c hc =>
      obtain rfl : c.instr = i := Except.ok.inj h
      exact fieldsOf_eq_iff.mp ((fields_of_decodeFields hc).trans (congrArg Command.fields (command_instr c).symm))
    · cases h
  · rintro rfl
    simp [decode, encode, decodeFields_fields]

/-- A word with RSV = 0 is its other three fields in place (R95). -/
theorem eq_of_fields_rsv {v : Word} (h : (fieldsOf v).rsv = 0) :
    v = (v.extractLsb' 0 4).setWidth 64 ||| ((v.extractLsb' 4 3).setWidth 64 <<< 4) |||
      ((v.extractLsb' 7 1).setWidth 64 <<< 7) := by
  have hword := wordOf_fieldsOf v
  rw [wordOf, h] at hword
  simpa [fieldsOf] using hword.symm

theorem rsv_of_legal {f : CmdFields} (h : f.legal = true) : f.rsv = 0 := by
  simp only [CmdFields.legal, Bool.and_eq_true, beq_iff_eq] at h
  exact h.1

/-- Settles O2. -/
theorem decodeInvertsEncode : Obligations.DecodeInvertsEncode := by
  intro v i
  refine ⟨decode_eq_ok_iff, fun h => ?_, fun h => ?_⟩
  · have hf : fieldsOf v = i.fields := fieldsOf_eq_iff.mpr (decode_eq_ok_iff.mp h)
    have hlegal : (fieldsOf v).legal = true := hf ▸ fields_legal i
    exact ⟨hlegal, eq_of_fields_rsv (rsv_of_legal hlegal)⟩
  · obtain ⟨c, hc⟩ := exists_fields_of_legal h
    refine ⟨c.instr, decode_eq_ok_iff.mpr (fieldsOf_eq_iff.mp ?_)⟩
    rw [hc, Instr.fields, command_instr]

theorem mem_map_encode_iff {v : Word} {i : Instr} : (v, i) ∈ allInstrs.map (fun j => (encode j, j)) ↔ v = encode i := by
  simp [mem_allInstrs, eq_comm]

/-- Settles O1: the table of R99 pairs each instruction with its word. -/
theorem legalWordsAreExactlyTheTable : Obligations.LegalWordsAreExactlyTheTable := by
  intro v i
  exact decode_eq_ok_iff.trans mem_map_encode_iff.symm

/-- Settles O3. -/
theorem sampleWordsDecode : Obligations.SampleWordsDecode := by
  refine ⟨?_, ?_, ?_, ?_, ?_⟩ <;> decide

/-! ### The host's primitives -/

/-- Settles O4. -/
theorem mnemonicsExpandToRegisterWrites : Obligations.MnemonicsExpandToRegisterWrites :=
  fun _ _ _ _ _ => ⟨rfl, rfl, rfl, rfl, rfl⟩

/-- A read of STATUS from an IDLE unit (R24, R76). -/
theorem readBy_status_of_idle {s : State} (hb : s.busy = false) :
    s.readBy 0x10 = { s with
      observed := s.observed ++ [.reg 0x10 (statusWord false s.status)]
      unobserved := if (s.status.done || s.status.err) = true then [] else s.unobserved } := by
  have hreg : s.readReg (regAt 0x10) = statusWord false s.status := congrArg (statusWord · s.status) hb
  have hseen : regAt 0x10 = .status ∧ s.completionVisible = true ↔ (s.status.done || s.status.err) = true := by
    rw [completionVisible_iff]
    exact ⟨fun h => h.2.2, fun h => ⟨rfl, by simpa [State.busy] using hb, h⟩⟩
  simp only [readBy_eq, hreg, hseen]

/-- Settles O11: the host's move is the poll, or the read of STATUS that ends the wait. -/
theorem waitPollsUntilIdle : Obligations.WaitPollsUntilIdle := by
  intro s ops u hn hi
  rw [step_hostNext hn]
  constructor
  · intro hb
    obtain ⟨ts, f, rfl⟩ := hostNext_eq hn
    exact hostMove_poll hi hb
  · intro hb
    obtain ⟨ts, rfl⟩ := hostNext_of_idle hb hn
    have hmove := hostMove_cons (s := { s with turns := ts }) hi fun _ => hb
    exact hmove.trans (congrArg Host.Outcome.next (readBy_status_of_idle hb))

end Sys2Proof.Proofs
end

section
/-! PROOF. The 8×8 butterfly network (R110 to R112), the packed network as lanes and as one full-width pass (R114), and
the quadrant recursion over the network (R141, R142). -/

namespace Sys2Proof.Proofs

open Sys2Proof Sys2Proof.Machine Sys2Proof.Laws

/-! ### One stage -/

/-- Settles O21: a mask bit takes the bit s below it, the bit s below a mask bit takes that mask bit's, and every
other bit is exclusive-or-ed with 0. -/
theorem stageExchangesBitPairs : Obligations.StageExchangesBitPairs := by
  intro w x m s _ hle hdisj p hp
  rw [bstage_bit x m s p hp]
  by_cases hm : m.getLsbD p = true
  · simp [hm, hdisj p hm, hle p hm]
  · by_cases hms : m.getLsbD (p + s) = true
    · simp [hm, hms, Bool.xor_comm (x.getLsbD (p + s))]
    · simp [hm, hms]

/-- Settles O22. -/
theorem stageMasksFollowTheRule : Obligations.StageMasksFollowTheRule := by
  unfold Obligations.StageMasksFollowTheRule
  decide

/-- What R110 asks of a stage's mask: its bits are at s or above, and no position is both p and p − s. -/
def StageMask {w : Nat} (s : Nat) (m : BitVec w) : Prop :=
  ∀ p < w, m.getLsbD p = true → s ≤ p ∧ m.getLsbD (p + s) = false

theorem stageMask_mask1 : StageMask 7 mask1 := by
  unfold StageMask
  decide

theorem stageMask_mask2 : StageMask 14 mask2 := by
  unfold StageMask
  decide

theorem stageMask_mask4 : StageMask 28 mask4 := by
  unfold StageMask
  decide

theorem StageMask.le {w s : Nat} {m : BitVec w} (hm : StageMask s m) {p : Nat} (hp : m.getLsbD p = true) : s ≤ p :=
  (hm p (BitVec.lt_of_getLsbD hp) hp).1

theorem StageMask.disjoint {w s : Nat} {m : BitVec w} (hm : StageMask s m) {p : Nat} (hp : m.getLsbD p = true) :
    m.getLsbD (p + s) = false :=
  (hm p (BitVec.lt_of_getLsbD hp) hp).2

/-! ### The network -/

/-- The position whose bit a stage puts at p (R110). -/
def stageSource {w : Nat} (s : Nat) (m : BitVec w) (p : Nat) : Nat :=
  if m.getLsbD p then p - s else if m.getLsbD (p + s) then p + s else p

theorem stageSource_lt {w : Nat} (s : Nat) (m : BitVec w) {p : Nat} (hp : p < w) : stageSource s m p < w := by
  unfold stageSource
  split
  · omega
  · split
    · next hms => exact BitVec.lt_of_getLsbD hms
    · exact hp

theorem getLsbD_bstage {w s : Nat} {m : BitVec w} (hs : 0 < s) (hm : StageMask s m) (x : BitVec w) {p : Nat}
    (hp : p < w) : (bstage x s m).getLsbD p = x.getLsbD (stageSource s m p) := by
  rw [stageExchangesBitPairs w x m s hs (fun _ => hm.le) (fun _ => hm.disjoint) p hp, stageSource, apply_ite x.getLsbD,
    apply_ite x.getLsbD]

/-- Traced back through the exchanges of the three stages, row r, column c comes from row c, column r. -/
theorem stageSource_network : ∀ r < 8, ∀ c < 8,
    stageSource 7 mask1 (stageSource 14 mask2 (stageSource 28 mask4 (8 * r + c))) = 8 * c + r := by
  decide

/-- Settles O23: by the position that each stage takes its bit from. -/
theorem butterflyIsTransposition : Obligations.ButterflyIsTransposition := by
  intro x r hr c hc
  have h4 : stageSource 28 mask4 (8 * r + c) < 64 := stageSource_lt 28 mask4 (by omega)
  rw [bfly8, getLsbD_bstage (by decide) stageMask_mask4 _ (by omega),
    getLsbD_bstage (by decide) stageMask_mask2 _ h4,
    getLsbD_bstage (by decide) stageMask_mask1 _ (stageSource_lt 14 mask2 h4), stageSource_network r hr c hc]

/-! ### The right-shift form -/

/-- The masked differences of the right-shift form are those of the left-shift form, s lower. -/
theorem bstageRight_eq_bstage {w s : Nat} {m : BitVec w} (hm : StageMask s m) (x : BitVec w) :
    bstageRight x s (m >>> s) = bstage x s m := by
  have hdown : (x ^^^ (x >>> s)) &&& (m >>> s) = ((x ^^^ (x <<< s)) &&& m) >>> s := by
    ext p hp
    by_cases hps : s + p < w
    · simp [hps, Bool.xor_comm x[p]]
    · simp [BitVec.getLsbD_of_ge m (s + p) (by omega)]
  have hup : (((x ^^^ (x <<< s)) &&& m) >>> s) <<< s = (x ^^^ (x <<< s)) &&& m := by
    ext p hp
    by_cases hps : s ≤ p
    · simp [hps, hp, Nat.not_lt.mpr hps]
    · have hmp : m[p] = false := by
        rw [← BitVec.getLsbD_eq_getElem]
        exact Bool.eq_false_of_not_eq_true fun h => hps (hm.le h)
      simp [hmp, Nat.lt_of_not_le hps]
  simp only [bstageRight, bstage, hdown, hup]
  ac_rfl

/-- Settles O24: stage by stage. -/
theorem rightShiftFormIsEquivalent : Obligations.RightShiftFormIsEquivalent := by
  intro x
  have h1 : (0x00AA00AA00AA00AA : Word) = mask1 >>> 7 := by decide
  have h2 : (0x0000CCCC0000CCCC : Word) = mask2 >>> 14 := by decide
  have h4 : (0x00000000F0F0F0F0 : Word) = mask4 >>> 28 := by decide
  rw [bfly8Right, h1, h2, h4, bstageRight_eq_bstage stageMask_mask1, bstageRight_eq_bstage stageMask_mask2,
    bstageRight_eq_bstage stageMask_mask4, bfly8]

/-! ### Lanes -/

theorem getLsbD_lane (v : BitVec 256) (l : Nat) {i : Nat} (hi : i < 64) :
    (lane v l).getLsbD i = v.getLsbD (64 * l + i) := by
  simp [lane, hi]

/-- A vector is its four lanes. -/
theorem eq_of_lane_eq {u v : BitVec 256} (h : ∀ l < 4, lane u l = lane v l) : u = v := by
  apply BitVec.eq_of_getLsbD_eq
  intro p hp
  have hbit := congrArg (BitVec.getLsbD · (p % 64)) (h (p / 64) (by omega))
  simp only [getLsbD_lane _ _ (Nat.mod_lt p (by decide))] at hbit
  rwa [Nat.div_add_mod] at hbit

theorem lane_replicated (a : Word) {l : Nat} (hl : l < 4) : lane (lanes4 a a a a) l = a := by
  rw [lane_lanes4 a a a a l hl]
  interval_cases l <;> rfl

/-- Bit i of a lane of the replicated mask, past the lane's end too: there the next lane's low bits are clear. -/
theorem getLsbD_replicated {s : Nat} {m : Word} (hm : StageMask s m) (hs : s ≤ 64) {l i : Nat} (hl : l < 4)
    (hi : i < 64 + s) : (lanes4 m m m m).getLsbD (64 * l + i) = m.getLsbD i := by
  by_cases hlane : i < 64
  · rw [← getLsbD_lane _ _ hlane, lane_replicated m hl]
  · rw [BitVec.getLsbD_of_ge m i (by omega)]
    by_cases hlast : l + 1 < 4
    · rw [show 64 * l + i = 64 * (l + 1) + (i - 64) by omega, ← getLsbD_lane _ _ (by omega), lane_replicated m hlast]
      exact Bool.eq_false_of_not_eq_true fun h => absurd (hm.le h) (by omega)
    · exact BitVec.getLsbD_of_ge _ _ (by omega)

/-- A full-width stage with the mask in every lane is the stage on each lane: no exchange crosses a lane. -/
theorem lane_bstage {s : Nat} {m : Word} (hm : StageMask s m) (hs : s ≤ 64) (v : BitVec 256) {l : Nat} (hl : l < 4) :
    lane (bstage v s (lanes4 m m m m)) l = bstage (lane v l) s m := by
  apply BitVec.eq_of_getLsbD_eq
  intro i hi
  rw [getLsbD_lane _ _ hi, bstage_bit _ _ _ _ (by omega), bstage_bit _ _ _ _ hi, Nat.add_assoc,
    getLsbD_replicated hm hs hl (by omega), getLsbD_replicated hm hs hl (by omega), getLsbD_lane _ _ hi]
  have hbelow : m.getLsbD i = true → 64 * l + i - s = 64 * l + (i - s) ∧ s ≤ i := fun h => by
    have := hm.le h
    omega
  have habove : m.getLsbD (i + s) = true → i + s < 64 := BitVec.lt_of_getLsbD
  congr 1
  · congr 1
    cases hmi : m.getLsbD i
    · simp
    · obtain ⟨hsub, hsi⟩ := hbelow hmi
      rw [hsub, getLsbD_lane _ _ (by omega)]
      simp [hsi, Nat.le_add_left_of_le hsi]
  · cases hms : m.getLsbD (i + s)
    · simp
    · rw [getLsbD_lane _ _ (habove hms)]

theorem lane_pbfly8x4 (v : BitVec 256) {l : Nat} (hl : l < 4) : lane (pbfly8x4 v) l = bfly8 (lane v l) := by
  rw [pbfly8x4, lane_lanes4 _ _ _ _ l hl]
  interval_cases l <;> rfl

/-- Settles O25: the lanes of the packed network by its definition, those of the full-width pass stage by stage. -/
theorem packedLanesAreIndependent : Obligations.PackedLanesAreIndependent := by
  intro v
  refine ⟨fun l hl => lane_pbfly8x4 v hl, eq_of_lane_eq fun l hl => ?_⟩
  rw [lane_pbfly8x4 v hl, pbfly8x4Full, lane_bstage stageMask_mask4 (by decide) _ hl,
    lane_bstage stageMask_mask2 (by decide) _ hl, lane_bstage stageMask_mask1 (by decide) _ hl, bfly8]

/-! ### The quadrant recursion -/

/-- The network on rows transposes them (R112). -/
theorem getLsbD_bfly8Rows (m : List (BitVec 8)) {i j : Nat} (hi : i < 8) (hj : j < 8) :
    ((bfly8Rows m).getD i 0).getLsbD j = (m.getD j 0).getLsbD i := by
  rw [bfly8Rows, rowsOfWord_bit _ _ _ hi hj, butterflyIsTransposition _ i hi j hj, wordOfRows_bit _ _ (by omega),
    show (8 * j + i) / 8 = j by omega, show (8 * j + i) % 8 = i by omega]

/-- T keeps the h rows of an h×h matrix and transposes it (R9). -/
def TransposesRows {h : Nat} (T : List (BitVec h) → List (BitVec h)) : Prop :=
  ∀ m, m.length = h →
    (T m).length = h ∧ ∀ i < h, ∀ j < h, ((T m).getD i 0).getLsbD j = (m.getD j 0).getLsbD i

/-- One level of R141: swap the antidiagonal quadrants, transpose each, and put them together. -/
theorem transposesRows_joinQuadrants {h : Nat} {T : List (BitVec h) → List (BitVec h)} (hT : TransposesRows T) :
    TransposesRows fun m => joinQuadrants ((quadrants m).swapMiddle.map T) := by
  intro m hm
  obtain ⟨h0, h1, h2, h3⟩ := quadrants_length m hm
  obtain ⟨hl0, hb0⟩ := hT _ h0
  obtain ⟨hl1, hb1⟩ := hT _ h2
  obtain ⟨hl2, hb2⟩ := hT _ h1
  obtain ⟨hl3, hb3⟩ := hT _ h3
  refine ⟨joinQuadrants_length _ hl0 hl1 hl2 hl3, fun i hi j hj => ?_⟩
  have hhigh : ∀ {p : Nat}, ¬p < h → p < h + h → p - h < h ∧ h + (p - h) = p := by omega
  rw [joinQuadrants_bit ((quadrants m).swapMiddle.map T) hl0 hl1 hl2 hl3 i j hi]
  split <;> split
  · next hil hjl => exact (hb0 i hil j hjl).trans (quadrants_bit m hm j i hjl hil).1
  · next hil hjl =>
    obtain ⟨hjh, ej⟩ := hhigh hjl hj
    exact (hb1 i hil _ hjh).trans ((quadrants_bit m hm (j - h) i hjh hil).2.2.1.trans (by rw [ej]))
  · next hil hjl =>
    obtain ⟨hih, ei⟩ := hhigh hil hi
    exact (hb2 _ hih j hjl).trans ((quadrants_bit m hm j (i - h) hjl hih).2.1.trans (by rw [ei]))
  · next hil hjl =>
    obtain ⟨hih, ei⟩ := hhigh hil hi
    obtain ⟨hjh, ej⟩ := hhigh hjl hj
    exact (hb3 _ hih _ hjh).trans ((quadrants_bit m hm (j - h) (i - h) hjh hih).2.2.2.trans (by rw [ei, ej]))

/-- SQT transposes at every level of the recursion (R141). -/
theorem transposesRows_sqt (n : Nat) : TransposesRows (sqt n) := by
  induction n with
  | zero => exact fun m _ => ⟨bfly8Rows_length m, fun _ hi _ hj => getLsbD_bfly8Rows m hi hj⟩
  | succ n ih => exact transposesRows_joinQuadrants ih

end Sys2Proof.Proofs
end

section
/-! PROOF. The commands of 40_butterfly8.md (R115 to R119), and the square and packed commands as involutions (R120,
R153). -/

namespace Sys2Proof.Proofs

open Sys2Proof Sys2Proof.Machine Sys2Proof.Laws

/-! ### Bits of memory -/

/-- The bit string k bytes further on begins 8·k bits further on (R62). -/
theorem bit_add (m : Memory) (a k t : Nat) : m.bit (a + k) t = m.bit a (8 * k + t) := by
  have hbyte : (8 * k + t) / 8 = k + t / 8 := by omega
  have hbit : (8 * k + t) % 8 = t % 8 := by omega
  simp only [Memory.bit, hbyte, hbit, Nat.add_assoc]

theorem inRange_iff {r : Range} {x : Nat} : inRange r x = true ↔ r.base ≤ x ∧ x < r.base + r.len := by
  simp [inRange]

/-- Memories with the same bits in a buffer have the same bytes there. -/
theorem byte_eq_of_bit_eq {m m' : Memory} {a len x : Nat} (h : ∀ t < 8 * len, m'.bit a t = m.bit a t) (hlo : a ≤ x)
    (hhi : x < a + len) : Memory.byte m' x = Memory.byte m x := by
  apply BitVec.eq_of_getLsbD_eq
  intro j hj
  have hbyte : a + (8 * (x - a) + j) / 8 = x := by omega
  have hbit : (8 * (x - a) + j) % 8 = j := by omega
  have := h (8 * (x - a) + j) (by omega)
  rwa [Memory.bit, Memory.bit, hbyte, hbit] at this

/-- A bit of memory after a command's one store of a number's bytes. -/
theorem bit_writeAll_bytesOfNat (m : Memory) (a n x t : Nat) (h : t < 8 * n) :
    (m.writeAll [(a, bytesOfNat n x)]).bit a t = x.testBit t := by
  have hbit := bit_write m a (bytesOfNat n x) t (by simpa using h)
  rwa [getLsbD_bytesOfNat n x t h] at hbit

/-- A bit of memory after a command's one store of rows of 8·bytes bits. -/
theorem bit_writeAll_bytesOfRows (m : Memory) (a bytes : Nat) {w : Nat} (rows : List (BitVec w)) (i j : Nat)
    (hw : w = 8 * bytes) (hi : i < rows.length) (hj : j < w) :
    (m.writeAll [(a, bytesOfRows bytes rows)]).bit a (i * w + j) = (rows.getD i 0).getLsbD j := by
  have hlen : i * w + j < 8 * (bytesOfRows bytes rows).length := by
    rw [bytesOfRows_length]
    subst hw
    nlinarith
  have hbit := bit_write m a (bytesOfRows bytes rows) (i * w + j) hlen
  rwa [getLsbD_bytesOfRows bytes rows i j hw hj hi] at hbit

/-! ### What the stores of a square or packed command hold -/

/-- Each of the n consecutive k×k matrices at a is in m' the transposition of what it is in m (R9, R61). -/
def BlocksTransposed (k n a : Nat) (m m' : Memory) : Prop :=
  ∀ q < n, ∀ i < k, ∀ j < k, m'.bit a (q * (k * k) + (i * k + j)) = m.bit a (q * (k * k) + (j * k + i))

/-- Every bit of n k×k matrices stands in a row and a column of one of them. -/
theorem exists_block_position {k n t : Nat} (h : t < n * (k * k)) :
    ∃ q < n, ∃ i < k, ∃ j < k, t = q * (k * k) + (i * k + j) := by
  have hkk : 0 < k * k := Nat.pos_of_ne_zero (by rintro e; simp [e] at h)
  refine ⟨t / (k * k), Nat.div_lt_of_lt_mul (by rwa [Nat.mul_comm]), t % (k * k) / k,
    Nat.div_lt_of_lt_mul (Nat.mod_lt t hkk), t % (k * k) % k, Nat.mod_lt _ (Nat.pos_of_mul_pos_right hkk), ?_⟩
  rw [Nat.div_add_mod', Nat.div_add_mod']

/-- Transposed twice, every bit is back. -/
theorem BlocksTransposed.bit_eq {k n a : Nat} {m m' m'' : Memory} (h : BlocksTransposed k n a m m')
    (h' : BlocksTransposed k n a m' m'') {t : Nat} (ht : t < n * (k * k)) : m''.bit a t = m.bit a t := by
  obtain ⟨q, hq, i, hi, j, hj, rfl⟩ := exists_block_position ht
  rw [h' q hq i hi j hj, h q hq j hj i hi]

/-- The word at a (R116). -/
theorem word8Stores_transpose (s : State) :
    BlocksTransposed 8 1 s.operands.arg0.toNat s.mem (s.mem.writeAll s.word8Stores) := by
  intro q hq i hi j hj
  obtain rfl : q = 0 := by omega
  simp only [Nat.zero_mul, Nat.zero_add, Nat.mul_comm _ 8]
  rw [State.word8Stores, bit_writeAll_bytesOfNat _ _ _ _ _ (by omega)]
  refine (butterflyIsTransposition _ i hi j hj).trans ?_
  rw [BitVec.getLsbD_ofNat, testBit_readNat _ _ _ _ (by omega)]
  simp [show 8 * j + i < 64 by omega]

/-- The four words at a, each on its own (R118). -/
theorem packedStores_transpose (s : State) :
    BlocksTransposed 8 4 s.operands.arg0.toNat s.mem (s.mem.writeAll s.packedStores) := by
  intro q hq i hi j hj
  simp only [Nat.mul_comm q, Nat.mul_comm _ 8]
  rw [State.packedStores, bit_writeAll_bytesOfNat _ _ _ _ _ (by simp only [packedBytes]; omega)]
  refine (getLsbD_lane _ q (by omega)).symm.trans ?_
  rw [lane_pbfly8x4 _ hq, butterflyIsTransposition _ i hi j hj, getLsbD_lane _ _ (by omega), BitVec.getLsbD_ofNat,
    testBit_readNat _ _ _ _ (by simp only [packedBytes]; omega)]
  simp [show 64 * q + (8 * j + i) < 256 by omega]

/-- The k×k matrix at a (R145 to R152). -/
theorem squareStores_transpose (z : Size) (s : State) :
    BlocksTransposed (sizeBits z) 1 s.operands.arg0.toNat s.mem (s.mem.writeAll (State.squareStores z s)) := by
  intro q hq i hi j hj
  obtain rfl : q = 0 := by omega
  simp only [Nat.zero_mul, Nat.zero_add]
  obtain ⟨hlen, hbits⟩ := transposesRows_sqt (level z)
    (Memory.rows s.mem s.operands.arg0.toNat (dim (level z)) (rowBytes z) (sizeBits z)) (rows_length _ _ _ _ _)
  refine (bit_writeAll_bytesOfRows (w := dim (level z)) _ _ _ _ i j (sizeBits_eq z)
    (Nat.lt_of_lt_of_eq hi hlen.symm) hj).trans ?_
  exact (hbits i hi j hj).trans (getLsbD_rows _ _ _ _ _ j i (sizeBits_eq z) hj hi)

/-- The buffer of a square or packed command is whole matrices, and its stores transpose each. -/
theorem exists_blocksTransposed {i : Instr} {len : Nat} {al : Bool} (h : bufferForm i.command = some (len, al)) :
    ∃ k n, 8 * len = n * (k * k) ∧
      ∀ s : State, BlocksTransposed k n s.operands.arg0.toNat s.mem (s.mem.writeAll (storesOf i s)) := by
  cases i <;> cases h
  case transpose8x8 | transpose8x8Aligned => exact ⟨8, 1, rfl, word8Stores_transpose⟩
  case transpose8x8PackedX4 | transpose8x8PackedX4Aligned => exact ⟨8, 4, rfl, packedStores_transpose⟩
  case transpose16x16 | transpose16x16Aligned => exact ⟨_, 1, rfl, squareStores_transpose .s16⟩
  case transpose32x32 | transpose32x32Aligned => exact ⟨_, 1, rfl, squareStores_transpose .s32⟩
  case transpose64x64 | transpose64x64Aligned => exact ⟨_, 1, rfl, squareStores_transpose .s64⟩
  case transpose128x128 | transpose128x128Aligned => exact ⟨_, 1, rfl, squareStores_transpose .s128⟩

/-! ### The commands -/

/-- Settles O30. -/
theorem directCommandTransposesData : Obligations.DirectCommandTransposesData :=
  fun s => ⟨bfly8 s.operands.data, exec_direct s, butterflyIsTransposition s.operands.data⟩

theorem bufferPlan_of_clear {s : State} {len : Nat} {al : Bool} (hlen : s.operands.arg0.toNat + len ≤ 2 ^ 64)
    (hal : al = true → s.operands.arg0.toNat % 32 = 0) (hc : s.clear [bufferRange s.operands len]) :
    s.bufferPlan len al = .access [bufferRange s.operands len] [bufferRange s.operands len] := by
  have haligned : (al && (bufferRange s.operands len).base % alignedBoundary != 0) = false := by
    cases al with
    | false => rfl
    | true => simpa [bufferRange, alignedBoundary] using hal rfl
  have hrange : rangeOk (bufferRange s.operands len) = true := decide_eq_true hlen
  simp [State.bufferPlan, haligned, hrange, hc.1]

/-- A square or packed command that accesses memory writes its buffer alone. -/
theorem unchangedOutside_buffer {i : Instr} {s : State} {len : Nat} {al : Bool} {rs ws : List Range}
    (h : bufferForm i.command = some (len, al)) (hp : s.plan i.command = .access rs ws) :
    unchangedOutside s.mem (s.mem.writeAll (storesOf i s)) [bufferRange s.operands len] := by
  obtain ⟨-, rfl, -⟩ := bufferPlan_access ((plan_of_bufferForm h s).symm.trans hp)
  exact commit_outside hp

/-- A square or packed command on a good buffer that the platform answers and allows completes with its stores. -/
theorem exec_of_clear_buffer {i : Instr} {s : State} {len : Nat} {al : Bool}
    (h : bufferForm i.command = some (len, al)) (hlen : s.operands.arg0.toNat + len ≤ 2 ^ 64)
    (hal : al = true → s.operands.arg0.toNat % 32 = 0) (hc : s.clear [bufferRange s.operands len]) :
    exec i s = .next (s.finished (s.mem.writeAll (storesOf i s)) [bufferRange s.operands len]) ∧
      unchangedOutside s.mem (s.mem.writeAll (storesOf i s)) [bufferRange s.operands len] := by
  have hp := bufferPlan_of_clear hlen hal hc
  have hbus : ∀ k, busHits s.platform k ([bufferRange s.operands len] ++ [bufferRange s.operands len]) =
      busHits s.platform k [bufferRange s.operands len] := fun k => busHits_congr (by simp)
  refine ⟨?_, unchangedOutside_buffer h ((plan_of_bufferForm h s).trans hp)⟩
  rw [exec_of_bufferForm h, hp]
  exact perform_access ((hbus _).trans hc.2.1) ((hbus _).trans hc.2.2)

/-- Settles O31. -/
theorem eightByEightCommandsTranspose : Obligations.EightByEightCommandsTranspose := by
  intro s p hp a buf hlen hal hc
  have hform : bufferForm p.1.command = some (8, p.2) ∧ storesOf p.1 = State.word8Stores := by
    fin_cases hp <;> exact ⟨rfl, rfl⟩
  obtain ⟨hexec, hframe⟩ := exec_of_clear_buffer hform.1 hlen hal hc
  rw [hform.2] at hexec hframe
  refine ⟨_, hexec, fun r hr c hc => ?_, hframe⟩
  simpa [Nat.mul_comm] using word8Stores_transpose s 0 (by decide) r hr c hc

/-- Settles O32: word l stands 8·l bytes on. -/
theorem packedCommandsTransposeEachWord : Obligations.PackedCommandsTransposeEachWord := by
  intro s p hp a buf hlen hal hc
  have hform : bufferForm p.1.command = some (packedBytes, p.2) ∧ storesOf p.1 = State.packedStores := by
    fin_cases hp <;> exact ⟨rfl, rfl⟩
  obtain ⟨hexec, hframe⟩ := exec_of_clear_buffer hform.1 hlen hal hc
  rw [hform.2] at hexec hframe
  refine ⟨_, hexec, fun l hl r hr c hc => ?_, hframe⟩
  have hword := packedStores_transpose s l hl r hr c hc
  rw [show l * (8 * 8) = 8 * (8 * l) by ring, Nat.mul_comm r, Nat.mul_comm c] at hword
  rwa [bit_add, bit_add]

/-! ### Applied twice -/

/-- The plan has a data phase that the bus answers. -/
def DataPhaseAnswered (f : Platform) (p : Plan) : Prop :=
  ∃ rs ws, p = .access rs ws ∧ busHits f .silent (rs ++ ws) = false

/-- A command that goes on leaves its stores in memory exactly where its data phase is answered. -/
theorem exec_next_mem {i : Instr} {s t : State} (h : exec i s = .next t) :
    (DataPhaseAnswered s.platform (s.plan i.command) ∧ t.mem = s.mem.writeAll (storesOf i s)) ∨
    (¬DataPhaseAnswered s.platform (s.plan i.command) ∧ t.mem = s.mem) := by
  unfold DataPhaseAnswered
  obtain ⟨rfl, rfl⟩ | ⟨-, ⟨c, a, rs, hp, rfl⟩ | ⟨hp, rfl⟩ | ⟨rfl, ⟨rs, hp⟩ | ⟨rs, ws, hp, hs⟩⟩ |
    ⟨rs, ws, hp, -, hs, rfl⟩⟩ := exec_next h
  case inr.inr.inr.inr => exact .inl ⟨⟨rs, ws, hp, hs⟩, rfl⟩
  case inr.inr.inr.inl.inr => exact .inr ⟨by simp [hp, hs], rfl⟩
  case inl => exact .inr ⟨by simp [Instr.command, State.plan], rfl⟩
  all_goals exact .inr ⟨by simp [hp], rfl⟩

/-- The plan of a square or packed command looks at ARG0, the platform's map and the uncleaned bytes alone. -/
theorem bufferPlan_eq_of_arg0 {s s' : State} (hp : s'.platform = s.platform) (hd : s'.dirty = s.dirty)
    (ha : s'.operands.arg0 = s.operands.arg0) (len : Nat) (al : Bool) :
    s'.bufferPlan len al = s.bufferPlan len al := by
  have hr : bufferRange s'.operands len = bufferRange s.operands len := by simp only [bufferRange, ha]
  simp only [State.bufferPlan, hr, stopOn_eq_of_platform_dirty hp hd, ha]

/-- Whole matrices transposed twice, with nothing else written, leave every byte as it was. -/
theorem byte_eq_of_transposed_twice {k n a len : Nat} {m m' m'' : Memory} (hlen : 8 * len = n * (k * k))
    (h : BlocksTransposed k n a m m') (h' : BlocksTransposed k n a m' m'')
    (hf : unchangedOutside m m' [{ base := a, len := len }])
    (hf' : unchangedOutside m' m'' [{ base := a, len := len }]) (x : Nat) : Memory.byte m'' x = Memory.byte m x := by
  by_cases hx : inRange { base := a, len := len } x = true
  · obtain ⟨hlo, hhi⟩ := inRange_iff.mp hx
    exact byte_eq_of_bit_eq (fun t ht => h.bit_eq h' (hlen ▸ ht)) hlo hhi
  · have hout : ∀ r ∈ [Range.mk a len], inRange r x = false := by simpa using hx
    exact (hf' x hout).trans (hf x hout)

/-- Settles O57: the second application has the plan of the first, so either both transpose the buffer's matrices or
neither writes. -/
theorem squareCommandsAreInvolutions : Obligations.SquareCommandsAreInvolutions := by
  intro s t s' u i hi h hmem hplat hdirty harg h' x
  have hform : ∃ b, bufferForm i.command = some b := by fin_cases hi <;> exact ⟨_, rfl⟩
  obtain ⟨⟨len, al⟩, hform⟩ := hform
  have hplan : s'.plan i.command = s.plan i.command := by
    rw [plan_of_bufferForm hform, plan_of_bufferForm hform, bufferPlan_eq_of_arg0 hplat hdirty harg]
  have hbuf : bufferRange s'.operands len = bufferRange s.operands len := by simp only [bufferRange, harg]
  have hsecond := exec_next_mem h'
  rw [hplan, hplat, hmem] at hsecond
  obtain ⟨hdata, ht⟩ | ⟨hnone, ht⟩ := exec_next_mem h <;> obtain ⟨hdata', hu⟩ | ⟨hnone', hu⟩ := hsecond
  · obtain ⟨rs, ws, hp, -⟩ := hdata
    obtain ⟨k, n, hlen, hblocks⟩ := exists_blocksTransposed hform
    have hfirst := hblocks s
    have hframe := unchangedOutside_buffer hform hp
    have hback := hblocks s'
    have hframe' := unchangedOutside_buffer hform (hplan.trans hp)
    rw [← ht] at hfirst hframe
    rw [hmem, ← hu] at hback hframe'
    rw [harg] at hback
    rw [hbuf] at hframe'
    exact byte_eq_of_transposed_twice hlen hfirst hback hframe hframe' x
  · exact absurd hdata hnone'
  · exact absurd hdata' hnone
  · rw [hu, ht]

end Sys2Proof.Proofs
end

section
/-! PROOF. The quadrant unit of 41_square_recursive.md: the recursion and its wide-vector mode (R140 to R143), and the
square commands of sizes 16 to 128 (R145 to R152). -/

namespace Sys2Proof.Proofs

open Sys2Proof Sys2Proof.Machine Sys2Proof.Laws

/-! ### The recursion and its wide-vector mode -/

/-- Settles O26. -/
theorem quadrantRecursionIsTransposition : Obligations.QuadrantRecursionIsTransposition :=
  fun n m hm => transposesRows_sqt n m hm

/-- A lane of the packed network over four 8×8 matrices is the network on the rows of that lane's matrix (R114). -/
theorem rowsOfWord_lane_pbfly8x4 (a b c d : Word) {l : Nat} (hl : l < 4) :
    rowsOfWord (lane (pbfly8x4 (lanes4 a b c d)) l) = rowsOfWord (bfly8 ([a, b, c, d].getD l 0)) := by
  rw [lane_pbfly8x4 _ hl, lane_lanes4 a b c d l hl]

/-- The packed batch is the 8×8 network on each of its lanes (R143, R175). -/
theorem packedLanes_eq_map (l : Lanes (List (BitVec 8))) : packedLanes l = l.map bfly8Rows := by
  simp [packedLanes, Lanes.map, bfly8Rows, rowsOfWord_lane_pbfly8x4]

/-- The two recursions take the same steps but at k = 16, where the packed batch stands for the four calls (R143). -/
theorem sqtWide_eq_sqt (n : Nat) : sqtWide n = sqt n := by
  induction n with
  | zero => rfl
  | succ n ih =>
    funext m
    cases n with
    | zero => exact congrArg joinQuadrants (packedLanes_eq_map _)
    | succ n => rw [sqtWide, ih, sqt_succ]

/-- Settles O27. -/
theorem squareEnginesAgree : Obligations.SquareEnginesAgree :=
  fun n m _ => congrFun (sqtWide_eq_sqt n) m

/-! ### The commands -/

/-- Settles O33: the data phase of size k is one k×k matrix. -/
theorem squareCommandsTranspose : Obligations.SquareCommandsTranspose := by
  intro s p hp k a buf hlen hal hc
  have hsquare : ∃ z, k = sizeBits z ∧ bufferForm p.1.command = some (blockBytes z, p.2.2) ∧
      storesOf p.1 = State.squareStores z := by
    fin_cases hp <;> exact ⟨_, rfl, rfl, rfl⟩
  obtain ⟨z, hk, hform, hstores⟩ := hsquare
  have hbuf : buf = bufferRange s.operands (blockBytes z) := by simp only [buf, hk, a, bufferRange, blockBytes_eq]
  rw [hk, ← blockBytes_eq] at hlen
  rw [hbuf] at hc
  obtain ⟨hexec, hframe⟩ := exec_of_clear_buffer hform hlen hal hc
  rw [hstores, ← hbuf] at hexec hframe
  refine ⟨_, hexec, fun i hi j hj => ?_, hframe⟩
  have hbits := squareStores_transpose z s 0 (by decide) i (hk ▸ hi) j (hk ▸ hj)
  simpa [hk] using hbits

end Sys2Proof.Proofs
end

section
/-! PROOF. The rectangular commands of 42_rectangular.md: both paths of the shuffle engine (R174 to R177), N = 0 (R178),
the commands themselves (R180 to R189), and the round trip (R190). -/

namespace Sys2Proof.Proofs

open Sys2Proof Sys2Proof.Machine Sys2Proof.Laws

/-! ### No blocks, and a block count out of range -/

/-- Whether a command takes a block count: the ten rectangular ones do (R92). -/
def takesBlockCount : Command → Bool
  | .kxn _ | .nxk _         => true
  | .sq _ _ | .d8 | .p8x4 _ => false

theorem takesBlockCount_iff {c : Command} : takesBlockCount c = true ↔ ∃ z, c = .kxn z ∨ c = .nxk z := by
  cases c <;> simp [takesBlockCount]

theorem plan_of_zero_blocks {c : Command} (hc : takesBlockCount c = true) {s : State} (h : s.operands.arg2 = 0) :
    s.plan c = .nothing := by
  obtain ⟨z, rfl | rfl⟩ := takesBlockCount_iff.mp hc
  · simp [State.plan, State.kxnPlan, countOutOfRange, blockCount, h]
  · simp [State.plan, State.nxkPlan, countOutOfRange, blockCount, h]

/-- ARG2[63:32] is the first thing a rectangular command looks at (R213). -/
theorem plan_of_count_out_of_range {c : Command} (hc : takesBlockCount c = true) {s : State}
    (h : s.operands.arg2.extractLsb' 32 32 ≠ 0) : s.plan c = .error .nRange 0 [] := by
  have hcount : countOutOfRange s.operands = true := bne_iff_ne.mpr h
  obtain ⟨z, rfl | rfl⟩ := takesBlockCount_iff.mp hc
  · exact if_pos hcount
  · exact if_pos hcount

/-- A rectangular command with nothing to do completes and touches nothing (R178). -/
theorem exec_of_plan_nothing {i : Instr} (hi : takesBlockCount i.command = true) {s : State}
    (h : s.plan i.command = .nothing) : exec i s = .next s.completeOk ∧ (s.plan i.command).touched = [] := by
  have hne : i ≠ .transpose8x8Direct := by rintro rfl; cases hi
  rw [exec_eq_perform i s hne, h]
  exact ⟨rfl, rfl⟩

/-- Settles O36: the block count is looked at before anything else. -/
theorem zeroBlocksIsANoOp : Obligations.ZeroBlocksIsANoOp := by
  intro s i hi
  have hcount : takesBlockCount i.command = true := by fin_cases hi <;> rfl
  exact ⟨fun h => exec_of_plan_nothing hcount (plan_of_zero_blocks hcount h),
    fun _ h => (exec_of_plan_error (plan_of_count_out_of_range hcount h)).1⟩

/-! ### The two paths of the shuffle engine -/

/-- Lane by lane, a super-block goes through SQT at every size (R175). -/
theorem laneKernel_eq_map (n : Nat) (l : Lanes (List (BitVec (dim n)))) : laneKernel n l = l.map (sqt n) := by
  cases n with
  | zero => exact packedLanes_eq_map l
  | succ n => rw [laneKernel, sqtWide_eq_sqt]

/-- The super-blocks and the remainder are the blocks in order, each transposed once (R174). -/
theorem batched_eq_oneByOne (n count : Nat) (block : Nat → List (BitVec (dim n))) :
    batched n count block = oneByOne n count block := by
  have hsuper : superBlock n block = fun b => [sqt n (block (4 * b)), sqt n (block (4 * b + 1)),
      sqt n (block (4 * b + 2)), sqt n (block (4 * b + 3))] := by
    funext b
    rw [superBlock, laneKernel_eq_map]
    rfl
  have hcount : count = 4 * superBlocks count + remainderBlocks count := (Nat.div_add_mod count 4).symm
  rw [batched, oneByOne, hsuper, flatMap_groups_of_four fun i => sqt n (block i)]
  conv_rhs => rw [hcount, List.range_add, List.map_append, List.map_map]
  rfl

theorem engineBlocks_eq_oneByOne (eng : Bool) (n count : Nat) (block : Nat → List (BitVec (dim n))) :
    engineBlocks eng n count block = oneByOne n count block := by
  cases eng with
  | false => rfl
  | true => exact batched_eq_oneByOne n count block

/-- Bit c of row r of block i that an engine produces is bit r of row c of the block it took. -/
theorem getLsbD_engineBlocks (eng : Bool) {n count : Nat} {block : Nat → List (BitVec (dim n))} {i r c : Nat}
    (hi : i < count) (hblock : (block i).length = dim n) (hr : r < dim n) (hc : c < dim n) :
    (((engineBlocks eng n count block).getD i []).getD r 0).getLsbD c = ((block i).getD c 0).getLsbD r := by
  have hget : (oneByOne n count block).getD i [] = sqt n (block i) := by simp [oneByOne, List.getD, hi]
  rw [engineBlocks_eq_oneByOne, hget]
  exact (transposesRows_sqt n _ hblock).2 r hr c hc

theorem engineBlocks_length (eng : Bool) (n count : Nat) (block : Nat → List (BitVec (dim n))) :
    (engineBlocks eng n count block).length = count := by
  rw [engineBlocks_eq_oneByOne]
  simp [oneByOne]

/-- A position among `count` blocks of k is a block and a place in it. -/
theorem exists_block_place {count k t : Nat} (h : t < count * k) : ∃ i < count, ∃ r < k, t = i * k + r := by
  have hk : 0 < k := Nat.pos_of_mul_pos_left (Nat.zero_lt_of_lt h)
  exact ⟨t / k, Nat.div_lt_of_lt_mul (Nat.mul_comm count k ▸ h), t % k, Nat.mod_lt t hk,
    (Nat.div_add_mod' t k).symm⟩

theorem getLsbD_gatherBlock {n w : Nat} {strings : List (BitVec w)} (hs : strings.length = dim n) {i c r : Nat}
    (hc : c < dim n) (hr : r < dim n) :
    ((gatherBlock n strings i).getD c 0).getLsbD r = (strings.getD c 0).getLsbD (i * dim n + r) := by
  simp [gatherBlock, List.getD, hs, hc, hr]

/-- k×N by blocks is R171's transposition. -/
theorem kxnByBlocks_eq_transposeRows (eng : Bool) {n count : Nat} {strings : List (BitVec (count * dim n))}
    (hs : strings.length = dim n) : kxnByBlocks eng n count strings = transposeRows (dim n) strings := by
  have hblock : ∀ i, (gatherBlock n strings i).length = dim n := fun i => by simp [gatherBlock, hs]
  have heach : ∀ b ∈ engineBlocks eng n count (gatherBlock n strings), b.length = dim n := by
    rw [engineBlocks_eq_oneByOne, oneByOne, List.forall_mem_map]
    exact fun i _ => sqt_length n _ (hblock i)
  have hlen : (kxnByBlocks eng n count strings).length = count * dim n := by
    rw [kxnByBlocks, flatten_length_of_equal _ _ heach, engineBlocks_length]
  refine rows_ext (by rw [hlen, transposeRows_length]) fun t ht c hc => ?_
  rw [hlen] at ht
  obtain ⟨i, hi, r, hr, rfl⟩ := exists_block_place ht
  rw [getLsbD_transposeRows _ _ _ _ hc ht, kxnByBlocks,
    getD_flatten _ _ _ heach _ _ hr (by rwa [engineBlocks_length]),
    getLsbD_engineBlocks eng hi (hblock i) hr hc, getLsbD_gatherBlock hs hc hr]

theorem bufferBlock_length {n count : Nat} {rows : List (BitVec (dim n))} (hr : rows.length = count * dim n) {i : Nat}
    (hi : i < count) : (bufferBlock n rows i).length = dim n := by
  have hroom : i * dim n + dim n ≤ count * dim n := by nlinarith
  rw [bufferBlock, List.length_take, List.length_drop, hr]
  omega

theorem getD_bufferBlock {n : Nat} (rows : List (BitVec (dim n))) (i : Nat) {r : Nat} (hr : r < dim n) :
    (bufferBlock n rows i).getD r 0 = rows.getD (i * dim n + r) 0 := by
  simp [bufferBlock, List.getD, hr]

/-- N×k by blocks is R172's transposition. -/
theorem nxkByBlocks_eq_transposeRows (eng : Bool) {n count : Nat} {rows : List (BitVec (dim n))}
    (hr : rows.length = count * dim n) : nxkByBlocks eng n count rows = transposeRows (count * dim n) rows := by
  have hlen : (nxkByBlocks eng n count rows).length = dim n := by simp [nxkByBlocks]
  refine rows_ext (by rw [hlen, transposeRows_length]) fun j hj t ht => ?_
  rw [hlen] at hj
  obtain ⟨i, hi, r, hr', rfl⟩ := exists_block_place ht
  have hstring : (nxkByBlocks eng n count rows).getD j 0 = BitVec.ofNat (count * dim n)
      (natOfDigits ((engineBlocks eng n count (bufferBlock n rows)).map fun b => b.getD j 0)) := by
    simp [nxkByBlocks, List.getD, hj]
  have hdigit : ((engineBlocks eng n count (bufferBlock n rows)).map fun b => b.getD j 0).getD i 0 =
      ((engineBlocks eng n count (bufferBlock n rows)).getD i []).getD j 0 := by
    simp [List.getD, engineBlocks_length, hi]
  rw [getLsbD_transposeRows _ _ _ _ ht hj, hstring, BitVec.getLsbD_ofNat, natOfDigits_bit _ _ _ hr', hdigit,
    getLsbD_engineBlocks eng hi (bufferBlock_length hr hi) hj hr', getD_bufferBlock rows i hr']
  simp [ht]

/-- Settles O28: either engine's blocks are the blocks in order, each through SQT, and block i, place r is position
i·k + r of a string or a buffer. -/
theorem shufflePathsAgreeWithTheRules : Obligations.ShufflePathsAgreeWithTheRules :=
  fun eng _ _ => ⟨fun _ hs => kxnByBlocks_eq_transposeRows eng hs, fun _ hr => nxkByBlocks_eq_transposeRows eng hr⟩

/-! ### What the stores of a rectangular command hold -/

/-- A command's stores leave every byte outside their ranges alone. -/
theorem unchangedOutside_writeAll {m : Memory} {sts : List Store} {ws : List Range} (h : sts.map storeRange = ws) :
    unchangedOutside m (m.writeAll sts) ws :=
  fun x hx => byte_writeAll_outside m sts x fun _ hst => hx _ (mem_of_map_storeRange h hst)

theorem overlaps_comm (r q : Range) : overlaps r q = overlaps q r := by
  rw [overlaps, overlaps, Bool.and_comm (decide (0 < r.len)), Bool.and_right_comm]

/-- Of stores that share no byte, each holds after all of them. -/
theorem bit_writeAll_of_disjoint {m : Memory} {sts : List Store}
    (hdis : sts.Pairwise fun st st' => overlaps (storeRange st) (storeRange st') = false) {st : Store}
    (hst : st ∈ sts) {t : Nat} (ht : t < 8 * st.2.length) :
    (m.writeAll sts).bit st.1 t = (st.2.getD (t / 8) 0).getLsbD (t % 8) := by
  induction sts generalizing m with
  | nil => cases hst
  | cons first rest ih =>
    obtain ⟨hfirst, hrest⟩ := List.pairwise_cons.mp hdis
    obtain rfl | hmem := List.mem_cons.mp hst
    · have hin : inRange (storeRange st) (st.1 + t / 8) = true :=
        inRange_iff.mpr ⟨Nat.le_add_right _ _, by simp only [storeRange]; omega⟩
      have hkept : Memory.byte ((m.write st.1 st.2).writeAll rest) (st.1 + t / 8) =
          Memory.byte (m.write st.1 st.2) (st.1 + t / 8) :=
        byte_writeAll_outside _ _ _ fun st' hst' =>
          inRange_eq_false_of_overlaps (overlaps_comm _ _ ▸ hfirst st' hst') hin
      rw [← bit_write m st.1 st.2 t ht]
      exact congrArg (BitVec.getLsbD · (t % 8)) hkept
    · exact ih hrest hmem

theorem getLsbD_strings (m : Memory) (t : Nat) {k w bytes j u : Nat} (hw : w = 8 * bytes) (hj : j < k) (hu : u < w) :
    ((Memory.strings m w bytes (tableEntries m t k)).getD j 0).getLsbD u = m.bit (tableEntry m t j).toNat u := by
  have hstring : (Memory.strings m w bytes (tableEntries m t k)).getD j 0 =
      BitVec.ofNat w (m.readNat (tableEntry m t j).toNat bytes) := by
    simp [Memory.strings, tableEntries, List.getD, hj]
  rw [hstring, BitVec.getLsbD_ofNat, testBit_readNat _ _ _ _ (hw ▸ hu)]
  simp [hu]

/-- N·k bits are N·k/8 bytes (R62, R68). -/
theorem stringBits_eq (z : Size) (n : Nat) : n * sizeBits z = 8 * stringBytes z n := by
  rw [sizeBits_eq, stringBytes, Nat.mul_left_comm]

/-- The buffer is N·k rows of k bits (R61, R68). -/
theorem bufferBits_eq (z : Size) (n : Nat) : 8 * (n * blockBytes z) = n * sizeBits z * sizeBits z :=
  calc 8 * (n * (sizeBits z * rowBytes z)) = n * sizeBits z * (8 * rowBytes z) := by ring
    _ = n * sizeBits z * sizeBits z := by rw [← sizeBits_eq]

/-- The one store of `transpose_<k>xN` is its buffer (R171). -/
theorem kxnStores_contiguousRange (z : Size) {s : State} (h : s.operands.arg2.toNat < 2 ^ 32) :
    (State.kxnStores z s).map storeRange = [contiguousRange z s.operands.arg2.toNat s.operands.arg0.toNat] := by
  rw [kxnStores_range, blockCount_of_lt h]
  rfl

/-- The buffer that `transpose_<k>xN` writes (R171). -/
theorem bit_kxnStores (z : Size) {s : State} (h : s.operands.arg2.toNat < 2 ^ 32) {u j : Nat}
    (hu : u < s.operands.arg2.toNat * sizeBits z) (hj : j < sizeBits z) :
    (s.mem.writeAll (State.kxnStores z s)).bit s.operands.arg0.toNat (u * sizeBits z + j) =
      s.mem.bit (tableEntry s.mem s.operands.arg1.toNat j).toNat u := by
  rw [← blockCount_of_lt h] at hu
  rw [State.kxnStores, bit_writeAll_bytesOfRows _ _ _ _ _ _ (sizeBits_eq z) (by rwa [transposeRows_length]) hj,
    getLsbD_transposeRows _ _ _ _ hj hu, getLsbD_strings _ _ (stringBits_eq z _) hj hu]

/-- The stores of `transpose_Nx<k>` are the k row ranges of its table (R172). -/
theorem nxkStores_rowRangeAt (z : Size) {s : State} (h : s.operands.arg2.toNat < 2 ^ 32) :
    (State.nxkStores z s).map storeRange = (List.range (sizeBits z)).map
      (rowRangeAt s.mem z s.operands.arg2.toNat s.operands.arg0.toNat) := by
  rw [nxkStores_range, rowRanges_tableEntries, blockCount_of_lt h]

/-- The string that `transpose_Nx<k>` computes for entry j of its table (R172). -/
def nxkString (z : Size) (s : State) (j : Nat) : BitVec (blockCount s.operands * sizeBits z) :=
  (transposeRows (blockCount s.operands * sizeBits z)
    (Memory.rows s.mem s.operands.arg1.toNat (sizeBits z) (rowBytes z) (blockCount s.operands * sizeBits z))).getD j 0

theorem getLsbD_nxkString (z : Size) (s : State) {u j : Nat} (hu : u < blockCount s.operands * sizeBits z)
    (hj : j < sizeBits z) :
    (nxkString z s j).getLsbD u = s.mem.bit s.operands.arg1.toNat (u * sizeBits z + j) := by
  rw [nxkString, getLsbD_transposeRows _ _ _ _ hu hj, getLsbD_rows _ _ _ _ _ _ _ (sizeBits_eq z) hu hj]

theorem nxkString_mem_nxkStores (z : Size) (s : State) {j : Nat} (hj : j < sizeBits z) :
    ((tableEntry s.mem s.operands.arg0.toNat j).toNat,
      bytesOfNat (stringBytes z (blockCount s.operands)) (nxkString z s j).toNat) ∈ State.nxkStores z s := by
  refine List.mem_iff_getElem.mpr ⟨j, by simpa [State.nxkStores] using hj, ?_⟩
  simp [State.nxkStores, nxkString, tableEntries, List.getD, hj]

/-- The strings that `transpose_Nx<k>` writes, where no two rows share a byte (R172). -/
theorem bit_nxkStores (z : Size) {s : State} (h : s.operands.arg2.toNat < 2 ^ 32)
    (hdis : ∀ i < sizeBits z, ∀ j < i,
      overlaps (rowRangeAt s.mem z s.operands.arg2.toNat s.operands.arg0.toNat j)
        (rowRangeAt s.mem z s.operands.arg2.toNat s.operands.arg0.toNat i) = false)
    {u j : Nat} (hu : u < s.operands.arg2.toNat * sizeBits z) (hj : j < sizeBits z) :
    (s.mem.writeAll (State.nxkStores z s)).bit (tableEntry s.mem s.operands.arg0.toNat j).toNat u =
      s.mem.bit s.operands.arg1.toNat (u * sizeBits z + j) := by
  have hpair : (State.nxkStores z s).Pairwise fun st st' => overlaps (storeRange st) (storeRange st') = false := by
    rw [← List.pairwise_map (R := fun r q => overlaps r q = false), nxkStores_rowRangeAt z h,
      ← pairwiseDisjoint_iff]
    exact (pairwiseDisjoint_range _ _).mpr hdis
  rw [← blockCount_of_lt h] at hu
  have hu' : u < 8 * stringBytes z (blockCount s.operands) := stringBits_eq z _ ▸ hu
  rw [← getLsbD_nxkString z s hu hj]
  refine (bit_writeAll_of_disjoint hpair (nxkString_mem_nxkStores z s hj) (by rwa [bytesOfNat_length])).trans ?_
  exact getLsbD_bytesOfNat _ _ u hu'

/-! ### The commands -/

section Commands

variable {s : State} {z : Size} {n t b : Nat} (hn : s.operands.arg2.toNat = n) (hok : s.rectOperandsOk z n t b)
  (hcl : s.clear (s.rectRanges z n t b))

include hn hok hcl

/-- `transpose_<k>xN` from the table at t into the buffer at b (R171). -/
theorem exec_kxn_transposes (ht : s.operands.arg1.toNat = t) (hb : s.operands.arg0.toNat = b)
    (hov : overlaps (tableRange z t) (contiguousRange z n b) = false) :
    ∃ m, exec (Command.kxn z).instr s = .next (s.finished m [contiguousRange z n b]) ∧
      (∀ u < n * sizeBits z, ∀ j < sizeBits z,
        Memory.bit m b (u * sizeBits z + j) = Memory.bit s.mem (tableEntry s.mem t j).toNat u) ∧
      unchangedOutside s.mem m [contiguousRange z n b] := by
  have hexec := exec_kxn_commits hn ht hb hok hov hcl
  obtain ⟨-, h32, -⟩ := hok
  subst hn ht hb
  exact ⟨_, hexec, fun u hu j hj => bit_kxnStores z h32 hu hj,
    unchangedOutside_writeAll (kxnStores_contiguousRange z h32)⟩

/-- `transpose_Nx<k>` from the buffer at b into the strings of the table at t (R172). -/
theorem exec_nxk_transposes (ht : s.operands.arg0.toNat = t) (hb : s.operands.arg1.toNat = b)
    (hov : ∀ j < sizeBits z, overlaps (tableRange z t) (rowRangeAt s.mem z n t j) = false) :
    ∃ m, exec (Command.nxk z).instr s =
        .next (s.finished m ((List.range (sizeBits z)).map (rowRangeAt s.mem z n t))) ∧
      (∀ u < n * sizeBits z, ∀ j < sizeBits z,
        Memory.bit m (tableEntry s.mem t j).toNat u = Memory.bit s.mem b (u * sizeBits z + j)) ∧
      unchangedOutside s.mem m ((List.range (sizeBits z)).map (rowRangeAt s.mem z n t)) := by
  have hexec := exec_nxk_commits hn ht hb hok hov hcl
  obtain ⟨-, h32, -, -, -, -, -, -, hdis, -⟩ := hok
  subst hn ht hb
  exact ⟨_, hexec, fun u hu j hj => bit_nxkStores z h32 hdis hu hj,
    unchangedOutside_writeAll (nxkStores_rowRangeAt z h32)⟩

end Commands

/-- Settles O34: the five are one command, at its five sizes. -/
theorem kxnCommandsTranspose : Obligations.KxnCommandsTranspose := by
  intro s p hp k n d t hok hov hcl
  have hinstr : p.1 = (Command.kxn p.2).instr := by fin_cases hp <;> rfl
  rw [hinstr]
  exact exec_kxn_transposes rfl hok hcl rfl rfl hov

/-- Settles O35: the five are one command, at its five sizes. -/
theorem nxkCommandsTranspose : Obligations.NxkCommandsTranspose := by
  intro s p hp k n t b rows hok hov hcl
  have hinstr : p.1 = (Command.nxk p.2).instr := by fin_cases hp <;> rfl
  rw [hinstr]
  exact exec_nxk_transposes rfl hok hcl rfl rfl hov

/-! ### There and back -/

/-- Bit strings that agree are byte strings that agree. -/
theorem byte_add_eq_of_bit_eq {m m' : Memory} {a a' len x : Nat} (h : ∀ t < 8 * len, m'.bit a' t = m.bit a t)
    (hx : x < len) : Memory.byte m' (a' + x) = Memory.byte m (a + x) := by
  apply BitVec.eq_of_getLsbD_eq
  intro j hj
  have hbit := h (8 * x + j) (by omega)
  rwa [← bit_add, ← bit_add, Memory.bit, Memory.bit, Nat.div_eq_of_lt hj, Nat.mod_eq_of_lt hj] at hbit

/-- A write off the pointer table leaves its entries as they were. -/
theorem tableEntry_eq_of_unchanged {m m' : Memory} {z : Size} {t : Nat} {ws : List Range}
    (hm : unchangedOutside m m' ws) (hov : ∀ w ∈ ws, overlaps (tableRange z t) w = false) {j : Nat}
    (hj : j < sizeBits z) : tableEntry m' t j = tableEntry m t j := by
  have htable : tableEntries m' t (sizeBits z) = tableEntries m t (sizeBits z) :=
    tableEntries_congr fun x hx => hm x fun w hw =>
      inRange_eq_false_of_overlaps (overlaps_comm _ _ ▸ hov w hw) hx
  simpa [tableEntries, List.getD, hj] using congrArg (List.getD · j 0) htable

/-- Settles O58: the first command leaves the table alone, so bit j of row u of the buffer goes to bit u of string j
and from there to bit j of row u. -/
theorem rectangularRoundTrip : Obligations.RectangularRoundTrip := by
  intro s t s' u z n tab b d hok hov hcl hexec hmem harg1 harg2 hok' hov' hcl' hexec' x hx
  obtain ⟨m, hnext, hstrings, hframe⟩ := exec_nxk_transposes rfl hok hcl rfl rfl hov
  obtain ⟨m', hnext', hrows, -⟩ :=
    exec_kxn_transposes (congrArg BitVec.toNat harg2) hok' hcl' (congrArg BitVec.toNat harg1) rfl hov'
  obtain rfl : s.finished m _ = t := Host.Outcome.next.inj (hnext.symm.trans hexec)
  obtain rfl : s'.finished m' _ = u := Host.Outcome.next.inj (hnext'.symm.trans hexec')
  obtain rfl : s'.mem = m := hmem
  have hentry : ∀ j < sizeBits z, tableEntry s'.mem tab j = tableEntry s.mem tab j := fun j hj =>
    tableEntry_eq_of_unchanged hframe (List.forall_mem_map.mpr fun i hi => hov i (List.mem_range.mp hi)) hj
  refine byte_add_eq_of_bit_eq (fun v hv => ?_) hx
  obtain ⟨r, hr, j, hj, rfl⟩ := exists_block_place (bufferBits_eq z n ▸ hv)
  exact (hrows r hr j hj).trans (by rw [hentry j hj, hstrings r hr j hj])

end Sys2Proof.Proofs
end

section
/-! PROOF. The error completions that need no operand (R94, R213, R219), the interrupt line (R223), and a host operation
against a completion (R224). -/

namespace Sys2Proof.Proofs

open Sys2Proof Sys2Proof.Machine Sys2Proof.Laws

/-! ### Error completions -/

/-- The decoder rejects every word that is no instruction's (R94). -/
theorem exists_decode_error {v : Word} (h : ∀ i, v ≠ encode i) : ∃ e, decode v = .error e := by
  cases hd : decode v with
  | ok i => exact absurd (decode_eq_ok_iff.mp hd) (h i)
  | error e => exact ⟨e, rfl⟩

/-- Settles O6: a word that is no instruction's does not decode, and the unit's move is then the error completion. -/
theorem illegalWordCompletesWithError : Obligations.IllegalWordCompletesWithError := by
  intro s l u hl hillegal hn
  obtain ⟨e, he⟩ := exists_decode_error hillegal
  rw [step_unitNext hn]
  obtain ⟨ts, f, rfl⟩ := unitNext_eq hn
  exact unitMove_illegal hl he

/-- Settles O54: of the ways a command can go on, only the error completion sets ERR, and its plan gives the code. -/
theorem errorsArePrecise : Obligations.ErrorsArePrecise := by
  intro i s t h hs ht
  obtain ⟨-, rfl⟩ | ⟨-, ⟨c, a, rs, hp, rfl⟩ | ⟨-, rfl⟩ | ⟨rfl, -⟩ | ⟨rs, ws, -, -, -, rfl⟩⟩ := exec_next h
  case inr.inl => exact ⟨c, a, plan_error hp, rfl⟩
  all_goals exact absurd (hs.symm.trans ht) Bool.false_ne_true

/-- Settles O40: the block count is the first check of a rectangular command. -/
theorem blockCountOutOfRangeIsAnError : Obligations.BlockCountOutOfRangeIsAnError := by
  intro s i hi hcount
  have htakes : takesBlockCount i.command = true := by fin_cases hi <;> rfl
  exact exec_of_plan_error (plan_of_count_out_of_range htakes (bne_iff_ne.mp (countOutOfRange_of_ge hcount)))

/-! ### The interrupt line -/

/-- A STATUS write is honoured BUSY or IDLE (R39, R41). -/
theorem writeReg_status (s : State) (v : Word) : s.writeReg .status v = { s with status := s.status.clear v } := by
  unfold State.writeReg
  split <;> rfl

theorem writeReg_of_idle {s : State} (hb : s.busy = false) (r : Reg) (v : Word) :
    s.writeReg r v = s.writeRegIdle v r := if_neg (ne_true_of_eq_false hb)

/-- Settles O15: the words hold the fields, and each of the three writes clears IE, or DONE and ERR. -/
theorem interruptLine : Obligations.InterruptLine := by
  intro s v
  obtain ⟨-, hdone, herr, -, -, -, -, -, hie, -⟩ := statusAndCtrlFields s.busy s.status s.ctrl
  refine ⟨by rw [hdone, herr, hie, State.irq], fun h1 h2 => ?_, fun hb h1 => ?_, fun hb => ?_⟩
  · rw [writeReg_status]
    simp [State.irq, Status.clear, h1, h2]
  · rw [writeReg_of_idle hb]
    have hclear : (ctrlOfWrite s.platform v).ie = false := h1
    simp [State.irq, State.writeRegIdle, hclear]
  · rw [writeReg_of_idle hb]
    simp [State.irq, State.writeRegIdle]

/-! ### A host operation against a completion -/

theorem perform_with_turns {s : State} {stores : State → List Store} (ts : List Turn) (p : Plan)
    (hst : stores { s with turns := ts } = stores s) :
    State.perform { s with turns := ts } p stores = mapNext (fun t => { t with turns := ts }) (s.perform p stores) := by
  cases p with
  | error code addr _ => rfl
  | nothing => rfl
  | hang _ => rfl
  | stop w _ => cases w <;> rfl
  | access rs ws =>
    simp only [State.perform, hst]
    split
    · rfl
    · split <;> rfl

/-- A command neither looks at the turns to come nor changes them. -/
theorem exec_with_turns (i : Instr) (s : State) (ts : List Turn) :
    exec i { s with turns := ts } = mapNext (fun t => { t with turns := ts }) (exec i s) := by
  by_cases hi : i = .transpose8x8Direct
  · subst hi
    rfl
  · have hplan : State.plan { s with turns := ts } i.command = s.plan i.command :=
      accessSetIsDataOblivious i s _ rfl rfl rfl rfl (fun _ _ _ _ => rfl) (fun _ _ _ _ => rfl)
    have hstores : storesOf i { s with turns := ts } = storesOf i s := by cases i <;> rfl
    rw [exec_eq_perform i _ hi, exec_eq_perform i s hi, hplan, perform_with_turns ts _ hstores]

/-- Settles O16: the free value names one of the two turns; a write before the completion is dropped, and one after it
finds the unit IDLE. -/
theorem hostWriteAndCompletionInEitherOrder : Obligations.HostWriteAndCompletionInEitherOrder := by
  constructor
  · intro s l op ops hl ht hi hw
    have hturns : ({ s with turns := [], free := s.free + 1 } : State) = { s with free := s.free + 1 } := by rw [← ht]
    rw [step_eitherNext ⟨ht, busy_eq_true hl, op, ops, hi, hw⟩, step_turn rfl, hturns]
    cases Config.hostMovesFirst s.free <;> rfl
  · intro s l i v ops t off hoff hl hd hi ht hexec hdone
    have haligned : off.toNat % 8 = 0 := by fin_cases hoff <;> rfl
    have hself : ({ s with turns := [] } : State) = s := by rw [← ht]
    constructor
    · have hdrop := busyWritesAreDropped { s with turns := [.host] } l off v ops _ hl haligned (.inl ⟨[], rfl, rfl⟩) hi
      rwa [if_pos hoff, hself] at hdrop
    · obtain ⟨-, -, -, -, -, -, -, hinputs, hturns, -⟩ := commandsKeepTheRegisters i s t hexec
      have hunit : step { s with turns := [.unit, .host] } = exec i { s with turns := [.host] } :=
        (step_unitNext (.inl ⟨[.host], rfl, rfl⟩)).trans (unitMove_ok hl hd)
      have hdone' : ({ t with turns := [] } : State) = t := by rw [← ht, ← hturns]
      refine ⟨{ t with turns := [.host] }, by rw [hunit, exec_with_turns, hexec]; rfl, ?_⟩
      have hwrite := step_wr_of_idle (s := { t with turns := [.host] }) (.inl ⟨[], rfl, rfl⟩) haligned
        (hinputs.trans hi) (busy_eq_false hdone)
      rwa [hdone'] at hwrite

end Sys2Proof.Proofs
end

section
/-! PROOF. The checks of a rectangular command in the order of R218, and what a memory command stops on (R70, R216,
R225). -/

namespace Sys2Proof.Proofs

open Sys2Proof Sys2Proof.Machine Sys2Proof.Laws

/-! ### What a command does where its plan stops, or its data phase meets a bus error -/

section Stops

variable {i : Instr} {s : State}

theorem exec_of_plan_stop {w : Stop} {rs : List Range} (h : s.plan i.command = .stop w rs) : exec i s = w.outcome := by
  have hi : i ≠ .transpose8x8Direct := by rintro rfl; cases h
  rw [exec_eq_perform i s hi, h]
  rfl

theorem exec_of_data_bus_error {rs reads writes : List Range} (h : s.plan i.command = .access reads writes)
    (hmem : ∀ x, x ∈ reads ++ writes ↔ x ∈ rs) (hf : busHits s.platform .faulting rs = true) :
    exec i s = .fault .dataPhaseBusFault := by
  have hi : i ≠ .transpose8x8Direct := by rintro rfl; cases h
  rw [exec_eq_perform i s hi, h]
  exact if_pos ((busHits_congr hmem).trans hf)

/-- A command that stops on the violations of R225 in some ranges meets them in this order (log entry 10). -/
theorem exec_of_violation {rs : List Range} (h : ∀ w, s.stopOn rs = some w → exec i s = w.outcome) :
    (busHits s.platform .device rs = true → exec i s = .refused .deviceMemory) ∧
    (busHits s.platform .device rs = false → rs.any (overlaps (windowOf s.platform)) = true →
      exec i s = .fault .registerWindowOverlap) ∧
    (busHits s.platform .device rs = false → rs.any (overlaps (windowOf s.platform)) = false →
      s.platform.coherent = false → (∃ x ∈ s.dirty, ∃ r ∈ rs, inRange r x = true) →
      exec i s = .fault .notCoherent) := by
  refine ⟨fun hd => h (.refuse .deviceMemory) (if_pos hd), fun hd hw => h (.fault .registerWindowOverlap) ?_,
    fun hd hw hc hx => h (.fault .notCoherent) ?_⟩
  · rw [State.stopOn, if_neg (ne_true_of_eq_false hd), if_pos hw]
  · have hdirty : (!s.platform.coherent && s.dirty.any (fun a => rs.any (inRange · a))) = true := by
      simpa [hc] using hx
    rw [State.stopOn, if_neg (ne_true_of_eq_false hd), if_neg (ne_true_of_eq_false hw), if_pos hdirty]

theorem exec_of_violation_of_range {r : Range} (h : ∀ w, s.stopOn [r] = some w → exec i s = w.outcome) :
    (busHits s.platform .device [r] = true → exec i s = .refused .deviceMemory) ∧
    (busHits s.platform .device [r] = false → overlaps r (windowOf s.platform) = true →
      exec i s = .fault .registerWindowOverlap) ∧
    (busHits s.platform .device [r] = false → overlaps r (windowOf s.platform) = false →
      s.platform.coherent = false → (∃ x ∈ s.dirty, inRange r x = true) → exec i s = .fault .notCoherent) := by
  simpa [overlaps_comm (windowOf s.platform)] using exec_of_violation h

end Stops

/-! ### A square or packed command -/

section Buffer

variable {s : State} {len : Nat} {al : Bool} (hlen : s.operands.arg0.toNat + len ≤ 2 ^ 64)
  (hal : al = true → s.operands.arg0.toNat % 32 = 0)

include hlen hal

/-- A buffer that passes its checks is looked at for the violations of R225, and then accessed. -/
theorem bufferPlan_of_checks :
    (∀ w, s.stopOn [bufferRange s.operands len] = some w →
      s.bufferPlan len al = .stop w [bufferRange s.operands len]) ∧
    (s.stopOn [bufferRange s.operands len] = none →
      s.bufferPlan len al = .access [bufferRange s.operands len] [bufferRange s.operands len]) := by
  have hplain : s.bufferPlan len al = s.bufferPlan len false := by
    cases al with
    | false => rfl
    | true => exact bufferPlan_aligned (hal rfl) true
  have hrange : rangeOk (bufferRange s.operands len) = true := decide_eq_true hlen
  rw [hplain]
  constructor
  · intro w h
    simp [State.bufferPlan, hrange, h]
  · intro h
    simp [State.bufferPlan, hrange, h]

end Buffer

/-- Settles O45: the buffer is all that such a command accesses. -/
theorem bufferViolationsStop : Obligations.BufferViolationsStop := by
  intro s p hp a buf hal hlen
  have hform : bufferForm p.1.command = some p.2 := by fin_cases hp <;> rfl
  have hplan := plan_of_bufferForm hform s
  obtain ⟨hstop, haccess⟩ := bufferPlan_of_checks hlen hal
  obtain ⟨hdev, hwin, hcoh⟩ := exec_of_violation_of_range fun w hw => exec_of_plan_stop (hplan.trans (hstop w hw))
  refine ⟨hdev, hwin, hcoh, fun hnone hf => exec_of_data_bus_error (hplan.trans (haccess hnone)) (rs := [buf]) ?_ hf⟩
  exact fun x => by simp [buf, a, bufferRange]

/-! ### The checks of a rectangular command on its operands and its table -/

/-- The first operand error is a `transpose_<k>xN` plan's (R218 checks 4 and 5). -/
theorem kxnPlan_of_operandError {s : State} {z : Size} {c : ErrCode} {a : Word} (h0 : 0 < s.operands.arg2.toNat)
    (h32 : s.operands.arg2.toNat < 2 ^ 32)
    (h : operandError s.operands.arg0 (rowBytes z) (contiguousBytes z s.operands.arg2.toNat) s.operands.arg1
      pointerBytes (tableBytes z) = some (c, a)) : s.kxnPlan z = .error c a [] := by
  simp only [State.kxnPlan, blockCount_of_lt h32, countOutOfRange_of_lt h32, h]
  rw [if_neg Bool.false_ne_true, if_neg h0.ne']

theorem nxkPlan_of_operandError {s : State} {z : Size} {c : ErrCode} {a : Word} (h0 : 0 < s.operands.arg2.toNat)
    (h32 : s.operands.arg2.toNat < 2 ^ 32)
    (h : operandError s.operands.arg0 pointerBytes (tableBytes z) s.operands.arg1 (rowBytes z)
      (contiguousBytes z s.operands.arg2.toNat) = some (c, a)) : s.nxkPlan z = .error c a [] := by
  simp only [State.nxkPlan, blockCount_of_lt h32, countOutOfRange_of_lt h32, h]
  rw [if_neg Bool.false_ne_true, if_neg h0.ne']

/-- Checks 4 and 5 of R218: MISALIGNED on ARG0 then ARG1, then ADDR_RANGE on ARG0 then ARG1. -/
theorem operandError_of_first {a0 a1 : Word} {x0 n0 x1 n1 : Nat} :
    (a0.toNat % x0 ≠ 0 → operandError a0 x0 n0 a1 x1 n1 = some (.misaligned, a0)) ∧
    (a0.toNat % x0 = 0 → a1.toNat % x1 ≠ 0 → operandError a0 x0 n0 a1 x1 n1 = some (.misaligned, a1)) ∧
    (a0.toNat % x0 = 0 → a1.toNat % x1 = 0 → a0.toNat + n0 > 2 ^ 64 →
      operandError a0 x0 n0 a1 x1 n1 = some (.addrRange, a0)) ∧
    (a0.toNat % x0 = 0 → a1.toNat % x1 = 0 → a0.toNat + n0 ≤ 2 ^ 64 → a1.toNat + n1 > 2 ^ 64 →
      operandError a0 x0 n0 a1 x1 n1 = some (.addrRange, a1)) := by
  unfold operandError
  refine ⟨fun h => if_pos h, fun h0 h1 => ?_, fun h0 h1 hr => ?_, fun h0 h1 hr0 hr1 => ?_⟩
  · rw [if_neg (not_not.mpr h0), if_pos h1]
  · rw [if_neg (not_not.mpr h0), if_neg (not_not.mpr h1), if_pos hr]
  · rw [if_neg (not_not.mpr h0), if_neg (not_not.mpr h1), if_neg (Nat.not_lt.mpr hr0), if_pos hr1]

/-- Settles O41: the first operand error is the plan's. -/
theorem rectangularOperandChecksInOrder : Obligations.RectangularOperandChecksInOrder := by
  intro s z o n l h0 h32 p hp plan
  have herror : ∀ c a, operandError o.arg0 p.2.1 p.2.2.1 o.arg1 p.2.2.2.1 p.2.2.2.2 = some (c, a) →
      exec p.1 s = .next (s.failed c a) ∧ plan.touched = [] := by
    intro c a h
    refine exec_of_plan_error ?_
    obtain rfl | rfl : p = _ ∨ p = _ := by simpa using hp
    · rw [command_instr]
      exact kxnPlan_of_operandError h0 h32 h
    · rw [command_instr]
      exact nxkPlan_of_operandError h0 h32 h
  obtain ⟨hmis0, hmis1, hrange0, hrange1⟩ := operandError_of_first (a0 := o.arg0) (a1 := o.arg1) (x0 := p.2.1)
    (n0 := p.2.2.1) (x1 := p.2.2.2.1) (n1 := p.2.2.2.2)
  exact ⟨fun h => herror _ _ (hmis0 h), fun h h1 => herror _ _ (hmis1 h h1),
    fun h h1 h2 => herror _ _ (hrange0 h h1 h2), fun h h1 h2 h3 => herror _ _ (hrange1 h h1 h2 h3)⟩

/-- The rectangular command of a size: `transpose_<k>xN`, or `transpose_Nx<k>`. -/
def rectCommand (z : Size) (kxn : Bool) : Command := if kxn then .kxn z else .nxk z

/-- The address of its pointer table: ARG1 of a k×N, ARG0 of an N×k (R92). -/
def tableOperand (o : OperandRegs) (kxn : Bool) : Nat := if kxn then o.arg1.toNat else o.arg0.toNat

/-- The address of its buffer (R92). -/
def bufferOperand (o : OperandRegs) (kxn : Bool) : Nat := if kxn then o.arg0.toNat else o.arg1.toNat

/-- A rectangular command's operands name n blocks, a table at t and a buffer at b, and pass checks 2 to 5 of R218. -/
structure RectOperandsPass (s : State) (z : Size) (kxn : Bool) (n t b : Nat) : Prop where
  count : s.operands.arg2.toNat = n
  table : tableOperand s.operands kxn = t
  buffer : bufferOperand s.operands kxn = b
  countPos : 0 < n
  countFits : n < 2 ^ 32
  bufferAligned : b % rowBytes z = 0
  tableAligned : t % 8 = 0
  bufferFits : b + n * blockBytes z ≤ 2 ^ 64
  tableFits : t + 8 * sizeBits z ≤ 2 ^ 64

/-- R179, R225 (a), (b): no two rows share a byte, nor the buffer and a row, nor the table and what is written. -/
def RectRangesDisjoint (s : State) (z : Size) (kxn : Bool) (n t b : Nat) : Prop :=
  (∀ i < sizeBits z, ∀ j < i, overlaps (rowRangeAt s.mem z n t j) (rowRangeAt s.mem z n t i) = false) ∧
  (∀ j < sizeBits z, overlaps (contiguousRange z n b) (rowRangeAt s.mem z n t j) = false) ∧
  (kxn = true → overlaps (tableRange z t) (contiguousRange z n b) = false) ∧
  (kxn = false → ∀ j < sizeBits z, overlaps (tableRange z t) (rowRangeAt s.mem z n t j) = false)

/-- Check 7 passes over good entries. -/
theorem entryError_append_of_good {x n : Nat} {ps : List Word}
    (h : ∀ p ∈ ps, p.toNat % x = 0 ∧ p.toNat + n ≤ 2 ^ 64) (qs : List Word) :
    entryError x n (ps ++ qs) = entryError x n qs := by
  induction ps with
  | nil => rfl
  | cons p ps ih =>
    obtain ⟨⟨hal, hfits⟩, hrest⟩ := List.forall_mem_cons.mp h
    rw [List.cons_append, entryError, if_neg (not_not.mpr hal), if_neg (Nat.not_lt.mpr hfits), ih hrest]

/-- With the entries before it good, check 7 comes to entry j. -/
theorem entryError_tableEntries {m : Memory} {t k x n j : Nat} (hj : j < k)
    (h : ∀ i < j, (tableEntry m t i).toNat % x = 0 ∧ (tableEntry m t i).toNat + n ≤ 2 ^ 64) :
    ∃ ps, entryError x n (tableEntries m t k) = entryError x n (tableEntry m t j :: ps) := by
  have hsplit : tableEntries m t k =
      tableEntries m t j ++ tableEntry m t j :: (tableEntries m t k).drop (j + 1) := by
    have hprefix : (tableEntries m t k).take j = tableEntries m t j := by
      simp [tableEntries, ← List.map_take, List.take_range, Nat.min_eq_left hj.le]
    have hentry : (tableEntries m t k)[j]'(by simpa) = tableEntry m t j := by simp [tableEntries]
    rw [← hprefix, ← hentry, ← List.drop_eq_getElem_cons, List.take_append_drop]
  exact ⟨_, hsplit ▸ entryError_append_of_good (forall_tableEntries.mpr h) _⟩

/-- `transpose_<k>xN` reads its table after checks 1 to 5 of R218. -/
theorem exists_kxnPlan_tablePhase {s : State} {z : Size} (h0 : 0 < s.operands.arg2.toNat)
    (h32 : s.operands.arg2.toNat < 2 ^ 32)
    (h : operandError s.operands.arg0 (rowBytes z) (contiguousBytes z s.operands.arg2.toNat) s.operands.arg1
      pointerBytes (tableBytes z) = none) :
    ∃ rest, s.kxnPlan z = s.tablePhase (tableRange z s.operands.arg1.toNat) rest := by
  simp only [State.kxnPlan, blockCount_of_lt h32, countOutOfRange_of_lt h32]
  rw [if_neg Bool.false_ne_true, if_neg h0.ne', h]
  exact ⟨_, rfl⟩

theorem exists_nxkPlan_tablePhase {s : State} {z : Size} (h0 : 0 < s.operands.arg2.toNat)
    (h32 : s.operands.arg2.toNat < 2 ^ 32)
    (h : operandError s.operands.arg0 pointerBytes (tableBytes z) s.operands.arg1 (rowBytes z)
      (contiguousBytes z s.operands.arg2.toNat) = none) :
    ∃ rest, s.nxkPlan z = s.tablePhase (tableRange z s.operands.arg0.toNat) rest := by
  simp only [State.nxkPlan, blockCount_of_lt h32, countOutOfRange_of_lt h32]
  rw [if_neg Bool.false_ne_true, if_neg h0.ne', h]
  exact ⟨_, rfl⟩

theorem tablePhase_of_violation {s : State} {table : Range} {w : Stop} (h : s.stopOn [table] = some w) (rest : Plan) :
    s.tablePhase table rest = .stop w [table] := by
  simp only [State.tablePhase, h]

/-- With no silent address to come first, a bus error on the table is reported at an offset into it (R216). -/
theorem tablePhase_of_bus_error {s : State} {table : Range} (h : s.stopOn [table] = none)
    (hf : busHits s.platform .faulting [table] = true) (hs : busHits s.platform .silent [table] = false)
    (rest : Plan) :
    s.tablePhase table rest =
      .error .busFault (BitVec.ofNat 64 (table.base + Config.faultOffset s.draw % table.len)) [table] := by
  simp [State.tablePhase, h, hf, hs]

theorem dataPlan_of_violation {s : State} {d : Bool} {reads writes : List Range} {w : Stop}
    (h : s.stopOn (reads ++ writes) = some w) : s.dataPlan d reads writes = .stop w (reads ++ writes) := by
  simp only [State.dataPlan, h]

theorem dataPlan_of_no_violation {s : State} {reads writes : List Range} (h : s.stopOn (reads ++ writes) = none)
    (d : Bool) :
    s.dataPlan d reads writes =
      if d then .access reads writes else .stop (.fault .overlappingRanges) (reads ++ writes) := by
  simp only [State.dataPlan, h]

section Rectangular

variable {s : State} {z : Size} {kxn : Bool} {n t b : Nat} (ho : RectOperandsPass s z kxn n t b)

include ho

/-- Either command reads its table after checks 1 to 5 of R218. -/
theorem exists_plan_tablePhase : ∃ rest, s.plan (rectCommand z kxn) = s.tablePhase (tableRange z t) rest := by
  obtain ⟨rfl, rfl, rfl, h0, h32, hb, ht, hbl, htl⟩ := ho
  cases kxn with
  | true => exact exists_kxnPlan_tablePhase h0 h32 (operandError_of_ok hb ht hbl htl)
  | false => exact exists_nxkPlan_tablePhase h0 h32 (operandError_of_ok ht hb htl hbl)

/-- A violation on the table stops the command, whatever its entries are. -/
theorem exec_of_table_violation {w : Stop} (h : s.stopOn [tableRange z t] = some w) :
    exec (rectCommand z kxn).instr s = w.outcome := by
  obtain ⟨rest, hplan⟩ := exists_plan_tablePhase ho
  exact exec_of_plan_stop (by rw [command_instr, hplan, tablePhase_of_violation h])

/-- An offset into the table names an address inside it. -/
theorem inRange_tableRange_offset (f : Nat) :
    inRange (tableRange z t) (BitVec.ofNat 64 (t + f % (tableRange z t).len)).toNat = true := by
  have hlen : 0 < (tableRange z t).len := Nat.mul_pos (by decide) (dim_pos _)
  have hoff := Nat.mod_lt f hlen
  have hspace : t + (tableRange z t).len ≤ 2 ^ 64 := ho.tableFits
  rw [BitVec.toNat_ofNat, Nat.mod_eq_of_lt (by omega)]
  exact inRange_iff.mpr ⟨Nat.le_add_right _ _, Nat.add_lt_add_left hoff t⟩

theorem exec_of_table_bus_error (h : s.stopOn [tableRange z t] = none)
    (hf : busHits s.platform .faulting [tableRange z t] = true)
    (hs : busHits s.platform .silent [tableRange z t] = false) :
    ∃ a : Word, inRange (tableRange z t) a.toNat = true ∧
      exec (rectCommand z kxn).instr s = .next (s.failed .busFault a) := by
  obtain ⟨rest, hplan⟩ := exists_plan_tablePhase ho
  refine ⟨_, inRange_tableRange_offset ho (Config.faultOffset s.draw), ?_⟩
  exact (exec_of_plan_error (by rw [command_instr, hplan, tablePhase_of_bus_error h hf hs]; rfl)).1

variable (hc : s.clear [tableRange z t])

include hc

/-- Check 7 of R218 on a table that is read. -/
theorem plan_of_entryError {c : ErrCode} {a : Word}
    (h : entryError (rowBytes z) (stringBytes z n) (tableEntries s.mem t (sizeBits z)) = some (c, a)) :
    s.plan (rectCommand z kxn) = .error c a [tableRange z t] := by
  obtain ⟨hn, ht', hb', h0, h32, hb, ht, hbl, htl⟩ := ho
  cases kxn with
  | true => exact (kxnPlan_of_table hn ht' hb' h0 h32 hb ht hbl htl hc).trans (by simp only [h])
  | false => exact (nxkPlan_of_table hn ht' hb' h0 h32 hb ht hbl htl hc).trans (by simp only [h])

/-- With every check of R218 passed comes the data phase, which accesses the sets of R68. -/
theorem exists_plan_dataPlan (hgood : ∀ j < sizeBits z,
      (tableEntry s.mem t j).toNat % rowBytes z = 0 ∧ (tableEntry s.mem t j).toNat + n * rowBytes z ≤ 2 ^ 64) :
    ∃ d reads writes, s.plan (rectCommand z kxn) = s.dataPlan d reads writes ∧
      (∀ x, x ∈ reads ++ writes ↔ x ∈ s.rectRanges z n t b) ∧ (d = true ↔ RectRangesDisjoint s z kxn n t b) := by
  obtain ⟨hn, ht', hb', h0, h32, hb, ht, hbl, htl⟩ := ho
  have he : entryError (rowBytes z) (stringBytes z n) (tableEntries s.mem t (sizeBits z)) = none :=
    entryError_eq_none.mpr (forall_tableEntries.mpr hgood)
  cases kxn with
  | true =>
    have hplan := kxnPlan_of_table hn ht' hb' h0 h32 hb ht hbl htl hc
    rw [he] at hplan
    refine ⟨_, _, _, hplan, fun x => ?_, ?_⟩
    · simp [mem_rectRanges, or_left_comm, or_comm]
    · simp [RectRangesDisjoint, pairwiseDisjoint_range, and_assoc]
  | false =>
    have hplan := nxkPlan_of_table hn ht' hb' h0 h32 hb ht hbl htl hc
    rw [he] at hplan
    refine ⟨_, _, _, hplan, fun x => ?_, ?_⟩
    · simp [mem_rectRanges]
    · simp [RectRangesDisjoint, pairwiseDisjoint_range, and_assoc]

variable (hgood : ∀ j < sizeBits z,
  (tableEntry s.mem t j).toNat % rowBytes z = 0 ∧ (tableEntry s.mem t j).toNat + n * rowBytes z ≤ 2 ^ 64)

include hgood

theorem exec_of_data_violation {w : Stop} (h : s.stopOn (s.rectRanges z n t b) = some w) :
    exec (rectCommand z kxn).instr s = w.outcome := by
  obtain ⟨d, reads, writes, hplan, hmem, -⟩ := exists_plan_dataPlan ho hc hgood
  exact exec_of_plan_stop (by rw [command_instr, hplan, dataPlan_of_violation ((stopOn_congr hmem).trans h)])

theorem exec_of_overlap (h : s.stopOn (s.rectRanges z n t b) = none) (hover : ¬RectRangesDisjoint s z kxn n t b) :
    exec (rectCommand z kxn).instr s = .fault .overlappingRanges := by
  obtain ⟨d, reads, writes, hplan, hmem, hd⟩ := exists_plan_dataPlan ho hc hgood
  rw [dataPlan_of_no_violation ((stopOn_congr hmem).trans h), if_neg (hd.not.mpr hover)] at hplan
  exact exec_of_plan_stop ((congrArg s.plan (command_instr _)).trans hplan)

theorem exec_of_rect_data_bus_error (h : s.stopOn (s.rectRanges z n t b) = none)
    (hdis : RectRangesDisjoint s z kxn n t b) (hf : busHits s.platform .faulting (s.rectRanges z n t b) = true) :
    exec (rectCommand z kxn).instr s = .fault .dataPhaseBusFault := by
  obtain ⟨d, reads, writes, hplan, hmem, hd⟩ := exists_plan_dataPlan ho hc hgood
  rw [dataPlan_of_no_violation ((stopOn_congr hmem).trans h), if_pos (hd.mpr hdis)] at hplan
  exact exec_of_data_bus_error ((congrArg s.plan (command_instr _)).trans hplan) hmem hf

end Rectangular

/-- The forms of a statement about both directions are its form at either value of the flag. -/
theorem exists_flag_of_mem {α : Type} {f : Bool → α} {p : α} (h : p ∈ [f true, f false]) : ∃ kxn, p = f kxn := by
  obtain rfl | rfl : p = f true ∨ p = f false := by simpa using h
  · exact ⟨true, rfl⟩
  · exact ⟨false, rfl⟩

/-- Settles O42: the entries before entry j pass, so its error is the plan's. -/
theorem firstBadTableEntryIsReported : Obligations.FirstBadTableEntryIsReported := by
  intro s z j n E h0 h32 hj p hp t b entry hb ht hbl htl hc hgood
  obtain ⟨kxn, rfl⟩ := exists_flag_of_mem
    (f := fun kxn => ((rectCommand z kxn).instr, tableOperand s.operands kxn, bufferOperand s.operands kxn)) hp
  have ho : RectOperandsPass s z kxn n t b := ⟨rfl, rfl, rfl, h0, h32, hb, ht, hbl, htl⟩
  obtain ⟨ps, hps⟩ := entryError_tableEntries (n := n * E) hj hgood
  have herror : ∀ c a, entryError E (n * E) (entry j :: ps) = some (c, a) →
      exec (rectCommand z kxn).instr s = .next (s.failed c a) ∧
      (s.plan (rectCommand z kxn).instr.command).touched = [tableRange z t] := fun c a h =>
    exec_of_plan_error ((congrArg s.plan (command_instr _)).trans (plan_of_entryError ho hc (hps.trans h)))
  exact ⟨fun hmis => herror _ _ (if_pos hmis),
    fun hal hrange => herror _ _ ((if_neg (not_not.mpr hal)).trans (if_pos hrange))⟩

/-- Settles O43. -/
theorem tableBusErrorIsReported : Obligations.TableBusErrorIsReported := by
  intro s z n h0 h32 p hp t b hb ht hbl htl hstop hf hs
  obtain ⟨kxn, rfl⟩ := exists_flag_of_mem
    (f := fun kxn => ((rectCommand z kxn).instr, tableOperand s.operands kxn, bufferOperand s.operands kxn)) hp
  exact exec_of_table_bus_error ⟨rfl, rfl, rfl, h0, h32, hb, ht, hbl, htl⟩ hstop hf hs

/-- Settles O46: each of the four overlaps is one that the data phase asks not to be. -/
theorem overlappingRectangularRangesFault : Obligations.OverlappingRectangularRangesFault := by
  intro s z n k h0 h32 p hp t b row hb ht hbl htl hgood hc hover
  obtain ⟨kxn, rfl⟩ := exists_flag_of_mem
    (f := fun kxn => ((rectCommand z kxn).instr, tableOperand s.operands kxn, bufferOperand s.operands kxn, kxn)) hp
  have ho : RectOperandsPass s z kxn n t b := ⟨rfl, rfl, rfl, h0, h32, hb, ht, hbl, htl⟩
  refine exec_of_overlap ho (clear_mono (by simp [State.rectRanges]) hc) hgood hc.1 ?_
  rintro ⟨hrows, hbuf, htable, htableRows⟩
  obtain ⟨i, hi, j, hj, hov⟩ | ⟨j, hj, hov⟩ | ⟨hk, hov⟩ | ⟨hk, j, hj, hov⟩ := hover
  · exact ne_true_of_eq_false (hrows i hi j hj) hov
  · exact ne_true_of_eq_false (hbuf j hj) hov
  · exact ne_true_of_eq_false (htable hk) hov
  · exact ne_true_of_eq_false (htableRows hk j hj) hov

/-- Settles O47: the violations are looked for on the table first, and then on everything that is accessed. -/
theorem rectangularViolationsStop : Obligations.RectangularViolationsStop := by
  intro s z n h0 h32 p hp t b table rs hb ht hbl htl
  obtain ⟨kxn, rfl⟩ := exists_flag_of_mem
    (f := fun kxn => ((rectCommand z kxn).instr, tableOperand s.operands kxn, bufferOperand s.operands kxn, kxn)) hp
  have ho : RectOperandsPass s z kxn n t b := ⟨rfl, rfl, rfl, h0, h32, hb, ht, hbl, htl⟩
  refine ⟨exec_of_violation_of_range fun w hw => exec_of_table_violation ho hw, fun hok htable htableRows hc => ?_⟩
  obtain ⟨-, -, -, -, -, -, hal, hfits, hrows, hbuf⟩ := hok
  have hgood := fun j hj => And.intro (hal j hj) (hfits j hj)
  obtain ⟨hdev, hwin, hcoh⟩ := exec_of_violation fun w hw => exec_of_data_violation ho hc hgood hw
  exact ⟨hdev, hwin, hcoh, fun hnone hf =>
    exec_of_rect_data_bus_error ho hc hgood hnone ⟨hrows, hbuf, htable, htableRows⟩ hf⟩

end Sys2Proof.Proofs
end

section
/-! PROOF. Rest and the reset input (R232, R250, R251, R262), the sets guarded until a completion is observed (R76,
R254), and accesses that are never answered (R260). -/

namespace Sys2Proof.Proofs

open Sys2Proof Sys2Proof.Machine Sys2Proof.Laws

/-! ### Accesses that are never answered -/

section Unanswered

variable {i : Instr} {s : State}

theorem exec_of_plan_hang {rs : List Range} (h : s.plan i.command = .hang rs) : exec i s = .next s := by
  have hi : i ≠ .transpose8x8Direct := by rintro rfl; cases h
  rw [exec_eq_perform i s hi, h]
  rfl

theorem exec_of_silent_data_phase {rs reads writes : List Range} (h : s.plan i.command = .access reads writes)
    (hmem : ∀ x, x ∈ reads ++ writes ↔ x ∈ rs) (hf : busHits s.platform .faulting rs = false)
    (hs : busHits s.platform .silent rs = true) : exec i s = .next s := by
  have hi : i ≠ .transpose8x8Direct := by rintro rfl; cases h
  have hf' := (busHits_congr hmem).trans hf
  have hs' := (busHits_congr hmem).trans hs
  rw [exec_eq_perform i s hi, h]
  exact (if_neg (ne_true_of_eq_false hf')).trans (if_pos hs')

end Unanswered

/-- A table that is silent somewhere hangs the command, unless a bus error comes first (log entry 8). -/
theorem tablePhase_of_silent {s : State} {table : Range} (h : s.stopOn [table] = none)
    (hs : busHits s.platform .silent [table] = true) (rest : Plan) :
    s.tablePhase table rest = .hang [table] ∨ (busHits s.platform .faulting [table] = true ∧
      s.tablePhase table rest =
        .error .busFault (BitVec.ofNat 64 (table.base + Config.faultOffset s.draw % table.len)) [table]) := by
  cases hf : busHits s.platform .faulting [table] with
  | false => exact .inl (by simp [State.tablePhase, h, hs, hf])
  | true =>
    cases hfirst : Config.hangsFirst s.draw with
    | false => exact .inr ⟨rfl, by simp [State.tablePhase, h, hs, hf, hfirst]⟩
    | true => exact .inl (by simp [State.tablePhase, h, hs, hfirst])

section Rectangular

variable {s : State} {z : Size} {kxn : Bool} {n t b : Nat} (ho : RectOperandsPass s z kxn n t b)

include ho

theorem exec_of_silent_table (h : s.stopOn [tableRange z t] = none)
    (hs : busHits s.platform .silent [tableRange z t] = true) :
    exec (rectCommand z kxn).instr s = .next s ∨ (busHits s.platform .faulting [tableRange z t] = true ∧
      ∃ a : Word, inRange (tableRange z t) a.toNat = true ∧
        exec (rectCommand z kxn).instr s = .next (s.failed .busFault a)) := by
  obtain ⟨rest, hplan⟩ := exists_plan_tablePhase ho
  obtain hhang | ⟨hf, herror⟩ := tablePhase_of_silent h hs rest
  · exact .inl (exec_of_plan_hang (by rw [command_instr, hplan, hhang]))
  · refine .inr ⟨hf, _, inRange_tableRange_offset ho (Config.faultOffset s.draw), ?_⟩
    exact (exec_of_plan_error (by rw [command_instr, hplan, herror]; rfl)).1

theorem exec_of_silent_table_not_faulting (h : s.stopOn [tableRange z t] = none)
    (hs : busHits s.platform .silent [tableRange z t] = true)
    (hf : busHits s.platform .faulting [tableRange z t] = false) : exec (rectCommand z kxn).instr s = .next s :=
  (exec_of_silent_table ho h hs).resolve_right fun ⟨hfault, _⟩ => ne_true_of_eq_false hf hfault

/-- The silent address is met in the table read, or else in the data phase. -/
theorem exec_of_silent_ranges (hgood : ∀ j < sizeBits z,
      (tableEntry s.mem t j).toNat % rowBytes z = 0 ∧ (tableEntry s.mem t j).toNat + n * rowBytes z ≤ 2 ^ 64)
    (hdis : RectRangesDisjoint s z kxn n t b) (h : s.stopOn (s.rectRanges z n t b) = none)
    (hf : busHits s.platform .faulting (s.rectRanges z n t b) = false)
    (hs : busHits s.platform .silent (s.rectRanges z n t b) = true) :
    exec (rectCommand z kxn).instr s = .next s := by
  have htable : ∀ x ∈ [tableRange z t], x ∈ s.rectRanges z n t b := by simp [State.rectRanges]
  have hstop := stopOn_mono htable h
  have hfault := busHits_mono htable hf
  cases hsilent : busHits s.platform .silent [tableRange z t] with
  | true => exact exec_of_silent_table_not_faulting ho hstop hsilent hfault
  | false =>
    obtain ⟨d, reads, writes, hplan, hmem, hd⟩ := exists_plan_dataPlan ho ⟨hstop, hfault, hsilent⟩ hgood
    rw [dataPlan_of_no_violation ((stopOn_congr hmem).trans h), if_pos (hd.mpr hdis)] at hplan
    exact exec_of_silent_data_phase ((congrArg s.plan (command_instr _)).trans hplan) hmem hf hs

end Rectangular

/-- Settles O44: a silent address is met in the one buffer, or in the table read, or in the data phase. -/
theorem unansweredAccessLeavesTheUnitStuck : Obligations.UnansweredAccessLeavesTheUnitStuck := by
  constructor
  · intro s p hp a buf hal hlen hstop hf hs
    have hform : bufferForm p.1.command = some p.2 := by fin_cases hp <;> rfl
    have hplan := (plan_of_bufferForm hform s).trans ((bufferPlan_of_checks hlen hal).2 hstop)
    exact exec_of_silent_data_phase (rs := [buf]) hplan (fun x => by simp [buf, a, bufferRange]) hf hs
  · intro s z n h0 h32 p hp t b table rs hb ht hbl htl
    obtain ⟨kxn, rfl⟩ := exists_flag_of_mem
      (f := fun kxn => ((rectCommand z kxn).instr, tableOperand s.operands kxn, bufferOperand s.operands kxn, kxn)) hp
    have ho : RectOperandsPass s z kxn n t b := ⟨rfl, rfl, rfl, h0, h32, hb, ht, hbl, htl⟩
    refine ⟨exec_of_silent_table_not_faulting ho, fun hstop hs _ => ?_, fun hok htable htableRows => ?_⟩
    · exact (exec_of_silent_table ho hstop hs).imp_right And.right
    · obtain ⟨-, -, -, -, -, -, hal, hfits, hrows, hbuf⟩ := hok
      exact exec_of_silent_ranges ho (fun j hj => ⟨hal j hj, hfits j hj⟩) ⟨hrows, hbuf, htable, htableRows⟩

/-! ### The guarded sets -/

/-- The two ways the guarded sets fare in a move of the host or the unit: all stay, or the move is a read of STATUS
that observes a completion, and none is left (R76, R254). -/
def GuardedOrObserved (s t : State) : Prop :=
  (∀ r ∈ s.unobserved, r ∈ t.unobserved) ∨
  (t.unobserved = [] ∧ ∃ w : Word, t.observed = s.observed ++ [.reg 0x10 w] ∧
    w.getLsbD 0 = false ∧ (w.getLsbD 1 || w.getLsbD 2) = true)

theorem guardedOrObserved_of_eq {s t : State} (h : t.unobserved = s.unobserved) : GuardedOrObserved s t :=
  .inl fun _ hr => h ▸ hr

theorem unitMove_unobserved {s t : State} (h : s.unitMove = .next t) : t.unobserved = s.unobserved := by
  obtain ⟨-, rfl⟩ | ⟨l, i, -, -, hexec⟩ | ⟨-, rfl⟩ := unitMove_next h
  · rfl
  · obtain ⟨-, -, -, -, -, -, -, -, -, -, -, -, hkept⟩ := commandsKeepTheRegisters i s t hexec
    exact hkept
  · rfl

/-- A register write guards more sets, if any (R37, R254). -/
theorem mem_unobserved_writeReg {s : State} {r : Range} (hr : r ∈ s.unobserved) (q : Reg) (v : Word) :
    r ∈ (s.writeReg q v).unobserved := by
  unfold State.writeReg
  split
  · cases q <;> exact hr
  · cases q
    case cmd => exact List.mem_append_left _ hr
    all_goals exact hr

/-- What STATUS reads as where it shows a completion (R24, R76). -/
theorem statusWord_of_visible {s : State} (h : s.completionVisible = true) :
    (statusWord s.busy s.status).getLsbD 0 = false ∧
    ((statusWord s.busy s.status).getLsbD 1 || (statusWord s.busy s.status).getLsbD 2) = true := by
  obtain ⟨hl, hout⟩ := completionVisible_iff.mp h
  obtain ⟨hbusy, hdone, herr, -⟩ := statusAndCtrlFields s.busy s.status s.ctrl
  exact ⟨hbusy.trans (busy_eq_false hl), by rwa [hdone, herr]⟩

theorem readBy_guardedOrObserved (s : State) (off : BitVec 8) : GuardedOrObserved s (s.readBy off) := by
  rw [readBy_eq]
  by_cases hseen : regAt off = .status ∧ s.completionVisible = true
  · obtain ⟨hreg, hvis⟩ := hseen
    obtain ⟨-, -, hoff, -⟩ := offset_eq_iff off
    obtain rfl : off = 0x10 := hoff.mpr hreg
    exact .inr ⟨if_pos ⟨hreg, hvis⟩, _, rfl, statusWord_of_visible hvis⟩
  · exact guardedOrObserved_of_eq (if_neg hseen)

theorem hostOp_guardedOrObserved {s t : State} {op : HostOp} (h : s.hostOp op = .next t) : GuardedOrObserved s t := by
  obtain ⟨off, -, rfl⟩ | ⟨off, w, v, -, -, rfl⟩ | ⟨a, n, -, -, -, rfl⟩ | ⟨a, bs, -, -, -, rfl⟩ |
    ⟨a, n, -, -, rfl⟩ | ⟨a, n, -, -, -, rfl⟩ := hostOp_next h
  case inl => exact readBy_guardedOrObserved s off
  case inr.inl => exact .inl fun _ hr => mem_unobserved_writeReg hr _ v
  all_goals exact guardedOrObserved_of_eq rfl

theorem hostMove_guardedOrObserved {s t : State} (h : s.hostMove = .next t) : GuardedOrObserved s t := by
  obtain rfl | ⟨op, ops, -, hop⟩ := hostMove_next h
  · exact guardedOrObserved_of_eq rfl
  · exact hostOp_guardedOrObserved (s := { s with inputs := ops }) hop

/-- Settles O49: the unit's move keeps the sets, the host's keeps them or observes a completion, and a reset empties
them where the unit is BUSY. -/
theorem setsAreGuardedUntilObserved : Obligations.SetsAreGuardedUntilObserved := by
  intro s t h
  obtain ⟨ts, f, hmove⟩ := step_moves (s := s)
  rw [h] at hmove
  obtain hunit | hhost | ⟨hreset, hturn⟩ := hmove
  · exact .inl fun r hr => unitMove_unobserved hunit.symm ▸ hr
  · exact (hostMove_guardedOrObserved hhost.symm).imp_right .inl
  · obtain ⟨-, rfl⟩ | ⟨hb, rfl⟩ := resetMove_next hreset.symm
    · exact .inl fun _ hr => hr
    · exact .inr (.inr ⟨rfl, hb, ts, hturn⟩)

/-! ### Rest and the reset input -/

theorem hostMove_of_no_inputs {s : State} (h : s.inputs = []) : s.hostMove = .next s := by
  simp only [State.hostMove, h]

theorem unitMove_of_idle {s : State} (hb : s.busy = false) : s.unitMove = .next s := by
  have hl : s.latch = none := by simpa [State.busy] using hb
  simp only [State.unitMove, hl]

/-- Settles O18: with no turn given the move is the host's, which has nothing left to do. -/
theorem idleUnitDoesNothing : Obligations.IdleUnitDoesNothing := by
  intro s
  constructor
  · rintro ⟨hi, hb⟩ ht
    exact (step_idle hb ht).trans (hostMove_of_no_inputs hi)
  · intro ts hb ht
    exact (step_turn ht).trans (unitMove_of_idle (s := { s with turns := ts }) hb)

/-- A reset goes on and ends IDLE, unless the command it abandons is one the model stops on (log entry 12). -/
theorem exists_resetMove_next {s : State} (h : ∀ w rs, s.runningPlan ≠ .stop w rs) :
    ∃ t, s.resetMove = .next t ∧ t.busy = false := by
  unfold State.resetMove
  split
  · split
    · exact absurd ‹_› (h _ _)
    · exact ⟨_, rfl, rfl⟩
  · exact ⟨_, rfl, rfl⟩

/-- Settles O20: the turn taken is no part of the running command's plan. -/
theorem resetInputCompletes : Obligations.ResetInputCompletes := by
  intro s ts ht hplan
  rw [step_turn ht]
  exact exists_resetMove_next (s := { s with turns := ts }) hplan

end Sys2Proof.Proofs
end
